-- ==== Sys2Proof/Word.lean ====
section
/-! DEFINITION. The units every other file counts in: bytes and the machine words whose widths
10_state.md rule R31 and rule R40 give. -/

namespace Sys2Proof

/-- The smallest addressable unit of every storage space (20_memory.md rule R80, rule R95). -/
abbrev Byte := BitVec 8

/-- Bits in stream order: the head is the bit the cursor consumes first (20_memory.md rule R81). -/
abbrev Bits := List Bool

end Sys2Proof
end

