-- ==== Sys2Proof/Syntax.lean ====
section
/-! DEFINITION. The instructions: one constructor per mnemonic of spec/opcode_table.json (30_encoding.md rule R132 to
rule R137). An instruction's operands are the bits of its WORD, the value of its format's field. What follows the word
in the input (extra bits, LEN and NLEN, stored data, row data) is read by the instruction's meaning, in the order its
rule gives. -/

namespace Sys2Proof

/-- The instructions, in the order of the table. -/
inductive Instr where
  /-- BLK_STORED, BTYPE 0 (41_block_dispatch.md rule R245); final is BFINAL -/
  | blkStored (final : BitVec 1)
  /-- BLK_STATIC, BTYPE 1 (rule R252) -/
  | blkStatic (final : BitVec 1)
  /-- BLK_DYNAMIC, BTYPE 2 (42_dynamic_header.md rule R280) -/
  | blkDynamic (final : BitVec 1)
  /-- BLK_RESERVED, BTYPE 3 (rule R255) -/
  | blkReserved (final : BitVec 1)
  /-- CL_LEN, symbols 0..15, the length itself (rule R285) -/
  | clLen (v : BitVec 4)
  /-- CL_REP, symbol 16 (rule R286) -/
  | clRep
  /-- CL_ZERO3, symbol 17 (rule R287) -/
  | clZero3
  /-- CL_ZERO11, symbol 18 (rule R288) -/
  | clZero11
  /-- LIT, symbols 0..255, the byte itself (43_symbol_loop.md rule R320) -/
  | lit (b : Byte)
  /-- EOB, symbol 256 (rule R321) -/
  | eob
  /-- LEN257 (rule R340) -/
  | len257
  /-- LEN258 (rule R341) -/
  | len258
  /-- LEN259 (rule R342) -/
  | len259
  /-- LEN260 (rule R343) -/
  | len260
  /-- LEN261 (rule R344) -/
  | len261
  /-- LEN262 (rule R345) -/
  | len262
  /-- LEN263 (rule R346) -/
  | len263
  /-- LEN264 (rule R347) -/
  | len264
  /-- LEN265 (rule R348) -/
  | len265
  /-- LEN266 (rule R349) -/
  | len266
  /-- LEN267 (rule R350) -/
  | len267
  /-- LEN268 (rule R351) -/
  | len268
  /-- LEN269 (rule R352) -/
  | len269
  /-- LEN270 (rule R353) -/
  | len270
  /-- LEN271 (rule R354) -/
  | len271
  /-- LEN272 (rule R355) -/
  | len272
  /-- LEN273 (rule R356) -/
  | len273
  /-- LEN274 (rule R357) -/
  | len274
  /-- LEN275 (rule R358) -/
  | len275
  /-- LEN276 (rule R359) -/
  | len276
  /-- LEN277 (rule R360) -/
  | len277
  /-- LEN278 (rule R361) -/
  | len278
  /-- LEN279 (rule R362) -/
  | len279
  /-- LEN280 (rule R363) -/
  | len280
  /-- LEN281 (rule R364) -/
  | len281
  /-- LEN282 (rule R365) -/
  | len282
  /-- LEN283 (rule R366) -/
  | len283
  /-- LEN284 (rule R367) -/
  | len284
  /-- LEN285 (rule R368) -/
  | len285
  /-- LIT_RSV286 (rule R331) -/
  | litRsv286
  /-- LIT_RSV287 (rule R332) -/
  | litRsv287
  /-- DIST0 (rule R370) -/
  | dist0
  /-- DIST1 (rule R371) -/
  | dist1
  /-- DIST2 (rule R372) -/
  | dist2
  /-- DIST3 (rule R373) -/
  | dist3
  /-- DIST4 (rule R374) -/
  | dist4
  /-- DIST5 (rule R375) -/
  | dist5
  /-- DIST6 (rule R376) -/
  | dist6
  /-- DIST7 (rule R377) -/
  | dist7
  /-- DIST8 (rule R378) -/
  | dist8
  /-- DIST9 (rule R379) -/
  | dist9
  /-- DIST10 (rule R380) -/
  | dist10
  /-- DIST11 (rule R381) -/
  | dist11
  /-- DIST12 (rule R382) -/
  | dist12
  /-- DIST13 (rule R383) -/
  | dist13
  /-- DIST14 (rule R384) -/
  | dist14
  /-- DIST15 (rule R385) -/
  | dist15
  /-- DIST16 (rule R386) -/
  | dist16
  /-- DIST17 (rule R387) -/
  | dist17
  /-- DIST18 (rule R388) -/
  | dist18
  /-- DIST19 (rule R389) -/
  | dist19
  /-- DIST20 (rule R390) -/
  | dist20
  /-- DIST21 (rule R391) -/
  | dist21
  /-- DIST22 (rule R392) -/
  | dist22
  /-- DIST23 (rule R393) -/
  | dist23
  /-- DIST24 (rule R394) -/
  | dist24
  /-- DIST25 (rule R395) -/
  | dist25
  /-- DIST26 (rule R396) -/
  | dist26
  /-- DIST27 (rule R397) -/
  | dist27
  /-- DIST28 (rule R398) -/
  | dist28
  /-- DIST29 (rule R399) -/
  | dist29
  /-- DIST_RSV30 (rule R333) -/
  | distRsv30
  /-- DIST_RSV31 (rule R334) -/
  | distRsv31
  /-- FILT_NONE, filter type 0 (45_defilter.md rule R427) -/
  | filtNone
  /-- FILT_SUB, filter type 1 (rule R428) -/
  | filtSub
  /-- FILT_UP, filter type 2 (rule R429) -/
  | filtUp
  /-- FILT_AVG, filter type 3 (rule R430) -/
  | filtAvg
  /-- FILT_PAETH, filter type 4 (rule R431) -/
  | filtPaeth
  /-- FILT_RESERVED, filter types 5..255, the type itself (rule R433) -/
  | filtReserved (ft : Byte)
  /-- CMD_NONE, CMD = 0 (46_host_interface.md rule R471) -/
  | cmdNone
  /-- CMD_INFLATE, CMD = 1 (rule R474) -/
  | cmdInflate
  /-- CMD_DEFILTER, CMD = 2 (rule R475) -/
  | cmdDefilter
  /-- CMD_RESERVED, CMD = 3 (rule R471) -/
  | cmdReserved
  deriving DecidableEq, Repr

end Sys2Proof
end

