-- ==== Sys2Proof/WellFormed.lean ====
section
/-! DEFINITION. The one operand check the encodings need: FILT_RESERVED is the filter types 5..255
(30_encoding.md rule R136). Every other operand fills its field. -/

namespace Sys2Proof

/-- An instruction some word encodes. -/
def Instr.WellFormed : Instr → Bool
  | .filtReserved ft => decide (5 ≤ ft.toNat)
  | _ => true

end Sys2Proof
end

