-- ==== Sys2Proof/Decode.lean ====
section
/-! DEFINITION. Decoding and encoding: from the value of a format's field to the instruction it stands for and back
(30_encoding.md rule R121 to rule R137), the length and distance tables (43_symbol_loop.md rule R325, rule R328), the
code bits of the static blocks (30_encoding.md rule R140) and the layout of a bit sequence in bytes (20_memory.md
rule R81). Which format's field the machine reads next is a matter of its state: Machine/Fetch.lean. -/

namespace Sys2Proof

/-- The formats whose field selects an opcode (30_encoding.md rule R121, rule R126 to rule R129, rule R137). -/
inductive Format where
  /-- the 3-bit block header h: BFINAL is h[0], BTYPE is h[2:1] -/
  | hdr
  /-- a symbol of CLEN_TREE -/
  | clsym
  /-- a symbol of LIT_TREE -/
  | litsym
  /-- a symbol of DIST_TREE -/
  | distsym
  /-- a row's filter-type byte FT -/
  | row
  /-- the command field CMD -/
  | cmd
  deriving DecidableEq, Repr

/-- Why a value is no instruction. -/
inductive DecodeError where
  /-- the value is wider than the field (3 bits of HDR, 8 of ROW, 2 of CMD) -/
  | fieldWidth
  /-- the value is no symbol of the alphabet (0..18, 0..287, 0..31; 00_scope.md rule R18) -/
  | symbolRange
  deriving DecidableEq, Repr

/-- The block-header opcodes (30_encoding.md rule R121, rule R132). -/
def decodeHdr (h : Nat) : Except DecodeError Instr :=
  match h / 2 with
  | 0 => .ok (.blkStored (BitVec.ofNat 1 h))
  | 1 => .ok (.blkStatic (BitVec.ofNat 1 h))
  | 2 => .ok (.blkDynamic (BitVec.ofNat 1 h))
  | 3 => .ok (.blkReserved (BitVec.ofNat 1 h))
  | _ => .error .fieldWidth

/-- The code-length opcodes (30_encoding.md rule R133). -/
def decodeClsym (sym : Nat) : Except DecodeError Instr :=
  if sym < 16 then .ok (.clLen (BitVec.ofNat 4 sym))
  else
    match sym - 16 with
    | 0 => .ok .clRep
    | 1 => .ok .clZero3
    | 2 => .ok .clZero11
    | _ => .error .symbolRange

/-- The literal/length opcodes (30_encoding.md rule R134). -/
def decodeLitsym (sym : Nat) : Except DecodeError Instr :=
  if sym < 256 then .ok (.lit (BitVec.ofNat 8 sym))
  else
    match sym - 256 with
    | 0 => .ok .eob
    | 1 => .ok .len257
    | 2 => .ok .len258
    | 3 => .ok .len259
    | 4 => .ok .len260
    | 5 => .ok .len261
    | 6 => .ok .len262
    | 7 => .ok .len263
    | 8 => .ok .len264
    | 9 => .ok .len265
    | 10 => .ok .len266
    | 11 => .ok .len267
    | 12 => .ok .len268
    | 13 => .ok .len269
    | 14 => .ok .len270
    | 15 => .ok .len271
    | 16 => .ok .len272
    | 17 => .ok .len273
    | 18 => .ok .len274
    | 19 => .ok .len275
    | 20 => .ok .len276
    | 21 => .ok .len277
    | 22 => .ok .len278
    | 23 => .ok .len279
    | 24 => .ok .len280
    | 25 => .ok .len281
    | 26 => .ok .len282
    | 27 => .ok .len283
    | 28 => .ok .len284
    | 29 => .ok .len285
    | 30 => .ok .litRsv286
    | 31 => .ok .litRsv287
    | _ => .error .symbolRange

/-- The distance opcodes (30_encoding.md rule R135). -/
def decodeDistsym (sym : Nat) : Except DecodeError Instr :=
  match sym with
  | 0 => .ok .dist0
  | 1 => .ok .dist1
  | 2 => .ok .dist2
  | 3 => .ok .dist3
  | 4 => .ok .dist4
  | 5 => .ok .dist5
  | 6 => .ok .dist6
  | 7 => .ok .dist7
  | 8 => .ok .dist8
  | 9 => .ok .dist9
  | 10 => .ok .dist10
  | 11 => .ok .dist11
  | 12 => .ok .dist12
  | 13 => .ok .dist13
  | 14 => .ok .dist14
  | 15 => .ok .dist15
  | 16 => .ok .dist16
  | 17 => .ok .dist17
  | 18 => .ok .dist18
  | 19 => .ok .dist19
  | 20 => .ok .dist20
  | 21 => .ok .dist21
  | 22 => .ok .dist22
  | 23 => .ok .dist23
  | 24 => .ok .dist24
  | 25 => .ok .dist25
  | 26 => .ok .dist26
  | 27 => .ok .dist27
  | 28 => .ok .dist28
  | 29 => .ok .dist29
  | 30 => .ok .distRsv30
  | 31 => .ok .distRsv31
  | _ => .error .symbolRange

/-- The defilter opcodes (30_encoding.md rule R136). -/
def decodeRow (ft : Nat) : Except DecodeError Instr :=
  match ft with
  | 0 => .ok .filtNone
  | 1 => .ok .filtSub
  | 2 => .ok .filtUp
  | 3 => .ok .filtAvg
  | 4 => .ok .filtPaeth
  | n => if n < 256 then .ok (.filtReserved (BitVec.ofNat 8 n)) else .error .fieldWidth

/-- The command opcodes (30_encoding.md rule R137). -/
def decodeCmd (v : Nat) : Except DecodeError Instr :=
  match v with
  | 0 => .ok .cmdNone
  | 1 => .ok .cmdInflate
  | 2 => .ok .cmdDefilter
  | 3 => .ok .cmdReserved
  | _ => .error .fieldWidth

/-- The decoder: the instruction that the value w of a format's field stands for. -/
def decode (f : Format) (w : Nat) : Except DecodeError Instr :=
  match f with
  | .hdr => decodeHdr w
  | .clsym => decodeClsym w
  | .litsym => decodeLitsym w
  | .distsym => decodeDistsym w
  | .row => decodeRow w
  | .cmd => decodeCmd w

/-- The encoder: an instruction's format and the value of its field (30_encoding.md rule R132 to rule R137). -/
def encode : Instr → Format × Nat
  | .blkStored f => (.hdr, f.toNat)
  | .blkStatic f => (.hdr, 2 + f.toNat)
  | .blkDynamic f => (.hdr, 4 + f.toNat)
  | .blkReserved f => (.hdr, 6 + f.toNat)
  | .clLen v => (.clsym, v.toNat)
  | .clRep => (.clsym, 16)
  | .clZero3 => (.clsym, 17)
  | .clZero11 => (.clsym, 18)
  | .lit b => (.litsym, b.toNat)
  | .eob => (.litsym, 256)
  | .len257 => (.litsym, 257)
  | .len258 => (.litsym, 258)
  | .len259 => (.litsym, 259)
  | .len260 => (.litsym, 260)
  | .len261 => (.litsym, 261)
  | .len262 => (.litsym, 262)
  | .len263 => (.litsym, 263)
  | .len264 => (.litsym, 264)
  | .len265 => (.litsym, 265)
  | .len266 => (.litsym, 266)
  | .len267 => (.litsym, 267)
  | .len268 => (.litsym, 268)
  | .len269 => (.litsym, 269)
  | .len270 => (.litsym, 270)
  | .len271 => (.litsym, 271)
  | .len272 => (.litsym, 272)
  | .len273 => (.litsym, 273)
  | .len274 => (.litsym, 274)
  | .len275 => (.litsym, 275)
  | .len276 => (.litsym, 276)
  | .len277 => (.litsym, 277)
  | .len278 => (.litsym, 278)
  | .len279 => (.litsym, 279)
  | .len280 => (.litsym, 280)
  | .len281 => (.litsym, 281)
  | .len282 => (.litsym, 282)
  | .len283 => (.litsym, 283)
  | .len284 => (.litsym, 284)
  | .len285 => (.litsym, 285)
  | .litRsv286 => (.litsym, 286)
  | .litRsv287 => (.litsym, 287)
  | .dist0 => (.distsym, 0)
  | .dist1 => (.distsym, 1)
  | .dist2 => (.distsym, 2)
  | .dist3 => (.distsym, 3)
  | .dist4 => (.distsym, 4)
  | .dist5 => (.distsym, 5)
  | .dist6 => (.distsym, 6)
  | .dist7 => (.distsym, 7)
  | .dist8 => (.distsym, 8)
  | .dist9 => (.distsym, 9)
  | .dist10 => (.distsym, 10)
  | .dist11 => (.distsym, 11)
  | .dist12 => (.distsym, 12)
  | .dist13 => (.distsym, 13)
  | .dist14 => (.distsym, 14)
  | .dist15 => (.distsym, 15)
  | .dist16 => (.distsym, 16)
  | .dist17 => (.distsym, 17)
  | .dist18 => (.distsym, 18)
  | .dist19 => (.distsym, 19)
  | .dist20 => (.distsym, 20)
  | .dist21 => (.distsym, 21)
  | .dist22 => (.distsym, 22)
  | .dist23 => (.distsym, 23)
  | .dist24 => (.distsym, 24)
  | .dist25 => (.distsym, 25)
  | .dist26 => (.distsym, 26)
  | .dist27 => (.distsym, 27)
  | .dist28 => (.distsym, 28)
  | .dist29 => (.distsym, 29)
  | .distRsv30 => (.distsym, 30)
  | .distRsv31 => (.distsym, 31)
  | .filtNone => (.row, 0)
  | .filtSub => (.row, 1)
  | .filtUp => (.row, 2)
  | .filtAvg => (.row, 3)
  | .filtPaeth => (.row, 4)
  | .filtReserved ft => (.row, ft.toNat)
  | .cmdNone => (.cmd, 0)
  | .cmdInflate => (.cmd, 1)
  | .cmdDefilter => (.cmd, 2)
  | .cmdReserved => (.cmd, 3)

/-- The number of values a format's field has: 8 headers, the three alphabets, 256 filter types, 4 commands
(00_scope.md rule R18, 30_encoding.md rule R136, rule R137). -/
def Format.size : Format → Nat
  | .hdr => 8
  | .clsym => 19
  | .litsym => 288
  | .distsym => 32
  | .row => 256
  | .cmd => 4

/-! The operand tables. -/

/-- LEXT and LBASE of symbols 257..285: (symbol, extra bits, base length) (43_symbol_loop.md rule R325). -/
def lengthTable : List (Nat × Nat × Nat) :=
  [(257, 0, 3), (258, 0, 4), (259, 0, 5), (260, 0, 6), (261, 0, 7),
   (262, 0, 8), (263, 0, 9), (264, 0, 10), (265, 1, 11), (266, 1, 13),
   (267, 1, 15), (268, 1, 17), (269, 2, 19), (270, 2, 23), (271, 2, 27),
   (272, 2, 31), (273, 3, 35), (274, 3, 43), (275, 3, 51), (276, 3, 59),
   (277, 4, 67), (278, 4, 83), (279, 4, 99), (280, 4, 115), (281, 5, 131),
   (282, 5, 163), (283, 5, 195), (284, 5, 227), (285, 0, 258)]

/-- DEXT and DBASE of symbols 0..29: (extra bits, base distance) (43_symbol_loop.md rule R328). -/
def distTable : List (Nat × Nat) :=
  [(0, 1), (0, 2), (0, 3), (0, 4), (1, 5),
   (1, 7), (2, 9), (2, 13), (3, 17), (3, 25),
   (4, 33), (4, 49), (5, 65), (5, 97), (6, 129),
   (6, 193), (7, 257), (7, 385), (8, 513), (8, 769),
   (9, 1025), (9, 1537), (10, 2049), (10, 3073), (11, 4097),
   (11, 6145), (12, 8193), (12, 12289), (13, 16385), (13, 24577)]

/-- LEXT[sym − 257] (43_symbol_loop.md rule R325). -/
def lext (sym : Nat) : Nat := ((lengthTable.lookup sym).getD (0, 0)).1

/-- LBASE[sym − 257] (43_symbol_loop.md rule R325). -/
def lbase (sym : Nat) : Nat := ((lengthTable.lookup sym).getD (0, 0)).2

/-- DEXT[sym] (43_symbol_loop.md rule R328). -/
def dext (sym : Nat) : Nat := ((distTable[sym]?).getD (0, 0)).1

/-- DBASE[sym] (43_symbol_loop.md rule R328). -/
def dbase (sym : Nat) : Nat := ((distTable[sym]?).getD (0, 0)).2

/-- The largest of lo .. lo+n that base maps to at most x, or lo. -/
def largestBase (base : Nat → Nat) (x lo : Nat) : Nat → Nat
  | 0 => lo
  | n + 1 => if base (lo + n + 1) ≤ x then lo + n + 1 else largestBase base x lo n

/-- MATCH len=L dist=D expands to LEN<s> extra=<e> DIST<t> extra=<x>, answered as (s, e, t, x)
(30_encoding.md rule R142). -/
def expandMatch (L D : Nat) : Nat × Nat × Nat × Nat :=
  let s := if L = 258 then 285 else largestBase lbase L 257 27
  let t := largestBase dbase D 0 29
  (s, L - lbase s, t, D - dbase t)

/-! Bits of the stream. -/

/-- The n bits of a fixed field's value v, least significant first (20_memory.md rule R84, rule R89). -/
def lsbBits : Nat → Nat → Bits
  | 0, _ => []
  | n + 1, v => v.testBit 0 :: lsbBits n (v / 2)

/-- The n bits of a Huffman code c, most significant first (40_huffman.md rule R206). -/
def msbBits : Nat → Nat → Bits
  | 0, _ => []
  | n + 1, c => c.testBit n :: msbBits n c

/-- The code of a literal/length symbol in a static block (30_encoding.md rule R140). -/
def staticLitBits (sym : Nat) : Bits :=
  if sym < 144 then msbBits 8 (0x30 + sym)
  else if sym < 256 then msbBits 9 (0x190 + (sym - 144))
  else if sym < 280 then msbBits 7 (sym - 256)
  else msbBits 8 (0xC0 + (sym - 280))

/-- The code of a distance symbol in a static block (30_encoding.md rule R140). -/
def staticDistBits (sym : Nat) : Bits := msbBits 5 sym

/-- The value of bits taken least significant first. -/
def bitsValue : Bits → Nat
  | [] => 0
  | b :: bs => (if b then 1 else 0) + 2 * bitsValue bs

/-- Bits laid out in n bytes, bit 0 of each byte first (20_memory.md rule R81); bits past the sequence are 0. -/
def packBits : Nat → Bits → List Byte
  | 0, _ => []
  | n + 1, bs => BitVec.ofNat 8 (bitsValue (bs.take 8)) :: packBits n (bs.drop 8)

/-! Words numbered as spec/opcode_table.json numbers them. -/

/-- The format of a table word. Every row's match and mask apply to the value of its own format's field, and the
fields of different formats share values, so the word alone does not name its format: a word of more than one byte is
a LITSYM symbol; a word of one byte is read in the format of the first row of the table, in the table's order, that
has exactly this match value, and as a row's filter type where there is no such row. A width of 2, 3 or 5 bits names
the format whose field has it. DESIGN CHOICE, notes/assumptions/4.md. -/
def tableFormat (nbits w : Nat) : Option Format :=
  match nbits with
  | 2 => some .cmd
  | 3 => some .hdr
  | 5 => if w = 0 ∨ w = 16 ∨ w = 17 ∨ w = 18 then some .clsym else some .distsym
  | 8 =>
    if w = 0 ∨ w = 2 ∨ w = 4 ∨ w = 6 then some .hdr
    else if w = 16 ∨ w = 17 ∨ w = 18 then some .clsym
    else if w < 32 then some .distsym
    else some .row
  | 9 => some .litsym
  | 16 => some .litsym
  | _ => none

/-- The value of the format's field in a table word: the LITSYM rows' mask is 0x1FF, the others' fields fill theirs. -/
def tableValue (f : Format) (w : Nat) : Nat :=
  match f with
  | .litsym => w % 512
  | _ => w

/-- The instruction the decoder reads from a word of the opcode table. -/
def decodeTableWord (nbits w : Nat) : Option Instr :=
  match tableFormat nbits w with
  | none => none
  | some f =>
    match decode f (tableValue f w) with
    | .ok i => some i
    | .error _ => none

end Sys2Proof
end

