-- ==== Sys2Proof/Config.lean ====
section
/-! DEFINITION. The fixed parameters of the hardware (00_scope.md rule R8) and the default of its one open
parameter that a rule reads (rule R9). There is no free value: no rule leaves a result of an instruction open. -/

namespace Sys2Proof.Config

/-- WIN_SIZE, the window's capacity in bytes (00_scope.md rule R8). -/
abbrev winSize : Nat := 32768

/-- N_LITLEN, the literal/length alphabet 0..287 (00_scope.md rule R8). -/
abbrev nLitLen : Nat := 288

/-- N_DIST, the distance alphabet 0..31 (00_scope.md rule R8). -/
abbrev nDist : Nat := 32

/-- N_CLEN, the code-length alphabet 0..18 (00_scope.md rule R8). -/
abbrev nCLen : Nat := 19

/-- MAX_LEN_LITDIST, the longest literal/length or distance code (00_scope.md rule R8). -/
abbrev maxLenLitDist : Nat := 15

/-- MAX_LEN_CLEN, the longest code-length code (00_scope.md rule R8). -/
abbrev maxLenCLen : Nat := 7

/-- The entries of LENS: HLIT + HDIST is at most 288 + 32 (10_state.md rule R31). -/
abbrev nLens : Nat := 320

/-- The default of OUT_CAPACITY: unbounded (00_scope.md rule R9, 92_eei_decisions.md D19). A machine's own bound is
the field outCapacity of State. -/
abbrev defaultOutCapacity : Option Nat := none

end Sys2Proof.Config
end

