-- ==== Sys2Proof/Machine/Memory.lean ====
section
/-! DEFINITION. Byte memories: the storage of IN, WIN, PREV_ROW and CUR_ROW (20_memory.md rule R80). A memory is a
list of (address, byte) pairs in ONE canonical form: addresses strictly rising and no entry equal to what an unlisted
address reads as. -/

namespace Sys2Proof.Machine

/-- A memory: the bytes that differ from `unlisted`, by rising address. -/
abbrev Memory := List Host.Cell

/-- What an unlisted address reads as. For WIN and the row buffers it is the reset contents 0x00 (10_state.md rule R51,
rule R52); for IN, whose reset contents the spec does not give, DESIGN CHOICE 0x00, unsafe (notes/assumptions/5.md). -/
def unlisted : Byte := 0

/-- The canonical form. -/
abbrev Memory.wf (m : Memory) : Prop :=
  m.Pairwise (fun c d => c.1 < d.1) ∧ ∀ c ∈ m, c.2 ≠ unlisted

/-- The byte at address a. -/
def Memory.read : Memory → Nat → Byte
  | [], _ => unlisted
  | (k, v) :: m, a => if k = a then v else Memory.read m a

/-- The entry of byte b at address a before m: none where b is what an unlisted address reads as. -/
def Memory.enter (a : Nat) (b : Byte) (m : Memory) : Memory :=
  if b = unlisted then m else (a, b) :: m

/-- Store byte b at address a, keeping the canonical form. -/
def Memory.write : Memory → Nat → Byte → Memory
  | [], a, b => Memory.enter a b []
  | (k, v) :: m, a, b =>
    if a < k then Memory.enter a b ((k, v) :: m)
    else if a = k then Memory.enter a b m
    else (k, v) :: Memory.write m a b

/-- Store bytes at addresses a, a+1, ... -/
def Memory.writeBytes : Memory → Nat → List Byte → Memory
  | m, _, [] => m
  | m, a, b :: bs => Memory.writeBytes (Memory.write m a b) (a + 1) bs

/-- The n bytes at addresses a, a+1, ... -/
def Memory.readBytes (m : Memory) : Nat → Nat → List Byte
  | _, 0 => []
  | a, n + 1 => Memory.read m a :: Memory.readBytes m (a + 1) n

end Sys2Proof.Machine
end

