-- ==== Sys2Proof/Machine/State.lean ====
section
/-! DEFINITION. The state of the inflate core as plain data: every register, field, flag and array that 10_state.md
gives the machine (rule R30 to rule R48), the reasons a step can stop, the errors that abort a command
(60_exceptions.md rule R521 to rule R523), and the machine right after reset (10_state.md rule R51). -/

namespace Sys2Proof.Machine

/-- STATUS (10_state.md rule R40). -/
inductive Status where
  | idle | busy | done | error
  deriving DecidableEq, Repr

/-- ERR_CLASS (10_state.md rule R40, 60_exceptions.md rule R521 to rule R523). -/
inductive ErrClass where
  | none | format | unsupported | resource
  deriving DecidableEq, Repr

/-- PHASE, the engines' control state (10_state.md rule R39, rule R48). -/
inductive Phase where
  /-- no command is running -/
  | idle
  /-- the next bits are a block header -/
  | hdr
  /-- stored-block LEN/NLEN and payload -/
  | stored
  /-- HLIT, HDIST, HCLEN and the code-length lengths -/
  | dynHdr
  /-- decoding code lengths -/
  | dynLens
  /-- the shared Huffman decode loop -/
  | symbols
  /-- a block has ended and BFINAL is tested -/
  | blockEnd
  /-- the command completed -/
  | done
  /-- the command aborted -/
  | error
  /-- the defilterer's rows -/
  | dfRow
  deriving DecidableEq, Repr

/-- A tree value: NULL, LEAF(sym) or NODE(left, right), left on bit 0 and right on bit 1 (00_scope.md rule R15,
10_state.md rule R43). A child that is absent is NULL. -/
inductive Tree where
  | null
  | leaf (sym : Nat)
  | node (left right : Tree)
  deriving DecidableEq, Repr

/-- What `raise` names: an error class with its code (60_exceptions.md rule R520 to rule R523). The ones after
outputOverflow are raised at the boundary by the collaborator, never by the block. -/
inductive Err where
  | badBlockType | storedLenMismatch | badCodeLengths | invalidCode | emptyTree | repeatWithoutPrevious
  | codeLengthsOverflow | nullDistanceTree | litlenSymbolRange | distSymbolRange | distanceTooFar | inputExhausted
  | badFilterType | rowDataShort
  | pixelSize
  | outputOverflow
  | zlibHeader | interlace | colorType | bitDepth | compressionMethod | filterMethod | presetDictionary
  deriving DecidableEq, Repr

/-- The fields a host write leaves unchanged (10_state.md rule R40). -/
inductive ReadOnlyField where
  | status | errClass | errCode | outLen
  deriving DecidableEq, Repr

/-- One move of the host (46_host_interface.md rule R479, 70_reset_and_hazards.md rule R572, rule R575). -/
inductive HostMove where
  /-- store bytes into IN from an index on -/
  | writeIn (start : Nat) (bytes : List Byte)
  /-- write IN_LEN -/
  | writeInLen (n : Nat)
  /-- write DF_WIDTH -/
  | writeWidth (v : BitVec 32)
  /-- write DF_HEIGHT -/
  | writeHeight (v : BitVec 32)
  /-- write DF_PIXEL_SIZE -/
  | writePixelSize (v : BitVec 3)
  /-- write CMD, which starts a command for 1 and 2 -/
  | writeCmd (v : BitVec 2)
  /-- write a read-only field, which is ignored, also while a command runs (46_host_interface.md rule R479) -/
  | writeReadOnly (f : ReadOnlyField) (v : Nat)
  /-- load IN with the OUT of the command that is done (rule R486) -/
  | loadOut
  /-- let the block take one step -/
  | wait
  /-- power-on reset, also while a command runs -/
  | reset
  deriving DecidableEq, Repr

/-- Why the machine stops with a fault. No run from reset meets either. -/
inductive Fault where
  /-- raised by appendLens and by buildTrees (Machine/Ops.lean) on an access to LENS past its 320 entries, an index
  10_state.md rule R31 says does not exist: safe (notes/assumptions/7.md) -/
  | lensIndex
  /-- raised by engineAction (Machine/Fetch.lean) when STATUS is BUSY while PHASE is IDLE, DONE or ERROR, for which
  41_block_dispatch.md rule R240 has no transition: safe (notes/assumptions/9.md) -/
  | noTransition
  deriving DecidableEq, Repr

/-- Why a step has no meaning. -/
inductive Refusal where
  /-- raised by exec for an instruction without a meaning: safe. No arm is left so -/
  | notModelled (mnemonic : String)
  /-- raised by hostWriteCmd (Machine/Ops.lean), the shared operation of the four commands, when STATUS is BUSY: the
  host has no such move (46_host_interface.md rule R473 duty 2, 93_implementation_defined.md row 5): safe
  (notes/assumptions/6.md) -/
  | cmdWhileBusy
  /-- raised by hostAction (Machine/Fetch.lean) when the host reads OUT while STATUS is not DONE: the model gives no
  value (20_memory.md rule R100, 93_implementation_defined.md row 7): safe (notes/assumptions/23.md) -/
  | outNotReadable
  /-- raised by decoded (Machine/Fetch.lean) when a tree's leaf is no symbol of its alphabet; no tree BuildTree makes
  holds one (40_huffman.md rule R207): safe (notes/assumptions/8.md) -/
  | noSuchSymbol
  deriving DecidableEq, Repr

/-- The state. Names and widths are those of 10_state.md rule R31, rule R40, rule R45, rule R46 and rule R48. -/
structure State where
  /-- CMD, u2 -/
  cmd : BitVec 2
  /-- STATUS, u2 -/
  status : Status
  /-- ERR_CLASS, u2 -/
  errClass : ErrClass
  /-- ERR_CODE, u8 -/
  errCode : BitVec 8
  /-- IN_LEN -/
  inLen : Nat
  /-- OUT_LEN -/
  outLen : Nat
  /-- DF_WIDTH, u32 -/
  dfWidth : BitVec 32
  /-- DF_HEIGHT, u32 -/
  dfHeight : BitVec 32
  /-- DF_PIXEL_SIZE, u3 -/
  dfPixelSize : BitVec 3
  /-- IN, the input buffer -/
  inMem : Memory
  /-- OUT, the output buffer, oldest byte first -/
  out : List Byte
  /-- BYTE_POS; the defilterer's IN_OFF is this register (45_defilter.md rule R426) -/
  bytePos : Nat
  /-- BIT_POS, u3 -/
  bitPos : BitVec 3
  /-- PHASE -/
  phase : Phase
  /-- BFINAL, u1 -/
  bfinal : BitVec 1
  /-- BTYPE, u2 -/
  btype : BitVec 2
  /-- LIT_TREE -/
  litTree : Tree
  /-- DIST_TREE -/
  distTree : Tree
  /-- CLEN_TREE -/
  clenTree : Tree
  /-- HLIT, u9 -/
  hlit : BitVec 9
  /-- HDIST, u6 -/
  hdist : BitVec 6
  /-- HCLEN, u5 -/
  hclen : BitVec 5
  /-- CLEN_LENS[0..18], u3 each -/
  clenLens : Vector (BitVec 3) 19
  /-- LENS[0..319], u4 each -/
  lens : Vector (BitVec 4) 320
  /-- LENS_COUNT, u9 -/
  lensCount : BitVec 9
  /-- STORED_REMAIN, u16 -/
  storedRemain : BitVec 16
  /-- MATCH_LEN, u9 -/
  matchLen : BitVec 9
  /-- MATCH_DIST, u16 -/
  matchDist : BitVec 16
  /-- WIN[0..32767] -/
  win : Memory
  /-- WIN_CUR, u15 -/
  winCur : BitVec 15
  /-- WIN_WRAPPED, u1 -/
  winWrapped : BitVec 1
  /-- ROW_Y, u32 -/
  rowY : BitVec 32
  /-- COL_I -/
  colI : Nat
  /-- FT, u8 -/
  ft : BitVec 8
  /-- PREV_ROW -/
  prevRow : Memory
  /-- CUR_ROW -/
  curRow : Memory
  /-- the model's own: the distance instruction of the length instruction just run comes next (notes/assumptions/1.md) -/
  distNext : Bool
  /-- OUT_CAPACITY, the block's parameter: no bound, or a bound in bytes; nothing writes it (notes/assumptions/3.md) -/
  outCapacity : Option Nat
  /-- the model's own: what the host will do, next move first (notes/assumptions/2.md) -/
  host : List HostMove
  deriving DecidableEq, Repr

/-- What a part of an instruction answers: it goes on with a value, it raises (60_exceptions.md rule R520) with the
state its earlier statements left, or it stops. -/
inductive Res (α : Type) where
  | ok (a : α) (s : State)
  | raise (e : Err) (s : State)
  | stop (f : Fault)
  deriving Repr

/-- What the machine does next: run an instruction its fetch decoded, move on without one, or stop. -/
inductive Action where
  | run (i : Sys2Proof.Instr) (s : State)
  | move (s : State)
  | stop (f : Fault)
  | refuse (r : Refusal)
  deriving Repr

/-- Power-on reset (10_state.md rule R51, 70_reset_and_hazards.md rule R570). -/
def State.reset : State where
  cmd := 0
  status := .idle
  errClass := .none
  errCode := 0
  inLen := 0
  outLen := 0
  dfWidth := 0
  dfHeight := 0
  dfPixelSize := 0
  inMem := []
  out := []
  bytePos := 0
  bitPos := 0
  phase := .idle
  bfinal := 0
  btype := 0
  litTree := .null
  distTree := .null
  clenTree := .null
  hlit := 0
  hdist := 0
  hclen := 0
  clenLens := Vector.replicate 19 0
  lens := Vector.replicate 320 0
  lensCount := 0
  storedRemain := 0
  matchLen := 0
  matchDist := 0
  win := []
  winCur := 0
  winWrapped := 0
  rowY := 0
  colI := 0
  ft := 0
  prevRow := []
  curRow := []
  distNext := false
  outCapacity := Config.defaultOutCapacity
  host := []

end Sys2Proof.Machine
end

