-- ==== Sys2Proof/Machine/Flags.lean ====
section
/-! DEFINITION. The flags (10_state.md rule R36 to rule R39): BFINAL and BTYPE, which a block header sets, and
WIN_WRAPPED, which a window write sets. No other flag exists. -/

namespace Sys2Proof.Machine

/-- BFINAL and BTYPE of a block header (41_block_dispatch.md rule R243). -/
def setHeader (final : BitVec 1) (type : BitVec 2) (s : State) : State :=
  { s with bfinal := final, btype := type }

/-- WIN_WRAPPED after a write at slot cur: set when the cursor passes slot 32767, never cleared by a write
(44_window.md rule R402). -/
def wrappedAfter (cur : BitVec 15) (wrapped : BitVec 1) : BitVec 1 :=
  if cur.toNat = Config.winSize - 1 then 1 else wrapped

end Sys2Proof.Machine
end

