-- ==== Sys2Proof/Machine/Ops.lean ====
section
/-! DEFINITION. The shared operations: sequencing, taking an error (60_exceptions.md rule R528), ending and starting a
command, the input cursor (20_memory.md rule R82 to rule R87), the output buffer (rule R91), the window (44_window.md)
and the code-length array. -/

namespace Sys2Proof.Machine

/-- Statements in order: each sees the effect of every earlier one, and none runs after a raise (00_scope.md rule R14,
rule R16). -/
def Res.bind {α β : Type} (r : Res α) (f : α → State → Res β) : Res β :=
  match r with
  | .ok a s => f a s
  | .raise e s => .raise e s
  | .stop x => .stop x

/-! ## Errors -/

/-- The class of an error (60_exceptions.md rule R521 to rule R523). -/
def Err.errClass : Err → ErrClass
  | .badBlockType => .format
  | .storedLenMismatch => .format
  | .badCodeLengths => .format
  | .invalidCode => .format
  | .emptyTree => .format
  | .repeatWithoutPrevious => .format
  | .codeLengthsOverflow => .format
  | .nullDistanceTree => .format
  | .litlenSymbolRange => .format
  | .distSymbolRange => .format
  | .distanceTooFar => .format
  | .inputExhausted => .format
  | .badFilterType => .format
  | .rowDataShort => .format
  | .zlibHeader => .format
  | .interlace => .unsupported
  | .colorType => .unsupported
  | .bitDepth => .unsupported
  | .compressionMethod => .unsupported
  | .filterMethod => .unsupported
  | .presetDictionary => .unsupported
  | .pixelSize => .unsupported
  | .outputOverflow => .resource

/-- The code of an error (60_exceptions.md rule R521 to rule R523). -/
def Err.code : Err → BitVec 8
  | .badBlockType => 0x01
  | .storedLenMismatch => 0x02
  | .badCodeLengths => 0x03
  | .invalidCode => 0x04
  | .emptyTree => 0x05
  | .repeatWithoutPrevious => 0x06
  | .codeLengthsOverflow => 0x07
  | .nullDistanceTree => 0x08
  | .litlenSymbolRange => 0x09
  | .distSymbolRange => 0x0A
  | .distanceTooFar => 0x0B
  | .inputExhausted => 0x0C
  | .badFilterType => 0x0D
  | .rowDataShort => 0x0E
  | .zlibHeader => 0x0F
  | .interlace => 0x01
  | .colorType => 0x02
  | .bitDepth => 0x03
  | .compressionMethod => 0x04
  | .filterMethod => 0x05
  | .presetDictionary => 0x06
  | .pixelSize => 0x07
  | .outputOverflow => 0x01

/-- The number STATUS reads as (10_state.md rule R40). -/
def Status.bits : Status → BitVec 2
  | .idle => 0
  | .busy => 1
  | .done => 2
  | .error => 3

/-- The number ERR_CLASS reads as (10_state.md rule R40). -/
def ErrClass.bits : ErrClass → BitVec 2
  | .none => 0
  | .format => 1
  | .unsupported => 2
  | .resource => 3

/-- Taking an error: ErrorEntry(C, code), one step; nothing is saved, OUT is emptied, class and code are latched, and
every other register keeps the value it had at the raise (60_exceptions.md rule R528, rule R530). -/
def errorEntry (e : Err) (s : State) : State :=
  { s with phase := .error, out := [], outLen := 0, errClass := e.errClass, errCode := e.code, status := .error }

/-- The end of an instruction: its next state, or the error entry of what it raised (60_exceptions.md rule R520). -/
def Res.finish (r : Res Unit) : Host.Outcome State Fault Refusal :=
  match r with
  | .ok _ s => .next s
  | .raise e s => .next (errorEntry e s)
  | .stop x => .fault x

/-- The command completes (46_host_interface.md rule R472). There is no return from an error: ERROR is left only by a
new command start (60_exceptions.md rule R531). -/
def complete (s : State) : State :=
  { s with phase := .done, status := .done }

/-- Command initialisation (10_state.md rule R52). -/
def initCommand (s : State) : State :=
  { s with
    bytePos := 0, bitPos := 0, out := [], outLen := 0, errClass := .none, errCode := 0,
    litTree := .null, distTree := .null, clenTree := .null,
    win := [], winCur := 0, winWrapped := 0, distNext := false }

/-- The defilterer's part of command initialisation (10_state.md rule R52); IN_OFF is BYTE_POS. -/
def initDefilter (s : State) : State :=
  { s with rowY := 0, colI := 0 }

/-! ## The input cursor -/

/-- The cursor's linear value (10_state.md rule R32). -/
def State.pc (s : State) : Nat := 8 * s.bytePos + s.bitPos.toNat

/-- ReadBit (20_memory.md rule R83). -/
def readBit (s : State) : Res Bool :=
  if s.inLen ≤ s.bytePos then .raise .inputExhausted s
  else
    let b := (Memory.read s.inMem s.bytePos).getLsbD s.bitPos.toNat
    if s.bitPos.toNat + 1 = 8 then .ok b { s with bitPos := 0, bytePos := s.bytePos + 1 }
    else .ok b { s with bitPos := s.bitPos + 1 }

/-- The rest of GetBits: n more bits, the next one being bit i of the result v so far. -/
def getBitsFrom : Nat → Nat → Nat → State → Res Nat
  | 0, _, v, s => .ok v s
  | n + 1, i, v, s => (readBit s).bind fun b s => getBitsFrom n (i + 1) (v ||| (b.toNat <<< i)) s

/-- GetBits(n) (20_memory.md rule R84). -/
def getBits (n : Nat) (s : State) : Res Nat := getBitsFrom n 0 0 s

/-- AlignToByte (20_memory.md rule R85). -/
def alignToByte (s : State) : State :=
  if s.bitPos = 0 then s else { s with bitPos := 0, bytePos := s.bytePos + 1 }

/-- One byte of ReadBytes (20_memory.md rule R86). -/
def readByte (s : State) : Res Byte :=
  if s.inLen ≤ s.bytePos then .raise .inputExhausted s
  else .ok (Memory.read s.inMem s.bytePos) { s with bytePos := s.bytePos + 1 }

/-- Two bytes of ReadBytes as a little-endian 16-bit field (20_memory.md rule R90). -/
def readLe16 (s : State) : Res (BitVec 16) :=
  (readByte s).bind fun r0 s => (readByte s).bind fun r1 s => .ok (r1 ++ r0) s

/-! ## Output and window -/

/-- OutAppend (20_memory.md rule R91, rule R92). -/
def outAppend (b : Byte) (s : State) : Res Unit :=
  if s.outCapacity = some s.outLen then .raise .outputOverflow s
  else .ok () { s with out := s.out ++ [b], outLen := s.outLen + 1 }

/-- WinWrite, the source's AppendByte (44_window.md rule R402). -/
def winWrite (b : Byte) (s : State) : State :=
  { s with
    win := Memory.write s.win s.winCur.toNat b
    winWrapped := wrappedAfter s.winCur s.winWrapped
    winCur := s.winCur + 1 }

/-- AppendData: WinWrite of each byte in order (44_window.md rule R403). -/
def winAppendData : List Byte → State → State
  | [], s => s
  | b :: bs, s => winAppendData bs (winWrite b s)

/-- Emit: OutAppend, then WinWrite (00_scope.md rule R13). -/
def emit (b : Byte) (s : State) : Res Unit :=
  (outAppend b s).bind fun _ s => .ok () (winWrite b s)

/-- The slot d positions behind the cursor, modulo 32768 (44_window.md rule R404). -/
def winSlot (d : BitVec 16) (s : State) : BitVec 15 := s.winCur - d.setWidth 15

/-- WinRead(d) (44_window.md rule R404). -/
def winRead (d : BitVec 16) (s : State) : Byte := Memory.read s.win (winSlot d s).toNat

/-- A back-reference of distance d is valid (44_window.md rule R405). -/
def winValid (d : BitVec 16) (s : State) : Bool :=
  s.winWrapped = 1 ∨ d.toNat ≤ s.winCur.toNat

/-- The copy of n bytes from distance d, one at a time, each read after the writes before it (44_window.md rule R406,
rule R407). -/
def copyBytes (d : BitVec 16) : Nat → State → Res Unit
  | 0, s => .ok () s
  | n + 1, s => (emit (winRead d s) s).bind fun _ s => copyBytes d n s

/-- WriteToObject(d, L) (44_window.md rule R406). -/
def writeToObject (d : BitVec 16) (len : Nat) (s : State) : Res Unit :=
  if winValid d s then copyBytes d len s else .raise .distanceTooFar s

/-! ## The code-length array -/

/-- LENS with entries k .. k+r−1 set to v. -/
def fillLens (ls : Vector (BitVec 4) 320) (v : BitVec 4) : Nat → Nat → Vector (BitVec 4) 320
  | _, 0 => ls
  | k, r + 1 => fillLens (ls.setIfInBounds k v) v (k + 1) r

/-- Append r entries of value v at LENS[LENS_COUNT] (42_dynamic_header.md rule R284). An index past LENS[319] does not
exist (10_state.md rule R31); no run reaches one (notes/assumptions/7.md). -/
def appendLens (r : Nat) (v : BitVec 4) (s : State) : Res Unit :=
  if Config.nLens < s.lensCount.toNat + r then .stop .lensIndex
  else
    .ok () { s with
      lens := fillLens s.lens v s.lensCount.toNat r
      lensCount := BitVec.ofNat 9 (s.lensCount.toNat + r) }

/-- HLIT + HDIST, the number of code lengths of the block (42_dynamic_header.md rule R284). -/
def State.lensTotal (s : State) : Nat := s.hlit.toNat + s.hdist.toNat

/-! ## The command field -/

/-- Starting INFLATE: CMD, initialisation, STATUS, PHASE (46_host_interface.md rule R471, rule R474). -/
def startInflate (s : State) : State :=
  { initCommand { s with cmd := 1 } with status := .busy, phase := .hdr }

/-- Starting DEFILTER: CMD, initialisation, STATUS (46_host_interface.md rule R471, rule R475). -/
def startDefilter (s : State) : State :=
  { initDefilter (initCommand { s with cmd := 2 }) with status := .busy }

/-- A host write of CMD (46_host_interface.md rule R471): with STATUS not BUSY it does what r says; while BUSY the host
has no such move (rule R473, notes/assumptions/6.md). -/
def hostWriteCmd (r : Res Unit) (s : State) : Host.Outcome State Fault Refusal :=
  if s.status = .busy then .refused .cmdWhileBusy else r.finish

/-- A host write of a CMD value that starts nothing: only CMD changes (10_state.md rule R40). -/
def setCmd (v : BitVec 2) (s : State) : State := { s with cmd := v }

end Sys2Proof.Machine
end

