-- ==== Sys2Proof/Machine/Huffman.lean ====
section
/-! DEFINITION. The canonical Huffman tree builder and the bit-serial symbol decoder (40_huffman.md), and the static
trees in ROM (rule R215 to rule R217). -/

namespace Sys2Proof.Machine

/-! ## BuildTree -/

/-- bl_count[len]: how many symbols have code length len (40_huffman.md rule R202). -/
def blCount (lens : List Nat) (len : Nat) : Nat := lens.count len

/-- CheckComplete from length len on, n lengths to go: `left` codes of length len−1 are unassigned
(40_huffman.md rule R203). -/
def checkCompleteFrom (lens : List Nat) : Nat → Nat → Nat → Bool
  | 0, _, left => left == 0
  | n + 1, len, left =>
    if 2 * left < blCount lens len then false
    else checkCompleteFrom lens n (len + 1) (2 * left - blCount lens len)

/-- CheckComplete (40_huffman.md rule R203). -/
def checkComplete (lens : List Nat) (maxLen : Nat) : Bool := checkCompleteFrom lens maxLen 1 1

/-- next_code[len], next_code[len+1], ... for n lengths, where next_code[len−1] was `code` (40_huffman.md rule R202). -/
def nextCodesFrom (lens : List Nat) : Nat → Nat → Nat → List Nat
  | 0, _, _ => []
  | n + 1, len, code =>
    let next := 2 * (code + blCount lens (len - 1))
    next :: nextCodesFrom lens n (len + 1) next

/-- next_code[1 .. maxLen]: the first code of each length (40_huffman.md rule R202). -/
def nextCodes (lens : List Nat) (maxLen : Nat) : List Nat := 0 :: nextCodesFrom lens (maxLen - 1) 2 0

/-- The children of a tree an insertion passes: absent ones are created as needed. -/
def Tree.left : Tree → Tree
  | .node l _ => l
  | _ => .null

/-- The right child; see Tree.left. -/
def Tree.right : Tree → Tree
  | .node _ r => r
  | _ => .null

/-- Insert(t, s, (len, c)): along c's bits from the most significant, left on 0, right on 1 (40_huffman.md rule R202,
rule R206). -/
def Tree.insert (sym code : Nat) : Nat → Tree → Tree
  | 0, _ => .leaf sym
  | n + 1, t =>
    if code.testBit n then .node t.left (Tree.insert sym code n t.right)
    else .node (Tree.insert sym code n t.left) t.right

/-- The loop over the symbols, ascending: the next one is sym (40_huffman.md rule R202). -/
def assignCodes : List Nat → List Nat → Nat → Tree → Tree
  | [], _, _, t => t
  | len :: lens, next, sym, t =>
    if len = 0 then assignCodes lens next (sym + 1) t
    else
      let code := (next[len - 1]?).getD 0
      assignCodes lens (next.set (len - 1) (code + 1)) (sym + 1) (Tree.insert sym code len t)

/-- BuildTree(L, N, MAXLEN): L lists the code lengths of symbols 0 .. N−1 (40_huffman.md rule R200 to rule R205). -/
def buildTree (lens : List Nat) (maxLen : Nat) : Except Err Tree :=
  match lens.filter (fun l => l != 0) with
  | [] => .ok .null
  | [1] => .ok (.leaf (lens.idxOf 1))
  | _ =>
    if checkComplete lens maxLen then
      .ok (assignCodes lens (nextCodes lens maxLen) 0 (.node .null .null))
    else .error .badCodeLengths

/-! ## DecodeSymbol -/

/-- The walk from an inner tree position: the loop of DecodeSymbol (40_huffman.md rule R210). -/
def walkTree : Tree → State → Res Nat
  | .null, s => .raise .invalidCode s
  | .leaf sym, s => .ok sym s
  | .node l r, s => (readBit s).bind fun b s => if b then walkTree r s else walkTree l s

/-- DecodeSymbol(t) (40_huffman.md rule R210, rule R213). -/
def decodeSymbol (t : Tree) (s : State) : Res Nat :=
  match t with
  | .null => .raise .emptyTree s
  | .leaf sym => (readBit s).bind fun _ s => .ok sym s
  | .node _ _ => walkTree t s

/-! ## The static trees -/

/-- The literal/length code lengths of the static blocks (40_huffman.md rule R215). -/
def staticLitLens : List Nat :=
  List.replicate 144 8 ++ List.replicate 112 9 ++ List.replicate 24 7 ++ List.replicate 8 8

/-- The distance code lengths of the static blocks (40_huffman.md rule R215). -/
def staticDistLens : List Nat := List.replicate 32 5

/-- The tree of lengths BuildTree accepts; NULL for ones it rejects, which the ROM's are not (rule R216, rule R217). -/
def romTree (lens : List Nat) : Tree :=
  match buildTree lens Config.maxLenLitDist with
  | .ok t => t
  | .error _ => .null

/-- STATIC_LIT_TREE (40_huffman.md rule R216). -/
@[irreducible] def staticLitTree : Tree := romTree staticLitLens

/-- STATIC_DIST_TREE (40_huffman.md rule R217). -/
@[irreducible] def staticDistTree : Tree := romTree staticDistLens

end Sys2Proof.Machine
end

