-- ==== Sys2Proof/Machine/Operands.lean ====
section
/-! DEFINITION. The operands that follow an instruction's word in the input, and how each is assembled
(30_encoding.md rule R130): counts, repeat counts, match lengths and distances, the code-length lengths. -/

namespace Sys2Proof.Machine

/-- ORDER, the permutation in which the code-length lengths are sent (30_encoding.md rule R124). -/
def clenOrder : List Nat := [16, 17, 18, 0, 8, 7, 9, 6, 10, 5, 11, 4, 12, 3, 13, 2, 14, 1, 15]

/-- HLIT, HDIST and HCLEN, in that order (42_dynamic_header.md rule R281). -/
def readCounts (s : State) : Res Unit :=
  (getBits 5 s).bind fun a s =>
  (getBits 5 { s with hlit := BitVec.ofNat 9 (a + 257) }).bind fun b s =>
  (getBits 4 { s with hdist := BitVec.ofNat 6 (b + 1) }).bind fun c s =>
  .ok () { s with hclen := BitVec.ofNat 5 (c + 4) }

/-- The 3-bit lengths of the listed code-length symbols, in order (42_dynamic_header.md rule R282). -/
def readClenLens : List Nat → State → Res Unit
  | [], s => .ok () s
  | sym :: syms, s =>
    (getBits 3 s).bind fun v s =>
    readClenLens syms { s with clenLens := s.clenLens.setIfInBounds sym (BitVec.ofNat 3 v) }

/-- A run's count: base plus an n-bit field (30_encoding.md rule R130). -/
def readRepeat (base n : Nat) (s : State) : Res Nat :=
  (getBits n s).bind fun e s => .ok (base + e) s

/-- MATCH_LEN of length symbol sym (43_symbol_loop.md rule R324, rule R325). -/
def readMatchLen (sym : Nat) (s : State) : Res Unit :=
  (getBits (lext sym) s).bind fun e s => .ok () { s with matchLen := BitVec.ofNat 9 (lbase sym + e) }

/-- MATCH_DIST of distance symbol sym (43_symbol_loop.md rule R327, rule R328). -/
def readMatchDist (sym : Nat) (s : State) : Res Unit :=
  (getBits (dext sym) s).bind fun e s => .ok () { s with matchDist := BitVec.ofNat 16 (dbase sym + e) }

end Sys2Proof.Machine
end

