-- ==== Sys2Proof/Machine/Block.lean ====
section
/-! DEFINITION. The block-header instructions (41_block_dispatch.md, 42_dynamic_header.md rule R280) and the two ends
of a block's parts that are no instruction: the trees of a dynamic block and the block end. -/

namespace Sys2Proof.Machine

/-- The copy of n stored bytes to OUT and WIN (41_block_dispatch.md rule R245, rule R247). -/
def copyStored : Nat → State → Res Unit
  | 0, s => .ok () s
  | n + 1, s =>
    (readByte s).bind fun b s =>
    (emit b s).bind fun _ s =>
    copyStored n { s with storedRemain := s.storedRemain - 1 }

/-- StoredBlock (41_block_dispatch.md rule R245 to rule R248). -/
def storedBlock (s : State) : Res Unit :=
  (readLe16 (alignToByte s)).bind fun len s =>
  (readLe16 s).bind fun nlen s =>
  if nlen ≠ len ^^^ 0xFFFF then .raise .storedLenMismatch s
  else
    (copyStored len.toNat { s with storedRemain := len }).bind fun _ s =>
    .ok () { s with phase := .blockEnd }

/-- CLEN_TREE, or the target unchanged where BuildTree raises (42_dynamic_header.md rule R283, 40_huffman.md
rule R209). -/
def buildClenTree (s : State) : Res Unit :=
  match buildTree (s.clenLens.toList.map BitVec.toNat) Config.maxLenCLen with
  | .ok t => .ok () { s with clenTree := t }
  | .error e => .raise e s

/-- DynamicHeader up to its code-length loop (42_dynamic_header.md rule R280 to rule R283). -/
def dynamicHeader (s : State) : Res Unit :=
  (readCounts s).bind fun _ s =>
  (readClenLens (clenOrder.take s.hclen.toNat) { s with clenLens := Vector.replicate 19 0 }).bind fun _ s =>
  (buildClenTree s).bind fun _ s =>
  .ok () { s with phase := .dynLens, lensCount := 0 }

/-- The end of the code-length loop: LIT_TREE, then DIST_TREE, then the symbol loop (42_dynamic_header.md rule R293).
The slices must lie in LENS (notes/assumptions/7.md). -/
def buildTrees (s : State) : Res Unit :=
  if Config.nLens < s.lensTotal then .stop .lensIndex
  else
    let ls := s.lens.toList.map BitVec.toNat
    match buildTree (ls.take s.hlit.toNat) Config.maxLenLitDist with
    | .error e => .raise e s
    | .ok lit =>
      match buildTree ((ls.drop s.hlit.toNat).take s.hdist.toNat) Config.maxLenLitDist with
      | .error e => .raise e { s with litTree := lit }
      | .ok dist => .ok () { s with litTree := lit, distTree := dist, phase := .symbols, distNext := false }

/-- Block end (41_block_dispatch.md rule R256). -/
def blockEnd (s : State) : State :=
  if s.bfinal = 1 then complete s else { s with phase := .hdr }

/-- BLK_STORED (41_block_dispatch.md rule R245). -/
def execBlkStored (final : BitVec 1) (s : State) : Host.Outcome State Fault Refusal :=
  (storedBlock { setHeader final 0 s with phase := .stored }).finish

/-- BLK_STATIC (41_block_dispatch.md rule R252). -/
def execBlkStatic (final : BitVec 1) (s : State) : Host.Outcome State Fault Refusal :=
  .next { setHeader final 1 s with
    litTree := staticLitTree, distTree := staticDistTree, phase := .symbols, distNext := false }

/-- BLK_DYNAMIC (42_dynamic_header.md rule R280). -/
def execBlkDynamic (final : BitVec 1) (s : State) : Host.Outcome State Fault Refusal :=
  (dynamicHeader { setHeader final 2 s with phase := .dynHdr }).finish

/-- BLK_RESERVED (41_block_dispatch.md rule R255). -/
def execBlkReserved (final : BitVec 1) (s : State) : Host.Outcome State Fault Refusal :=
  .next (errorEntry .badBlockType (setHeader final 3 s))

end Sys2Proof.Machine
end

