-- ==== Sys2Proof/Machine/CodeLen.lean ====
section
/-! DEFINITION. The code-length instructions (42_dynamic_header.md rule R285 to rule R292). -/

namespace Sys2Proof.Machine

/-- A run of r lengths v, after its extra bits: the total check, then the entries (42_dynamic_header.md rule R289). -/
def lensRun (r : Nat) (v : State → BitVec 4) (s : State) : Res Unit :=
  if s.lensTotal < s.lensCount.toNat + r then .raise .codeLengthsOverflow s
  else appendLens r (v s) s

/-- LENS[LENS_COUNT − 1], the entry before the run, whatever wrote it (42_dynamic_header.md rule R291). -/
def previousLen (s : State) : BitVec 4 := (s.lens[s.lensCount.toNat - 1]?).getD 0

/-- CL_LEN (42_dynamic_header.md rule R285). -/
def execClLen (v : BitVec 4) (s : State) : Host.Outcome State Fault Refusal :=
  (appendLens 1 v s).finish

/-- CL_REP (42_dynamic_header.md rule R286). -/
def execClRep (s : State) : Host.Outcome State Fault Refusal :=
  if s.lensCount = 0 then .next (errorEntry .repeatWithoutPrevious s)
  else ((readRepeat 3 2 s).bind fun r s => lensRun r previousLen s).finish

/-- CL_ZERO3 (42_dynamic_header.md rule R287). -/
def execClZero3 (s : State) : Host.Outcome State Fault Refusal :=
  ((readRepeat 3 3 s).bind fun r s => lensRun r (fun _ => 0) s).finish

/-- CL_ZERO11 (42_dynamic_header.md rule R288). -/
def execClZero11 (s : State) : Host.Outcome State Fault Refusal :=
  ((readRepeat 11 7 s).bind fun r s => lensRun r (fun _ => 0) s).finish

end Sys2Proof.Machine
end

