-- ==== Sys2Proof/Machine/Filter.lean ====
section
/-! DEFINITION. The scanline defilterer (45_defilter.md): the predictors, the row loop and the filter instructions. -/

namespace Sys2Proof.Machine

/-- RB, the row length in bytes (45_defilter.md rule R420). -/
def State.rowBytes (s : State) : Nat := s.dfWidth.toNat * s.dfPixelSize.toNat

/-- PaethPredictor(a, b, c), in signed integers (45_defilter.md rule R432). -/
def paethPredictor (a b c : Byte) : Byte :=
  let p : Int := (a.toNat : Int) + b.toNat - c.toNat
  let pa := (p - a.toNat).natAbs
  let pb := (p - b.toNat).natAbs
  let pc := (p - c.toNat).natAbs
  if pa ≤ pb ∧ pa ≤ pc then a else if pb ≤ pc then b else c

/-- floor((a + b) / 2), the sum unreduced (45_defilter.md rule R430). -/
def averagePredictor (a b : Byte) : Byte := BitVec.ofNat 8 ((a.toNat + b.toNat) / 2)

/-- The left neighbour a of row byte i (45_defilter.md rule R425). -/
def neighbourA (i : Nat) (s : State) : Byte :=
  if s.dfPixelSize.toNat ≤ i then Memory.read s.curRow (i - s.dfPixelSize.toNat) else 0

/-- The upper neighbour b of row byte i (45_defilter.md rule R425). -/
def neighbourB (i : Nat) (s : State) : Byte :=
  if 1 ≤ s.rowY.toNat then Memory.read s.prevRow i else 0

/-- The upper left neighbour c of row byte i (45_defilter.md rule R425). -/
def neighbourC (i : Nat) (s : State) : Byte :=
  if s.dfPixelSize.toNat ≤ i ∧ 1 ≤ s.rowY.toNat then Memory.read s.prevRow (i - s.dfPixelSize.toNat) else 0

/-- n bytes of a row from index i on, pred being Pred of the row's filter type (45_defilter.md rule R420). -/
def filterBytes (pred : Byte → Byte → Byte → Byte) : Nat → Nat → State → Res Unit
  | 0, _, s => .ok () s
  | n + 1, i, s =>
    (readByte { s with colI := i }).bind fun f s =>
    let x := f + pred (neighbourA i s) (neighbourB i s) (neighbourC i s)
    (outAppend x { s with curRow := Memory.write s.curRow i x }).bind fun _ s =>
    filterBytes pred n (i + 1) s

/-- The end of a row: PREV_ROW, and the next row or the end of the command (45_defilter.md rule R420, rule R435;
notes/assumptions/21.md). -/
def rowEnd (s : State) : State :=
  let s := { s with prevRow := s.curRow }
  if s.rowY.toNat + 1 < s.dfHeight.toNat then { s with rowY := s.rowY + 1 } else complete s

/-- One row of filter type ft (45_defilter.md rule R420, rule R426). -/
def filterRow (ft : BitVec 8) (pred : Byte → Byte → Byte → Byte) (s : State) : Res Unit :=
  (filterBytes pred s.rowBytes 0 { s with ft := ft }).bind fun _ s => .ok () (rowEnd s)

/-- FILT_NONE (45_defilter.md rule R427). -/
def execFiltNone (s : State) : Host.Outcome State Fault Refusal :=
  (filterRow 0 (fun _ _ _ => 0) s).finish

/-- FILT_SUB (45_defilter.md rule R428). -/
def execFiltSub (s : State) : Host.Outcome State Fault Refusal :=
  (filterRow 1 (fun a _ _ => a) s).finish

/-- FILT_UP (45_defilter.md rule R429). -/
def execFiltUp (s : State) : Host.Outcome State Fault Refusal :=
  (filterRow 2 (fun _ b _ => b) s).finish

/-- FILT_AVG (45_defilter.md rule R430). -/
def execFiltAvg (s : State) : Host.Outcome State Fault Refusal :=
  (filterRow 3 (fun a b _ => averagePredictor a b) s).finish

/-- FILT_PAETH (45_defilter.md rule R431). -/
def execFiltPaeth (s : State) : Host.Outcome State Fault Refusal :=
  (filterRow 4 paethPredictor s).finish

/-- FILT_RESERVED (45_defilter.md rule R433). -/
def execFiltReserved (ft : Byte) (s : State) : Host.Outcome State Fault Refusal :=
  .next (errorEntry .badFilterType { s with ft := ft })

end Sys2Proof.Machine
end

