-- ==== Sys2Proof/Machine/Command.lean ====
section
/-! DEFINITION. The command instructions, the values a host write of CMD can have (46_host_interface.md rule R471,
rule R474, rule R475; 30_encoding.md rule R137). -/

namespace Sys2Proof.Machine

/-- The checks DEFILTER makes before its first row (45_defilter.md rule R421, rule R422), then PHASE. -/
def defilterChecks (s : State) : Res Unit :=
  if s.dfPixelSize.toNat ≠ 3 ∧ s.dfPixelSize.toNat ≠ 4 then .raise .pixelSize s
  else if s.inLen < s.dfHeight.toNat * (1 + s.rowBytes) then .raise .rowDataShort s
  else .ok () { s with phase := .dfRow }

/-- CMD_NONE (46_host_interface.md rule R471). -/
def execCmdNone (s : State) : Host.Outcome State Fault Refusal := hostWriteCmd (.ok () (setCmd 0 s)) s

/-- CMD_INFLATE (46_host_interface.md rule R474). -/
def execCmdInflate (s : State) : Host.Outcome State Fault Refusal := hostWriteCmd (.ok () (startInflate s)) s

/-- CMD_DEFILTER (46_host_interface.md rule R475). -/
def execCmdDefilter (s : State) : Host.Outcome State Fault Refusal :=
  hostWriteCmd (defilterChecks (startDefilter s)) s

/-- CMD_RESERVED (46_host_interface.md rule R471). -/
def execCmdReserved (s : State) : Host.Outcome State Fault Refusal := hostWriteCmd (.ok () (setCmd 3 s)) s

end Sys2Proof.Machine
end

