-- ==== Sys2Proof/Machine/Distance.lean ====
section
/-! DEFINITION. The distance instructions (43_symbol_loop.md rule R329, rule R370 to rule R399, rule R333, rule R334),
each the operand of the length instruction before it. -/

namespace Sys2Proof.Machine

/-- BackRef from its distance symbol on: MATCH_DIST, then WriteToObject(MATCH_DIST, MATCH_LEN) (43_symbol_loop.md
rule R323, section 7; 44_window.md rule R406). -/
def backRefDistance (sym : Nat) (s : State) : Res Unit :=
  (readMatchDist sym { s with distNext := false }).bind fun _ s => writeToObject s.matchDist s.matchLen.toNat s

/-- A reserved distance symbol (43_symbol_loop.md rule R333, rule R334). -/
def distRange (s : State) : State := errorEntry .distSymbolRange { s with distNext := false }

/-- DIST0 (43_symbol_loop.md rule R370). -/
def execDist0 (s : State) : Host.Outcome State Fault Refusal := (backRefDistance 0 s).finish

/-- DIST1 (43_symbol_loop.md rule R371). -/
def execDist1 (s : State) : Host.Outcome State Fault Refusal := (backRefDistance 1 s).finish

/-- DIST2 (43_symbol_loop.md rule R372). -/
def execDist2 (s : State) : Host.Outcome State Fault Refusal := (backRefDistance 2 s).finish

/-- DIST3 (43_symbol_loop.md rule R373). -/
def execDist3 (s : State) : Host.Outcome State Fault Refusal := (backRefDistance 3 s).finish

/-- DIST4 (43_symbol_loop.md rule R374). -/
def execDist4 (s : State) : Host.Outcome State Fault Refusal := (backRefDistance 4 s).finish

/-- DIST5 (43_symbol_loop.md rule R375). -/
def execDist5 (s : State) : Host.Outcome State Fault Refusal := (backRefDistance 5 s).finish

/-- DIST6 (43_symbol_loop.md rule R376). -/
def execDist6 (s : State) : Host.Outcome State Fault Refusal := (backRefDistance 6 s).finish

/-- DIST7 (43_symbol_loop.md rule R377). -/
def execDist7 (s : State) : Host.Outcome State Fault Refusal := (backRefDistance 7 s).finish

/-- DIST8 (43_symbol_loop.md rule R378). -/
def execDist8 (s : State) : Host.Outcome State Fault Refusal := (backRefDistance 8 s).finish

/-- DIST9 (43_symbol_loop.md rule R379). -/
def execDist9 (s : State) : Host.Outcome State Fault Refusal := (backRefDistance 9 s).finish

/-- DIST10 (43_symbol_loop.md rule R380). -/
def execDist10 (s : State) : Host.Outcome State Fault Refusal := (backRefDistance 10 s).finish

/-- DIST11 (43_symbol_loop.md rule R381). -/
def execDist11 (s : State) : Host.Outcome State Fault Refusal := (backRefDistance 11 s).finish

/-- DIST12 (43_symbol_loop.md rule R382). -/
def execDist12 (s : State) : Host.Outcome State Fault Refusal := (backRefDistance 12 s).finish

/-- DIST13 (43_symbol_loop.md rule R383). -/
def execDist13 (s : State) : Host.Outcome State Fault Refusal := (backRefDistance 13 s).finish

/-- DIST14 (43_symbol_loop.md rule R384). -/
def execDist14 (s : State) : Host.Outcome State Fault Refusal := (backRefDistance 14 s).finish

/-- DIST15 (43_symbol_loop.md rule R385). -/
def execDist15 (s : State) : Host.Outcome State Fault Refusal := (backRefDistance 15 s).finish

/-- DIST16 (43_symbol_loop.md rule R386). -/
def execDist16 (s : State) : Host.Outcome State Fault Refusal := (backRefDistance 16 s).finish

/-- DIST17 (43_symbol_loop.md rule R387). -/
def execDist17 (s : State) : Host.Outcome State Fault Refusal := (backRefDistance 17 s).finish

/-- DIST18 (43_symbol_loop.md rule R388). -/
def execDist18 (s : State) : Host.Outcome State Fault Refusal := (backRefDistance 18 s).finish

/-- DIST19 (43_symbol_loop.md rule R389). -/
def execDist19 (s : State) : Host.Outcome State Fault Refusal := (backRefDistance 19 s).finish

/-- DIST20 (43_symbol_loop.md rule R390). -/
def execDist20 (s : State) : Host.Outcome State Fault Refusal := (backRefDistance 20 s).finish

/-- DIST21 (43_symbol_loop.md rule R391). -/
def execDist21 (s : State) : Host.Outcome State Fault Refusal := (backRefDistance 21 s).finish

/-- DIST22 (43_symbol_loop.md rule R392). -/
def execDist22 (s : State) : Host.Outcome State Fault Refusal := (backRefDistance 22 s).finish

/-- DIST23 (43_symbol_loop.md rule R393). -/
def execDist23 (s : State) : Host.Outcome State Fault Refusal := (backRefDistance 23 s).finish

/-- DIST24 (43_symbol_loop.md rule R394). -/
def execDist24 (s : State) : Host.Outcome State Fault Refusal := (backRefDistance 24 s).finish

/-- DIST25 (43_symbol_loop.md rule R395). -/
def execDist25 (s : State) : Host.Outcome State Fault Refusal := (backRefDistance 25 s).finish

/-- DIST26 (43_symbol_loop.md rule R396). -/
def execDist26 (s : State) : Host.Outcome State Fault Refusal := (backRefDistance 26 s).finish

/-- DIST27 (43_symbol_loop.md rule R397). -/
def execDist27 (s : State) : Host.Outcome State Fault Refusal := (backRefDistance 27 s).finish

/-- DIST28 (43_symbol_loop.md rule R398). -/
def execDist28 (s : State) : Host.Outcome State Fault Refusal := (backRefDistance 28 s).finish

/-- DIST29 (43_symbol_loop.md rule R399). -/
def execDist29 (s : State) : Host.Outcome State Fault Refusal := (backRefDistance 29 s).finish

/-- DIST_RSV30 (43_symbol_loop.md rule R333). -/
def execDistRsv30 (s : State) : Host.Outcome State Fault Refusal := .next (distRange s)

/-- DIST_RSV31 (43_symbol_loop.md rule R334). -/
def execDistRsv31 (s : State) : Host.Outcome State Fault Refusal := .next (distRange s)

end Sys2Proof.Machine
end

