-- ==== Sys2Proof/Machine/Symbol.lean ====
section
/-! DEFINITION. The literal/length instructions (43_symbol_loop.md): LIT, EOB, LEN257 .. LEN285 and the reserved
symbols. -/

namespace Sys2Proof.Machine

/-- LIT (43_symbol_loop.md rule R320). -/
def execLit (b : Byte) (s : State) : Host.Outcome State Fault Refusal := (emit b s).finish

/-- EOB (43_symbol_loop.md rule R321). -/
def execEob (s : State) : Host.Outcome State Fault Refusal := .next { s with phase := .blockEnd }

/-- BackRef(sym) up to its distance instruction: the null check before any extra bit, then MATCH_LEN
(43_symbol_loop.md rule R323, rule R326). The distance instruction that always follows (rule R329) is the machine's
next step and makes the copy (notes/assumptions/1.md). -/
def backRefLength (sym : Nat) (s : State) : Res Unit :=
  if s.distTree = .null then .raise .nullDistanceTree s
  else (readMatchLen sym s).bind fun _ s => .ok () { s with distNext := true }

/-- A reserved literal/length symbol (43_symbol_loop.md rule R331, rule R332). -/
def litlenRange (s : State) : State := errorEntry .litlenSymbolRange s

/-- LEN257 (43_symbol_loop.md rule R340). -/
def execLen257 (s : State) : Host.Outcome State Fault Refusal := (backRefLength 257 s).finish

/-- LEN258 (43_symbol_loop.md rule R341). -/
def execLen258 (s : State) : Host.Outcome State Fault Refusal := (backRefLength 258 s).finish

/-- LEN259 (43_symbol_loop.md rule R342). -/
def execLen259 (s : State) : Host.Outcome State Fault Refusal := (backRefLength 259 s).finish

/-- LEN260 (43_symbol_loop.md rule R343). -/
def execLen260 (s : State) : Host.Outcome State Fault Refusal := (backRefLength 260 s).finish

/-- LEN261 (43_symbol_loop.md rule R344). -/
def execLen261 (s : State) : Host.Outcome State Fault Refusal := (backRefLength 261 s).finish

/-- LEN262 (43_symbol_loop.md rule R345). -/
def execLen262 (s : State) : Host.Outcome State Fault Refusal := (backRefLength 262 s).finish

/-- LEN263 (43_symbol_loop.md rule R346). -/
def execLen263 (s : State) : Host.Outcome State Fault Refusal := (backRefLength 263 s).finish

/-- LEN264 (43_symbol_loop.md rule R347). -/
def execLen264 (s : State) : Host.Outcome State Fault Refusal := (backRefLength 264 s).finish

/-- LEN265 (43_symbol_loop.md rule R348). -/
def execLen265 (s : State) : Host.Outcome State Fault Refusal := (backRefLength 265 s).finish

/-- LEN266 (43_symbol_loop.md rule R349). -/
def execLen266 (s : State) : Host.Outcome State Fault Refusal := (backRefLength 266 s).finish

/-- LEN267 (43_symbol_loop.md rule R350). -/
def execLen267 (s : State) : Host.Outcome State Fault Refusal := (backRefLength 267 s).finish

/-- LEN268 (43_symbol_loop.md rule R351). -/
def execLen268 (s : State) : Host.Outcome State Fault Refusal := (backRefLength 268 s).finish

/-- LEN269 (43_symbol_loop.md rule R352). -/
def execLen269 (s : State) : Host.Outcome State Fault Refusal := (backRefLength 269 s).finish

/-- LEN270 (43_symbol_loop.md rule R353). -/
def execLen270 (s : State) : Host.Outcome State Fault Refusal := (backRefLength 270 s).finish

/-- LEN271 (43_symbol_loop.md rule R354). -/
def execLen271 (s : State) : Host.Outcome State Fault Refusal := (backRefLength 271 s).finish

/-- LEN272 (43_symbol_loop.md rule R355). -/
def execLen272 (s : State) : Host.Outcome State Fault Refusal := (backRefLength 272 s).finish

/-- LEN273 (43_symbol_loop.md rule R356). -/
def execLen273 (s : State) : Host.Outcome State Fault Refusal := (backRefLength 273 s).finish

/-- LEN274 (43_symbol_loop.md rule R357). -/
def execLen274 (s : State) : Host.Outcome State Fault Refusal := (backRefLength 274 s).finish

/-- LEN275 (43_symbol_loop.md rule R358). -/
def execLen275 (s : State) : Host.Outcome State Fault Refusal := (backRefLength 275 s).finish

/-- LEN276 (43_symbol_loop.md rule R359). -/
def execLen276 (s : State) : Host.Outcome State Fault Refusal := (backRefLength 276 s).finish

/-- LEN277 (43_symbol_loop.md rule R360). -/
def execLen277 (s : State) : Host.Outcome State Fault Refusal := (backRefLength 277 s).finish

/-- LEN278 (43_symbol_loop.md rule R361). -/
def execLen278 (s : State) : Host.Outcome State Fault Refusal := (backRefLength 278 s).finish

/-- LEN279 (43_symbol_loop.md rule R362). -/
def execLen279 (s : State) : Host.Outcome State Fault Refusal := (backRefLength 279 s).finish

/-- LEN280 (43_symbol_loop.md rule R363). -/
def execLen280 (s : State) : Host.Outcome State Fault Refusal := (backRefLength 280 s).finish

/-- LEN281 (43_symbol_loop.md rule R364). -/
def execLen281 (s : State) : Host.Outcome State Fault Refusal := (backRefLength 281 s).finish

/-- LEN282 (43_symbol_loop.md rule R365). -/
def execLen282 (s : State) : Host.Outcome State Fault Refusal := (backRefLength 282 s).finish

/-- LEN283 (43_symbol_loop.md rule R366). -/
def execLen283 (s : State) : Host.Outcome State Fault Refusal := (backRefLength 283 s).finish

/-- LEN284 (43_symbol_loop.md rule R367). -/
def execLen284 (s : State) : Host.Outcome State Fault Refusal := (backRefLength 284 s).finish

/-- LEN285 (43_symbol_loop.md rule R368). -/
def execLen285 (s : State) : Host.Outcome State Fault Refusal := (backRefLength 285 s).finish

/-- LIT_RSV286 (43_symbol_loop.md rule R331). -/
def execLitRsv286 (s : State) : Host.Outcome State Fault Refusal := .next (litlenRange s)

/-- LIT_RSV287 (43_symbol_loop.md rule R332). -/
def execLitRsv287 (s : State) : Host.Outcome State Fault Refusal := .next (litlenRange s)

end Sys2Proof.Machine
end

