-- ==== Sys2Proof/Machine/Fetch.lean ====
section
/-! DEFINITION. What the machine does next. While STATUS is BUSY the engine reads its next instruction from the input,
in the format PHASE selects (41_block_dispatch.md rule R240), or makes the transition of a phase that reads none.
Otherwise the host's next move acts (46_host_interface.md rule R471, rule R479). -/

namespace Sys2Proof.Machine

/-- The action of a part that ends without an instruction: its state, or the error entry of what it raised. -/
def Res.action (r : Res Unit) : Action :=
  match r with
  | .ok _ s => .move s
  | .raise e s => .move (errorEntry e s)
  | .stop f => .stop f

/-- Run what a field's value decodes to; a value the format does not have is refused by name. -/
def decoded (f : Format) (w : Nat) (s : State) : Action :=
  match decode f w with
  | .ok i => .run i s
  | .error _ => .refuse .noSuchSymbol

/-- Fetch a field's value, then decode it; an error of the fetch aborts the command (60_exceptions.md rule R520). -/
def fetched (f : Format) (r : Res Nat) : Action :=
  match r with
  | .ok w s => decoded f w s
  | .raise e s => .move (errorEntry e s)
  | .stop x => .stop x

/-- BlockHeader: BFINAL, then BTYPE; the answer is the header value h (41_block_dispatch.md rule R243, 30_encoding.md
rule R121). -/
def fetchHeader (s : State) : Res Nat :=
  (readBit s).bind fun b s =>
  (getBits 2 { s with bfinal := BitVec.ofBool b }).bind fun t s =>
  .ok (2 * t + b.toNat) { s with btype := BitVec.ofNat 2 t }

/-- The filter-type byte FT of row ROW_Y (45_defilter.md rule R426). -/
def fetchRow (s : State) : Res Nat :=
  (readByte s).bind fun b s => .ok b.toNat { s with ft := b }

/-- The engine's next action, STATUS being BUSY. -/
def engineAction (s : State) : Action :=
  match s.phase with
  | .hdr => fetched .hdr (fetchHeader s)
  | .stored => (storedBlock s).action
  | .dynHdr => (dynamicHeader s).action
  | .dynLens =>
    if s.lensCount.toNat < s.lensTotal then fetched .clsym (decodeSymbol s.clenTree s)
    else (buildTrees s).action
  | .symbols =>
    if s.distNext then fetched .distsym (decodeSymbol s.distTree s)
    else fetched .litsym (decodeSymbol s.litTree s)
  | .blockEnd => .move (blockEnd s)
  | .dfRow =>
    if s.rowY.toNat < s.dfHeight.toNat then fetched .row (fetchRow s)
    else .move (complete s)
  | .idle => .stop .noTransition
  | .done => .stop .noTransition
  | .error => .stop .noTransition

/-- Power-on reset: every field at its reset value, but the block's parameter and the host's further moves
(70_reset_and_hazards.md rule R570, rule R572). -/
def powerOn (rest : List HostMove) (s : State) : State :=
  { State.reset with outCapacity := s.outCapacity, host := rest }

/-- A move of the host, STATUS not being BUSY (46_host_interface.md rule R470, rule R471, rule R479, rule R486). -/
def hostAction (m : HostMove) (s : State) : Action :=
  match m with
  | .writeIn start bytes => .move { s with inMem := Memory.writeBytes s.inMem start bytes }
  | .writeInLen n => .move { s with inLen := n }
  | .writeWidth v => .move { s with dfWidth := v }
  | .writeHeight v => .move { s with dfHeight := v }
  | .writePixelSize v => .move { s with dfPixelSize := v }
  | .writeCmd v => decoded .cmd v.toNat s
  | .writeReadOnly _ _ => .move s
  | .loadOut =>
    if s.status = .done then .move { s with inMem := Memory.writeBytes [] 0 s.out, inLen := s.outLen }
    else .refuse .outNotReadable
  | .wait => .move s
  | .reset => .move (powerOn s.host s)

/-- The moves besides a reset that the host may make while a command runs: they change nothing, so the engine goes on
(46_host_interface.md rule R479; a write of a read-only field is ignored, 10_state.md rule R40). -/
def HostMove.isPassive : HostMove → Bool
  | .wait => true
  | .writeReadOnly _ _ => true
  | .writeIn _ _ => false
  | .writeInLen _ => false
  | .writeWidth _ => false
  | .writeHeight _ => false
  | .writePixelSize _ => false
  | .writeCmd _ => false
  | .loadOut => false
  | .reset => false

/-- The next action of the whole machine: a reset acts at once; while a command runs a passive move passes with a step
of the engine, and the host makes any other after the command's end (46_host_interface.md rule R473, rule R479); with
no move left an idle block stays as it is (60_exceptions.md rule R539). -/
def nextAction (s : State) : Action :=
  match s.host with
  | [] => if s.status = .busy then engineAction s else .move s
  | m :: rest =>
    if m = .reset then .move (powerOn rest s)
    else if s.status = .busy then
      if m.isPassive then engineAction { s with host := rest } else engineAction s
    else hostAction m { s with host := rest }

end Sys2Proof.Machine
end

