-- ==== Sys2Proof/Machine/Step.lean ====
section
/-! DEFINITION. One step of the machine, and the state whose next step runs a given word of the opcode table. -/

namespace Sys2Proof.Machine

/-- The outcome of an action: for an instruction, its meaning. -/
def Action.outcome : Action → Host.Outcome State Fault Refusal
  | .run i s => exec i s
  | .move s => .next s
  | .stop f => .fault f
  | .refuse r => .refused r

/-- One step: the next action, carried out. -/
def step (s : State) : Host.Outcome State Fault Refusal := (nextAction s).outcome

/-- s with the table word w of nbits bits placed where the next step fetches its instruction
(notes/assumptions/28.md): a command word is the host's next move; any other word is the next input of a running
command, in the phase whose format it has, with the input's later bits 0 and, for a symbol, with the one-symbol tree
whose every code is it. -/
def State.withFetchWord (s : State) (nbits w : Nat) : State :=
  match tableFormat nbits w with
  | none => s
  | some f =>
    let v := tableValue f w
    let run : State :=
      { s with status := .busy, host := [], bytePos := 0, bitPos := 0, inLen := 64, inMem := [] }
    match f with
    | .hdr => { run with phase := .hdr, inMem := Memory.writeBytes [] 0 [BitVec.ofNat 8 v] }
    | .clsym => { run with phase := .dynLens, clenTree := .leaf v, hlit := 257, hdist := 1, lensCount := 0 }
    | .litsym => { run with phase := .symbols, distNext := false, litTree := .leaf v }
    | .distsym => { run with phase := .symbols, distNext := true, distTree := .leaf v }
    | .row =>
      { run with phase := .dfRow, rowY := 0, dfHeight := 1, inMem := Memory.writeBytes [] 0 [BitVec.ofNat 8 v] }
    | .cmd => { s with status := .idle, host := [.writeCmd (BitVec.ofNat 2 v)] }

end Sys2Proof.Machine
end

