-- ==== Sys2Proof/Machine/Boundary.lean ====
section
/-! DEFINITION. The boundary with the collaborators outside the block: the checks of the IHDR fields and of the zlib
header, which the collaborator applies before it loads IN (46_host_interface.md rule R476, rule R477), and what the
host sees of the block (rule R470, rule R482; 20_memory.md rule R100). No step runs the checks
(notes/assumptions/17.md). -/

namespace Sys2Proof.Machine

/-- The collaborator's IHDR checks, in the table's order; the answer is DF_PIXEL_SIZE (46_host_interface.md
rule R476). -/
def ihdrCheck (compression filter interlace depth color : Byte) : Except Err (BitVec 3) :=
  if compression ≠ 0 then .error .compressionMethod
  else if filter ≠ 0 then .error .filterMethod
  else if interlace ≠ 0 then .error .interlace
  else if depth ≠ 8 then .error .bitDepth
  else if color = 2 then .ok 3
  else if color = 6 then .ok 4
  else .error .colorType

/-- The checks of the two zlib header bytes (46_host_interface.md rule R477). -/
def zlibHeaderCheck (cmf flg : Byte) : Option Err :=
  if cmf.toNat % 16 ≠ 8 then some .compressionMethod
  else if 7 < cmf.toNat / 16 then some .zlibHeader
  else if (cmf.toNat * 256 + flg.toNat) % 31 ≠ 0 then some .zlibHeader
  else if flg.getLsbD 5 then some .presetDictionary
  else none

/-- ZlibHeader: the bytes IN is loaded with, from the concatenated IDAT data (46_host_interface.md rule R477). -/
def zlibHeader : List Byte → Except Err (List Byte)
  | cmf :: flg :: rest =>
    match zlibHeaderCheck cmf flg with
    | some e => .error e
    | none => .ok rest
  | _ => .error .zlibHeader

/-- What the host reads from OUT: its bytes when STATUS is DONE, and no value otherwise (20_memory.md rule R100,
46_host_interface.md rule R470). -/
def hostReadOut (s : State) : Option (List Byte) := if s.status = .done then some s.out else none

/-- The observation at the end of a run: (STATUS, ERR_CLASS, ERR_CODE, OUT_LEN, OUT) once STATUS is DONE or ERROR
(46_host_interface.md rule R482). -/
def observe (s : State) : Option (Status × ErrClass × BitVec 8 × Nat × List Byte) :=
  if s.status = .done ∨ s.status = .error then some (s.status, s.errClass, s.errCode, s.outLen, s.out) else none

end Sys2Proof.Machine
end

