-- ==== Sys2Proof/Safety.lean ====
section
/-! DEFINITION. What the claims are stated with: the input as a bit sequence (20_memory.md rule R81), the states that
have enough input or output room, what a run of emitted bytes leaves, the bytes a back-reference copies
(44_window.md rule R407), the rows of the defilterer as lists (45_defilter.md rule R420, rule R437), the invariants of
the machine and the measure every running step lowers (46_host_interface.md rule R484). -/

namespace Sys2Proof.Machine

/-! ## The input as bits -/

/-- Stream bit k: bit k mod 8 of input byte k div 8 (20_memory.md rule R81). -/
def State.bitAt (s : State) (k : Nat) : Bool := (Memory.read s.inMem (k / 8)).getLsbD (k % 8)

/-- Stream bits k .. k+n−1, in stream order. -/
def State.bitsAt (s : State) : Nat → Nat → Bits
  | _, 0 => []
  | k, n + 1 => s.bitAt k :: s.bitsAt (k + 1) n

/-- The n-bit field at stream bit k, its first bit the least significant (20_memory.md rule R84). -/
def State.fieldAt (s : State) (k n : Nat) : Nat := bitsValue (s.bitsAt k n)

/-- s with the cursor at stream bit k (10_state.md rule R32). -/
def State.atBit (s : State) (k : Nat) : State := { s with bytePos := k / 8, bitPos := BitVec.ofNat 3 (k % 8) }

/-- n more bits of input can be read (20_memory.md rule R87). -/
abbrev State.hasBits (s : State) (n : Nat) : Prop := s.pc + n ≤ 8 * s.inLen

/-- The linear value of the next byte boundary, the cursor's own place if it is on one (20_memory.md rule R85). -/
def State.alignedByte (s : State) : Nat := (s.pc + 7) / 8

/-- The symbol a bit path from the root of t reaches; it must end there (40_huffman.md rule R206, rule R210). -/
def Tree.symbolAt : Tree → Bits → Option Nat
  | .leaf sym, [] => some sym
  | .node l r, b :: bs => if b then r.symbolAt bs else l.symbolAt bs
  | _, _ => none

/-- The place in t that a bit path from its root leads to (40_huffman.md rule R210). -/
def Tree.subtree : Tree → Bits → Option Tree
  | t, [] => some t
  | .node l r, b :: bs => if b then r.subtree bs else l.subtree bs
  | _, _ :: _ => none

/-! ## Output -/

/-- n more bytes can be emitted (20_memory.md rule R92). -/
def State.hasRoom (s : State) (n : Nat) : Prop := ∀ c, s.outCapacity = some c → s.outLen + n ≤ c

/-- s after the bytes bs were emitted: at the end of OUT and in the window (00_scope.md rule R13, 44_window.md
rule R403). -/
def emitted (bs : List Byte) (s : State) : State :=
  winAppendData bs { s with out := s.out ++ bs, outLen := s.outLen + bs.length }

/-- The n bytes a back-reference of distance d copies: the last d bytes of the window over and over
(44_window.md rule R407). -/
def copiedBytes (d n : Nat) (s : State) : List Byte :=
  (List.range n).map fun k => Memory.read s.win ((s.winCur.toNat + 32768 - d + k % d) % 32768)

/-! ## Back-references as one procedure -/

/-- BackRef(sym) as one procedure, the distance symbol decoded in place (43_symbol_loop.md rule R323, rule R329). -/
def backRef (sym : Nat) (s : State) : Res Unit :=
  if s.distTree = .null then .raise .nullDistanceTree s
  else
    (readMatchLen sym s).bind fun _ s =>
    (decodeSymbol s.distTree s).bind fun dsym s =>
    if 30 ≤ dsym then .raise .distSymbolRange s
    else (readMatchDist dsym s).bind fun _ s => writeToObject s.matchDist s.matchLen.toNat s

/-! ## Rows -/

/-- The rest of a row: `done` is reconstructed, `up` is the row above, the listed bytes are still filtered
(45_defilter.md rule R420, rule R425). -/
def reconFrom (pred : Byte → Byte → Byte → Byte) (p : Nat) (up : Nat → Byte) : List Byte → List Byte → List Byte
  | done, [] => done
  | done, f :: fs =>
    let i := done.length
    let a := if p ≤ i then done.getD (i - p) 0 else 0
    let c := if p ≤ i then up (i - p) else 0
    reconFrom pred p up (done ++ [f + pred a (up i) c]) fs

/-- The reconstruction of a row of filtered bytes. -/
def reconRow (pred : Byte → Byte → Byte → Byte) (p : Nat) (up : Nat → Byte) (filtered : List Byte) : List Byte :=
  reconFrom pred p up [] filtered

/-- The forward filter of a row x (45_defilter.md rule R437). -/
def forwardRow (pred : Byte → Byte → Byte → Byte) (p : Nat) (up : Nat → Byte) (x : List Byte) : List Byte :=
  (List.range x.length).map fun i =>
    x.getD i 0 - pred (if p ≤ i then x.getD (i - p) 0 else 0) (up i) (if p ≤ i then up (i - p) else 0)

/-- The row above the current one: zero above row 0 (45_defilter.md rule R425). -/
def State.rowAbove (s : State) (i : Nat) : Byte := if 1 ≤ s.rowY.toNat then Memory.read s.prevRow i else 0

/-! ## Instructions of one shape -/

/-- The length instructions: (instruction, symbol, extra bits, base length), as 43_symbol_loop.md rule R340 to
rule R368 give them one by one. -/
def lengthRows : List (Instr × Nat × Nat × Nat) :=
  [(.len257, 257, 0, 3), (.len258, 258, 0, 4), (.len259, 259, 0, 5), (.len260, 260, 0, 6),
   (.len261, 261, 0, 7), (.len262, 262, 0, 8), (.len263, 263, 0, 9), (.len264, 264, 0, 10),
   (.len265, 265, 1, 11), (.len266, 266, 1, 13), (.len267, 267, 1, 15), (.len268, 268, 1, 17),
   (.len269, 269, 2, 19), (.len270, 270, 2, 23), (.len271, 271, 2, 27), (.len272, 272, 2, 31),
   (.len273, 273, 3, 35), (.len274, 274, 3, 43), (.len275, 275, 3, 51), (.len276, 276, 3, 59),
   (.len277, 277, 4, 67), (.len278, 278, 4, 83), (.len279, 279, 4, 99), (.len280, 280, 4, 115),
   (.len281, 281, 5, 131), (.len282, 282, 5, 163), (.len283, 283, 5, 195), (.len284, 284, 5, 227),
   (.len285, 285, 0, 258)]

/-- The distance instructions: (instruction, symbol, extra bits, base distance), as 43_symbol_loop.md rule R370 to
rule R399 give them one by one. -/
def distRows : List (Instr × Nat × Nat × Nat) :=
  [(.dist0, 0, 0, 1), (.dist1, 1, 0, 2), (.dist2, 2, 0, 3), (.dist3, 3, 0, 4),
   (.dist4, 4, 1, 5), (.dist5, 5, 1, 7), (.dist6, 6, 2, 9), (.dist7, 7, 2, 13),
   (.dist8, 8, 3, 17), (.dist9, 9, 3, 25), (.dist10, 10, 4, 33), (.dist11, 11, 4, 49),
   (.dist12, 12, 5, 65), (.dist13, 13, 5, 97), (.dist14, 14, 6, 129), (.dist15, 15, 6, 193),
   (.dist16, 16, 7, 257), (.dist17, 17, 7, 385), (.dist18, 18, 8, 513), (.dist19, 19, 8, 769),
   (.dist20, 20, 9, 1025), (.dist21, 21, 9, 1537), (.dist22, 22, 10, 2049), (.dist23, 23, 10, 3073),
   (.dist24, 24, 11, 4097), (.dist25, 25, 11, 6145), (.dist26, 26, 12, 8193), (.dist27, 27, 12, 12289),
   (.dist28, 28, 13, 16385), (.dist29, 29, 13, 24577)]

/-- The filter instructions with their type and predictor (45_defilter.md rule R427 to rule R431). -/
def filterRows : List (Instr × BitVec 8 × (Byte → Byte → Byte → Byte)) :=
  [(.filtNone, 0, fun _ _ _ => 0), (.filtSub, 1, fun a _ _ => a), (.filtUp, 2, fun _ b _ => b),
   (.filtAvg, 3, fun a b _ => BitVec.ofNat 8 ((a.toNat + b.toNat) / 2)), (.filtPaeth, 4, paethPredictor)]

/-- The code-length lengths sent at stream bit k, n of them: the i-th belongs to symbol ORDER[i], and a symbol not
among the first n has length 0 (42_dynamic_header.md rule R282). -/
def State.sentClenLens (s : State) (k n : Nat) : Vector (BitVec 3) 19 :=
  Vector.ofFn fun j =>
    let i := [16, 17, 18, 0, 8, 7, 9, 6, 10, 5, 11, 4, 12, 3, 13, 2, 14, 1, 15].idxOf j.val
    if i < n then BitVec.ofNat 3 (s.fieldAt (k + 3 * i) 3) else 0

/-- s without a leading passive move of the host, a `wait` or an ignored write: the state the engine's step starts
from (46_host_interface.md rule R479). -/
def State.afterPassiveMove (s : State) : State :=
  match s.host with
  | [] => s
  | m :: rest => if m.isPassive then { s with host := rest } else s

/-- An outcome with the model's own distNext cleared. -/
def clearDistNext : Host.Outcome State Fault Refusal → Host.Outcome State Fault Refusal
  | .next t => .next { t with distNext := false }
  | .fault f => .fault f
  | .refused r => .refused r

/-! ## Invariants -/

/-- Every symbol of a tree is below n. -/
def Tree.symsBelow (n : Nat) : Tree → Bool
  | .null => true
  | .leaf sym => decide (sym < n)
  | .node l r => l.symsBelow n && r.symsBelow n

/-- Every internal node has both children (10_state.md rule R43). -/
def Tree.isFull : Tree → Bool
  | .null => false
  | .leaf _ => true
  | .node l r => l.isFull && r.isFull

/-- The memories are in their canonical form. -/
def MemoriesCanonical (s : State) : Prop :=
  Memory.wf s.inMem ∧ Memory.wf s.win ∧ Memory.wf s.prevRow ∧ Memory.wf s.curRow

/-- While a command runs the cursor is within the input (10_state.md rule R32), and on a byte boundary throughout a
DEFILTER command (45_defilter.md rule R426). -/
def CursorWithinInput (s : State) : Prop :=
  s.status = .busy → s.pc ≤ 8 * s.inLen ∧ (s.phase = .dfRow → s.bitPos = 0)

/-- OUT_LEN counts OUT, and a bounded OUT_CAPACITY bounds it (10_state.md rule R46, 20_memory.md rule R92). -/
def OutputCounted (s : State) : Prop :=
  s.outLen = s.out.length ∧ ∀ c, s.outCapacity = some c → s.outLen ≤ c

/-- During INFLATE the window holds the last 32768 emitted bytes, the cursor counts them modulo 32768, and the wrapped
flag tells whether there were that many (20_memory.md rule R104, 44_window.md rule R405). -/
def WindowHoldsOutput (s : State) : Prop :=
  s.status = .busy → s.phase ≠ .dfRow →
    s.winCur.toNat = s.out.length % 32768 ∧
    (s.winWrapped = 1 ↔ 32768 ≤ s.out.length) ∧
    ∀ k, 1 ≤ k → k ≤ s.out.length → k ≤ 32768 →
      Memory.read s.win ((s.winCur.toNat + 32768 - k) % 32768) = s.out.getD (s.out.length - k) 0

/-- The error fields are zero unless STATUS is ERROR; then both name an error and there is no output
(10_state.md rule R41, 60_exceptions.md rule R530). -/
def ErrorFieldsMatchStatus (s : State) : Prop :=
  (s.status ≠ .error → s.errClass = .none ∧ s.errCode = 0) ∧
  (s.status = .error → s.errClass ≠ .none ∧ s.errCode ≠ 0 ∧ s.out = [] ∧ s.outLen = 0)

/-- Nothing a step can meet stops the machine: a running command has a running phase, the trees hold symbols of their
alphabets, and the code-length loop is within its bounds (10_state.md rule R31, 00_scope.md rule R18). -/
def NothingStops (s : State) : Prop :=
  (s.status = .busy → s.phase ≠ .idle ∧ s.phase ≠ .done ∧ s.phase ≠ .error) ∧
  s.hlit.toNat ≤ 288 ∧ s.hdist.toNat ≤ 32 ∧
  s.litTree.symsBelow 288 = true ∧ s.distTree.symsBelow 32 = true ∧ s.clenTree.symsBelow 19 = true ∧
  (s.status = .busy → s.phase = .dynLens → s.lensCount.toNat ≤ s.lensTotal)

/-- Twice the bits of input left, and one more in the two phases that end without reading: every step of a running
command lowers it (46_host_interface.md rule R484). -/
def remaining (s : State) : Nat :=
  2 * (8 * s.inLen - s.pc) + (if s.phase = .blockEnd ∨ s.phase = .dynLens then 1 else 0)

end Sys2Proof.Machine
end

