-- ==== Sys2Proof/Certificates/Slice0/Obligations.lean ====
section
/-! DEFINITION. The statements for the provers. Each docstring names the rule of spec/ it states. A statement that gives
an instruction's outcome as an equation also gives its frame: every field the right side does not name is unchanged. -/

section

open Sys2Proof Sys2Proof.Machine

/-! ## Reset, decoding, fetching -/

/-- 10_state.md rule R51: every value of the power-on table. -/
def Obligations.PowerOnResetValues : Prop :=
  let s := State.reset
  s.cmd = 0 ∧ s.status = .idle ∧ s.errClass = .none ∧ s.errCode = 0 ∧ s.inLen = 0 ∧ s.outLen = 0 ∧
  s.dfWidth = 0 ∧ s.dfHeight = 0 ∧ s.dfPixelSize = 0 ∧ s.phase = .idle ∧ s.bytePos = 0 ∧ s.bitPos = 0 ∧
  s.bfinal = 0 ∧ s.btype = 0 ∧ s.litTree = .null ∧ s.distTree = .null ∧ s.clenTree = .null ∧
  s.hlit = 0 ∧ s.hdist = 0 ∧ s.hclen = 0 ∧ s.lensCount = 0 ∧
  (∀ j (h : j < 19), s.clenLens[j] = 0) ∧ (∀ j (h : j < 320), s.lens[j] = 0) ∧
  s.storedRemain = 0 ∧ s.matchLen = 0 ∧ s.matchDist = 0 ∧
  (∀ a, Memory.read s.win a = 0) ∧ s.winCur = 0 ∧ s.winWrapped = 0 ∧ s.out = [] ∧
  s.rowY = 0 ∧ s.colI = 0 ∧ s.ft = 0 ∧ (∀ a, Memory.read s.prevRow a = 0) ∧ (∀ a, Memory.read s.curRow a = 0) ∧
  buildTree staticLitLens 15 = .ok staticLitTree ∧ buildTree staticDistLens 15 = .ok staticDistTree

/-- 30_encoding.md rule R132 to rule R137: words written out from the opcode map, at least one of every format. -/
def Obligations.DecoderReadsSpecWords : Prop :=
  decode .hdr 0b001 = .ok (.blkStored 1) ∧ decode .hdr 0b010 = .ok (.blkStatic 0) ∧
  decode .hdr 0b101 = .ok (.blkDynamic 1) ∧ decode .hdr 0b111 = .ok (.blkReserved 1) ∧
  decode .clsym 8 = .ok (.clLen 8) ∧ decode .clsym 16 = .ok .clRep ∧ decode .clsym 17 = .ok .clZero3 ∧
  decode .clsym 18 = .ok .clZero11 ∧ decode .clsym 19 = .error .symbolRange ∧
  decode .litsym 0x61 = .ok (.lit 0x61) ∧ decode .litsym 256 = .ok .eob ∧ decode .litsym 257 = .ok .len257 ∧
  decode .litsym 285 = .ok .len285 ∧ decode .litsym 286 = .ok .litRsv286 ∧
  decode .litsym 288 = .error .symbolRange ∧
  decode .distsym 0 = .ok .dist0 ∧ decode .distsym 29 = .ok .dist29 ∧ decode .distsym 31 = .ok .distRsv31 ∧
  decode .distsym 32 = .error .symbolRange ∧
  decode .row 4 = .ok .filtPaeth ∧ decode .row 5 = .ok (.filtReserved 5) ∧
  decode .row 255 = .ok (.filtReserved 255) ∧
  decode .cmd 1 = .ok .cmdInflate ∧ decode .cmd 3 = .ok .cmdReserved

/-- 30_encoding.md rule R132 to rule R137: for every format and value, the decoder answers exactly the well-formed
instruction whose encoding that is. -/
def Obligations.DecodeInvertsEncode : Prop :=
  ∀ (f : Format) (w : Nat) (i : Instr), decode f w = .ok i ↔ i.WellFormed = true ∧ encode i = (f, w)

/-- 30_encoding.md rule R140: wherever the input holds the static code of a symbol, the static tree decodes that symbol
and consumes exactly the code. -/
def Obligations.StaticCodesDecode : Prop :=
  (∀ (s : State) (sym : Nat), sym < 288 →
    s.hasBits (staticLitBits sym).length → s.bitsAt s.pc (staticLitBits sym).length = staticLitBits sym →
    decodeSymbol staticLitTree s = .ok sym (s.atBit (s.pc + (staticLitBits sym).length))) ∧
  (∀ (s : State) (sym : Nat), sym < 32 →
    s.hasBits 5 → s.bitsAt s.pc 5 = staticDistBits sym →
    decodeSymbol staticDistTree s = .ok sym (s.atBit (s.pc + 5)))

/-- 46_host_interface.md rule R483, 41_block_dispatch.md rule R243, 40_huffman.md rule R210, 45_defilter.md rule R426:
where the next input of a running command decodes to an instruction, the step is that instruction's meaning after the
fetch; a host write of CMD runs the command instruction. -/
def Obligations.StepRunsDecodedInstruction : Prop :=
  (∀ s : State, s.status = .busy → s.host.head? ≠ some .reset →
    let t := s.afterPassiveMove
    (t.phase = .hdr → t.hasBits 3 → ∀ i, decode .hdr (t.fieldAt t.pc 3) = .ok i →
      step s = exec i { t.atBit (t.pc + 3) with
        bfinal := BitVec.ofNat 1 (t.fieldAt t.pc 1), btype := BitVec.ofNat 2 (t.fieldAt (t.pc + 1) 2) }) ∧
    (t.phase = .dynLens → t.lensCount.toNat < t.lensTotal → ∀ sym u i, decodeSymbol t.clenTree t = .ok sym u →
      decode .clsym sym = .ok i → step s = exec i u) ∧
    (t.phase = .symbols → t.distNext = false → ∀ sym u i, decodeSymbol t.litTree t = .ok sym u →
      decode .litsym sym = .ok i → step s = exec i u) ∧
    (t.phase = .symbols → t.distNext = true → ∀ sym u i, decodeSymbol t.distTree t = .ok sym u →
      decode .distsym sym = .ok i → step s = exec i u) ∧
    (t.phase = .dfRow → t.rowY.toNat < t.dfHeight.toNat → t.bytePos < t.inLen →
      ∀ i, decode .row (Memory.read t.inMem t.bytePos).toNat = .ok i →
      step s = exec i { t with bytePos := t.bytePos + 1, ft := Memory.read t.inMem t.bytePos })) ∧
  (∀ (s : State) (v : BitVec 2) (rest : List HostMove) (i : Instr), s.status ≠ .busy →
    s.host = .writeCmd v :: rest → decode .cmd v.toNat = .ok i → step s = exec i { s with host := rest })

/-- 60_exceptions.md rule R520, 20_memory.md rule R87, 40_huffman.md rule R210, rule R213: every error of a fetch is the
error entry of what it raised: the input ends in a block header or before a row's filter type, or decoding a symbol
raises, be the tree NULL, the input at its end inside a code, or a child missing. -/
def Obligations.FetchErrorsAbort : Prop :=
  ∀ s : State, s.status = .busy → s.host.head? ≠ some .reset →
    let t := s.afterPassiveMove
    (t.phase = .hdr → ¬ t.hasBits 3 →
      ∃ k v, step s = .next (errorEntry .inputExhausted { t.atBit k with bfinal := v })) ∧
    (t.phase = .dynLens → t.lensCount.toNat < t.lensTotal →
      (∀ e u, decodeSymbol t.clenTree t = .raise e u → step s = .next (errorEntry e u)) ∧
      (t.clenTree = .null → step s = .next (errorEntry .emptyTree t))) ∧
    (t.phase = .symbols → t.distNext = false →
      (∀ e u, decodeSymbol t.litTree t = .raise e u → step s = .next (errorEntry e u)) ∧
      (t.litTree = .null → step s = .next (errorEntry .emptyTree t))) ∧
    (t.phase = .symbols → t.distNext = true →
      ∀ e u, decodeSymbol t.distTree t = .raise e u → step s = .next (errorEntry e u)) ∧
    (t.phase = .dfRow → t.rowY.toNat < t.dfHeight.toNat → t.inLen ≤ t.bytePos →
      step s = .next (errorEntry .inputExhausted t))

/-! ## Shared operations -/

/-- 20_memory.md rule R84, rule R87: the field's first bit is its least significant, the cursor moves past it, and
where the input ends first the read raises INPUT_EXHAUSTED. -/
def Obligations.GetBitsReadsField : Prop :=
  ∀ (s : State) (n : Nat), n ≤ 13 →
    (n = 0 ∨ s.hasBits n → getBits n s = .ok (s.fieldAt s.pc n) (s.atBit (s.pc + n))) ∧
    (0 < n → ¬ s.hasBits n → ∃ k, getBits n s = .raise .inputExhausted (s.atBit k))

/-- 20_memory.md rule R85, rule R90: AlignToByte moves to the next byte boundary, and a 16-bit field on a boundary is
little-endian. -/
def Obligations.AlignThenLittleEndian : Prop :=
  (∀ s : State, alignToByte s = s.atBit (8 * s.alignedByte) ∧ (s.bitPos = 0 → alignToByte s = s)) ∧
  (∀ (s : State) (k : Nat), s.pc = 8 * k → k + 2 ≤ s.inLen →
    ∃ v : BitVec 16, readLe16 s = .ok v (s.atBit (8 * (k + 2))) ∧
      v.toNat = (Memory.read s.inMem k).toNat + 256 * (Memory.read s.inMem (k + 1)).toNat)

/-- 20_memory.md rule R91, rule R92: OutAppend appends at the end, or raises OUTPUT_OVERFLOW where the bound is
reached. -/
def Obligations.OutAppendAppendsOrOverflows : Prop :=
  ∀ (b : Byte) (s : State),
    (s.outCapacity ≠ some s.outLen →
      outAppend b s = .ok () { s with out := s.out ++ [b], outLen := s.outLen + 1 }) ∧
    (s.outCapacity = some s.outLen → outAppend b s = .raise .outputOverflow s)

/-- 00_scope.md rule R13, 44_window.md rule R402, rule R403, rule R404: an emitted run stands at the end of OUT; its
i-th byte stands at slot WIN_CUR + i modulo 32768 unless 32768 later ones overwrote it; slots it does not reach keep
their bytes; WIN_CUR and WIN_WRAPPED follow; nothing else changes. -/
def Obligations.EmittedRunStandsInOutAndWindow : Prop :=
  ∀ (bs : List Byte) (s : State), Memory.wf s.win →
    let t := emitted bs s
    t = { s with
      out := s.out ++ bs, outLen := s.outLen + bs.length,
      win := t.win, winCur := t.winCur, winWrapped := t.winWrapped } ∧
    t.winCur.toNat = (s.winCur.toNat + bs.length) % 32768 ∧
    (t.winWrapped = 1 ↔ s.winWrapped = 1 ∨ 32768 ≤ s.winCur.toNat + bs.length) ∧
    (∀ i, i < bs.length → bs.length ≤ i + 32768 →
      Memory.read t.win ((s.winCur.toNat + i) % 32768) = bs.getD i 0) ∧
    (∀ a, (∀ i, i < bs.length → a ≠ (s.winCur.toNat + i) % 32768) → Memory.read t.win a = Memory.read s.win a)

/-- 60_exceptions.md rule R528: what the error entry writes, with the class and code of rule R521 to rule R523; every
other register keeps its value. -/
def Obligations.ErrorEntryLatches : Prop :=
  (∀ (e : Err) (s : State), ∃ c k, errorEntry e s =
    { s with phase := .error, out := [], outLen := 0, errClass := c, errCode := k, status := .error } ∧
    c = e.errClass ∧ k = e.code) ∧
  [Err.badBlockType, .storedLenMismatch, .badCodeLengths, .invalidCode, .emptyTree, .repeatWithoutPrevious,
    .codeLengthsOverflow, .nullDistanceTree, .litlenSymbolRange, .distSymbolRange, .distanceTooFar, .inputExhausted,
    .badFilterType, .rowDataShort].map (fun e => (e.errClass, e.code)) =
    [(.format, 0x01), (.format, 0x02), (.format, 0x03), (.format, 0x04), (.format, 0x05), (.format, 0x06),
      (.format, 0x07), (.format, 0x08), (.format, 0x09), (.format, 0x0A), (.format, 0x0B), (.format, 0x0C),
      (.format, 0x0D), (.format, 0x0E)] ∧
  (Err.pixelSize.errClass, Err.pixelSize.code) = (.unsupported, 0x07) ∧
  (Err.outputOverflow.errClass, Err.outputOverflow.code) = (.resource, 0x01)

/-! ## Huffman trees -/

/-- 40_huffman.md rule R201, rule R204, rule R205: an empty alphabet gives NULL, a single length 1 the degenerate tree,
a single longer length is malformed. -/
def Obligations.BuildTreeSpecialAlphabets : Prop :=
  ∀ (lens : List Nat) (m : Nat),
    ((∀ l ∈ lens, l = 0) → buildTree lens m = .ok .null) ∧
    (∀ sym, sym < lens.length → (∀ j, j < lens.length → j ≠ sym → lens.getD j 0 = 0) →
      (lens.getD sym 0 = 1 → buildTree lens m = .ok (.leaf sym)) ∧
      (2 ≤ lens.getD sym 0 → buildTree lens m = .error .badCodeLengths))

/-- 40_huffman.md rule R203: the completeness check is that the codes' shares of the code space add up to all of it. -/
def Obligations.CompletenessIsKraftEquality : Prop :=
  ∀ (lens : List Nat) (m : Nat), (∀ l ∈ lens, l ≤ m) →
    (checkComplete lens m = true ↔ ((lens.filter (fun l => l != 0)).map (fun l => 2 ^ (m - l))).sum = 2 ^ m)

/-- 10_state.md rule R43, 40_huffman.md rule R212: a tree BuildTree makes is NULL, a single leaf, or a full binary tree,
and its symbols are of the alphabet. -/
def Obligations.BuiltTreesAreFull : Prop :=
  ∀ (lens : List Nat) (m : Nat) (t : Machine.Tree), (∀ l ∈ lens, l ≤ m) → buildTree lens m = .ok t →
    (t = .null ∨ t.isFull = true) ∧ t.symsBelow lens.length = true

/-- 40_huffman.md rule R202: the canonical codes of RFC 1951's example (95_test_vectors.md V10). -/
def Obligations.CanonicalCodesOfExample : Prop :=
  ∃ t, buildTree [3, 3, 3, 3, 3, 2, 4, 4] 15 = .ok t ∧
    t.symbolAt [false, true, false] = some 0 ∧ t.symbolAt [false, true, true] = some 1 ∧
    t.symbolAt [true, false, false] = some 2 ∧ t.symbolAt [true, false, true] = some 3 ∧
    t.symbolAt [true, true, false] = some 4 ∧ t.symbolAt [false, false] = some 5 ∧
    t.symbolAt [true, true, true, false] = some 6 ∧ t.symbolAt [true, true, true, true] = some 7

/-- 40_huffman.md rule R210, rule R213: DecodeSymbol raises on NULL without reading and takes one bit of either value
from a degenerate tree; from any other it follows the input's bits from the root to a leaf, raises INVALID_CODE at the
bit that leaves the tree, and INPUT_EXHAUSTED at the bit that is missing. -/
def Obligations.DecodeSymbolFollowsInput : Prop :=
  ∀ s : State,
    decodeSymbol .null s = .raise .emptyTree s ∧
    (∀ sym, s.hasBits 1 → decodeSymbol (.leaf sym) s = .ok sym (s.atBit (s.pc + 1))) ∧
    (∀ sym, ¬ s.hasBits 1 → decodeSymbol (.leaf sym) s = .raise .inputExhausted s) ∧
    ∀ (l r : Machine.Tree) (bs : Bits), s.bitsAt s.pc bs.length = bs →
      (∀ sym, s.hasBits bs.length → (Machine.Tree.node l r).symbolAt bs = some sym →
        decodeSymbol (.node l r) s = .ok sym (s.atBit (s.pc + bs.length))) ∧
      (s.hasBits bs.length → (Machine.Tree.node l r).subtree bs = some .null →
        decodeSymbol (.node l r) s = .raise .invalidCode (s.atBit (s.pc + bs.length))) ∧
      (∀ l' r', s.pc + bs.length = 8 * s.inLen → (Machine.Tree.node l r).subtree bs = some (.node l' r') →
        decodeSymbol (.node l r) s = .raise .inputExhausted (s.atBit (s.pc + bs.length)))

/-! ## Blocks -/

/-- 41_block_dispatch.md rule R245: BLK_STORED on a well-formed stored block with room for its data. -/
def Obligations.StoredBlockCopies : Prop :=
  ∀ (final : BitVec 1) (s : State) (len : Nat),
    let k := s.alignedByte
    k + 4 + len ≤ s.inLen → s.hasRoom len →
    (Memory.read s.inMem k).toNat + 256 * (Memory.read s.inMem (k + 1)).toNat = len →
    (Memory.read s.inMem (k + 2)).toNat + 256 * (Memory.read s.inMem (k + 3)).toNat = 65535 - len →
    exec (.blkStored final) s =
      .next { emitted (Memory.readBytes s.inMem (k + 4) len) (s.atBit (8 * (k + 4 + len))) with
        bfinal := final, btype := 0, storedRemain := 0, phase := .blockEnd }

/-- 41_block_dispatch.md rule R246: an NLEN that is not the complement of LEN raises before any data byte. -/
def Obligations.StoredLengthMismatchRaises : Prop :=
  ∀ (final : BitVec 1) (s : State) (len nlen : Nat),
    let k := s.alignedByte
    k + 4 ≤ s.inLen →
    (Memory.read s.inMem k).toNat + 256 * (Memory.read s.inMem (k + 1)).toNat = len →
    (Memory.read s.inMem (k + 2)).toNat + 256 * (Memory.read s.inMem (k + 3)).toNat = nlen →
    len + nlen ≠ 65535 →
    exec (.blkStored final) s = .next (errorEntry .storedLenMismatch
      { s.atBit (8 * (k + 4)) with bfinal := final, btype := 0, phase := .stored })

/-- 41_block_dispatch.md rule R252, rule R255: BLK_STATIC selects the ROM trees; BLK_RESERVED always raises. -/
def Obligations.StaticAndReservedHeaders : Prop :=
  ∀ (final : BitVec 1) (s : State),
    exec (.blkStatic final) s = .next { s with
      bfinal := final, btype := 1, litTree := staticLitTree, distTree := staticDistTree, phase := .symbols,
      distNext := false } ∧
    exec (.blkReserved final) s = .next (errorEntry .badBlockType { s with bfinal := final, btype := 3 })

/-- 42_dynamic_header.md rule R281, rule R282, rule R283: BLK_DYNAMIC reads the three counts and the code-length
lengths and builds the code-length tree, or raises BAD_CODE_LENGTHS. -/
def Obligations.DynamicHeaderBuildsCodeLengthTree : Prop :=
  ∀ (final : BitVec 1) (s : State),
    let hclen := s.fieldAt (s.pc + 10) 4 + 4
    let ls := s.sentClenLens (s.pc + 14) hclen
    let t : State := { s.atBit (s.pc + 14 + 3 * hclen) with
      bfinal := final, btype := 2, hlit := BitVec.ofNat 9 (s.fieldAt s.pc 5 + 257),
      hdist := BitVec.ofNat 6 (s.fieldAt (s.pc + 5) 5 + 1), hclen := BitVec.ofNat 5 hclen, clenLens := ls }
    s.hasBits 14 → s.hasBits (14 + 3 * hclen) →
    (∀ tree, buildTree (ls.toList.map BitVec.toNat) 7 = .ok tree →
      exec (.blkDynamic final) s = .next { t with clenTree := tree, phase := .dynLens, lensCount := 0 }) ∧
    (∀ e, buildTree (ls.toList.map BitVec.toNat) 7 = .error e →
      exec (.blkDynamic final) s = .next (errorEntry .badCodeLengths { t with phase := .dynHdr }))

/-- 42_dynamic_header.md rule R293: after the last code length the literal/length tree is built, then the distance
tree, and the symbol loop begins; a malformed set raises. That this is a step of its own, which clears distNext, is the
model's choice (notes/assumptions/1.md). -/
def Obligations.TreesAreBuiltAfterCodeLengths : Prop :=
  ∀ s : State, s.status = .busy → s.host = [] → s.phase = .dynLens → s.lensTotal ≤ s.lensCount.toNat →
    s.hlit.toNat ≤ 288 → s.hdist.toNat ≤ 32 →
    let ls := s.lens.toList.map BitVec.toNat
    let lit := buildTree (ls.take s.hlit.toNat) 15
    let dist := buildTree ((ls.drop s.hlit.toNat).take s.hdist.toNat) 15
    (∀ l d, lit = .ok l → dist = .ok d →
      step s = .next { s with litTree := l, distTree := d, phase := .symbols, distNext := false }) ∧
    (∀ e, lit = .error e → step s = .next (errorEntry .badCodeLengths s)) ∧
    (∀ l e, lit = .ok l → dist = .error e → step s = .next (errorEntry .badCodeLengths { s with litTree := l }))

/-- 41_block_dispatch.md rule R256: at a block's end the final flag ends the command, and otherwise the next header is
read at the cursor, without alignment. -/
def Obligations.BlockEndTestsFinalFlag : Prop :=
  ∀ s : State, s.status = .busy → s.host = [] → s.phase = .blockEnd →
    (s.bfinal = 1 → step s = .next { s with phase := .done, status := .done }) ∧
    (s.bfinal = 0 → step s = .next { s with phase := .hdr })

/-! ## Code lengths -/

/-- 42_dynamic_header.md rule R285: CL_LEN appends its length. -/
def Obligations.CodeLengthLiteralAppends : Prop :=
  ∀ (v : BitVec 4) (s : State), s.lensCount.toNat < 320 →
    ∃ ls, exec (.clLen v) s =
        .next { s with lens := ls, lensCount := BitVec.ofNat 9 (s.lensCount.toNat + 1) } ∧
      ∀ j (h : j < 320), ls[j] = if j = s.lensCount.toNat then v else s.lens[j]

/-- 42_dynamic_header.md rule R286, rule R291: CL_REP appends 3 to 6 copies of the entry before it. -/
def Obligations.RepeatCopiesPreviousLength : Prop :=
  ∀ s : State,
    let c := s.lensCount.toNat
    let r := 3 + s.fieldAt s.pc 2
    0 < c → s.hasBits 2 → c + r ≤ s.lensTotal → s.lensTotal ≤ 320 →
    ∃ ls, exec .clRep s = .next { s.atBit (s.pc + 2) with lens := ls, lensCount := BitVec.ofNat 9 (c + r) } ∧
      ∀ j (h : j < 320), ls[j] = if c ≤ j ∧ j < c + r then s.lens.toList.getD (c - 1) 0 else s.lens[j]

/-- 42_dynamic_header.md rule R287, rule R288, rule R292: CL_ZERO3 appends 3 to 10 zeros and CL_ZERO11 11 to 138, also
as the first code-length instruction. -/
def Obligations.ZeroRunsAppendZeros : Prop :=
  ∀ p ∈ [(Instr.clZero3, 3, 3), (Instr.clZero11, 11, 7)], ∀ s : State,
    let c := s.lensCount.toNat
    let r := p.2.1 + s.fieldAt s.pc p.2.2
    s.hasBits p.2.2 → c + r ≤ s.lensTotal → s.lensTotal ≤ 320 →
    ∃ ls, exec p.1 s = .next { s.atBit (s.pc + p.2.2) with lens := ls, lensCount := BitVec.ofNat 9 (c + r) } ∧
      ∀ j (h : j < 320), ls[j] = if c ≤ j ∧ j < c + r then 0 else s.lens[j]

/-- 42_dynamic_header.md rule R286, rule R289: CL_REP as the first entry raises before its extra bits; a run past
HLIT + HDIST raises after them and writes no entry. -/
def Obligations.RunsPastTheTotalRaise : Prop :=
  (∀ s : State, s.lensCount = 0 → exec .clRep s = .next (errorEntry .repeatWithoutPrevious s)) ∧
  ∀ p ∈ [(Instr.clRep, 3, 2), (Instr.clZero3, 3, 3), (Instr.clZero11, 11, 7)], ∀ s : State,
    s.lensCount ≠ 0 ∨ p.1 ≠ .clRep → s.hasBits p.2.2 → s.lensTotal < s.lensCount.toNat + (p.2.1 + s.fieldAt s.pc p.2.2) →
    exec p.1 s = .next (errorEntry .codeLengthsOverflow (s.atBit (s.pc + p.2.2)))

/-! ## Symbols -/

/-- 43_symbol_loop.md rule R320, rule R321: LIT emits its byte, where OUT has room; EOB ends the block and writes no
output. -/
def Obligations.LiteralAndEndOfBlock : Prop :=
  (∀ (b : Byte) (s : State), s.outCapacity ≠ some s.outLen →
    exec (.lit b) s = .next { s with
      out := s.out ++ [b], outLen := s.outLen + 1, win := Memory.write s.win s.winCur.toNat b,
      winCur := s.winCur + 1, winWrapped := if s.winCur = 32767 then 1 else s.winWrapped }) ∧
  (∀ s : State, exec .eob s = .next { s with phase := .blockEnd })

/-- 43_symbol_loop.md rule R324, rule R325: every length instruction writes MATCH_LEN from its base and extra bits;
that its distance instruction and the copy are the next step is the model's choice (notes/assumptions/1.md). -/
def Obligations.LengthInstructionsWriteMatchLen : Prop :=
  ∀ p ∈ lengthRows, ∀ s : State, s.distTree ≠ .null → p.2.2.1 = 0 ∨ s.hasBits p.2.2.1 →
    ∃ v : BitVec 9, exec p.1 s = .next { s.atBit (s.pc + p.2.2.1) with matchLen := v, distNext := true } ∧
      v.toNat = p.2.2.2 + s.fieldAt s.pc p.2.2.1 ∧ 3 ≤ v.toNat ∧ v.toNat ≤ 258

/-- 43_symbol_loop.md rule R326: a length instruction with a null distance tree raises before its extra bits. -/
def Obligations.NullDistanceTreeRaises : Prop :=
  ∀ p ∈ lengthRows, ∀ s : State, s.distTree = .null → exec p.1 s = .next (errorEntry .nullDistanceTree s)

/-- 43_symbol_loop.md rule R327, rule R328, 44_window.md rule R406, rule R407: every distance instruction writes
MATCH_DIST and copies MATCH_LEN bytes, the last MATCH_DIST bytes of the window over and over, where the distance is
valid and OUT has room. -/
def Obligations.DistanceInstructionsCopy : Prop :=
  ∀ p ∈ distRows, ∀ s : State, Memory.wf s.win → p.2.2.1 = 0 ∨ s.hasBits p.2.2.1 →
    let d := p.2.2.2 + s.fieldAt s.pc p.2.2.1
    let n := s.matchLen.toNat
    (s.winWrapped = 1 ∨ d ≤ s.winCur.toNat) → s.hasRoom n →
    1 ≤ d ∧ d ≤ 32768 ∧
    exec p.1 s = .next (emitted (copiedBytes d n s)
      { s.atBit (s.pc + p.2.2.1) with matchDist := BitVec.ofNat 16 d, distNext := false })

/-- 44_window.md rule R405: a distance that reaches an unwritten slot raises before any byte is copied. -/
def Obligations.DistanceTooFarRaises : Prop :=
  ∀ p ∈ distRows, ∀ s : State, p.2.2.1 = 0 ∨ s.hasBits p.2.2.1 →
    let d := p.2.2.2 + s.fieldAt s.pc p.2.2.1
    ¬(s.winWrapped = 1 ∨ d ≤ s.winCur.toNat) →
    exec p.1 s = .next (errorEntry .distanceTooFar
      { s.atBit (s.pc + p.2.2.1) with matchDist := BitVec.ofNat 16 d, distNext := false })

/-- 44_window.md rule R409: distance 32768 is valid only once the window wrapped; a valid copy of it leaves the window's
contents unchanged, advances the cursor and appends the oldest bytes, oldest first. -/
def Obligations.WholeWindowCopyKeepsWindow : Prop :=
  ∀ s : State, s.hasBits 13 → s.fieldAt s.pc 13 = 8191 →
    (Memory.wf s.win → s.winWrapped = 1 → s.hasRoom s.matchLen.toNat →
      ∃ t, exec .dist29 s = .next t ∧ t.win = s.win ∧ t.matchDist = 32768 ∧
        t.winCur.toNat = (s.winCur.toNat + s.matchLen.toNat) % 32768 ∧
        t.out = s.out ++ (List.range s.matchLen.toNat).map fun k => Memory.read s.win ((s.winCur.toNat + k) % 32768)) ∧
    (s.winWrapped ≠ 1 → exec .dist29 s = .next (errorEntry .distanceTooFar
      { s.atBit (s.pc + 13) with matchDist := 32768, distNext := false }))

/-- 20_memory.md rule R92, 60_exceptions.md rule R523: a literal, a copy, a stored block or a row that OUT has no room
for raises OUTPUT_OVERFLOW. -/
def Obligations.BoundedOutputOverflows : Prop :=
  (∀ (b : Byte) (s : State), s.outCapacity = some s.outLen →
    exec (.lit b) s = .next (errorEntry .outputOverflow s)) ∧
  (∀ p ∈ distRows, ∀ (s : State) (c : Nat), p.2.2.1 = 0 ∨ s.hasBits p.2.2.1 →
    s.winWrapped = 1 ∨ p.2.2.2 + s.fieldAt s.pc p.2.2.1 ≤ s.winCur.toNat →
    s.outCapacity = some c → s.outLen ≤ c → c < s.outLen + s.matchLen.toNat →
    ∃ u, exec p.1 s = .next (errorEntry .outputOverflow u)) ∧
  (∀ (final : BitVec 1) (s : State) (len c : Nat),
    let k := s.alignedByte
    k + 4 + len ≤ s.inLen →
    (Memory.read s.inMem k).toNat + 256 * (Memory.read s.inMem (k + 1)).toNat = len →
    (Memory.read s.inMem (k + 2)).toNat + 256 * (Memory.read s.inMem (k + 3)).toNat = 65535 - len →
    s.outCapacity = some c → s.outLen ≤ c → c < s.outLen + len →
    ∃ u, exec (.blkStored final) s = .next (errorEntry .outputOverflow u)) ∧
  (∀ p ∈ filterRows, ∀ (s : State) (c : Nat),
    let rb := s.dfWidth.toNat * s.dfPixelSize.toNat
    s.bytePos + rb ≤ s.inLen → s.outCapacity = some c → s.outLen ≤ c → c < s.outLen + rb →
    ∃ u, exec p.1 s = .next (errorEntry .outputOverflow u))

/-- 20_memory.md rule R87, 42_dynamic_header.md rule R297: where the input ends before an instruction's operands or data,
it raises INPUT_EXHAUSTED; a dynamic header needs its counts and the HCLEN lengths that its third count gives. -/
def Obligations.InputEndRaises : Prop :=
  (∀ p ∈ lengthRows, ∀ s : State, s.distTree ≠ .null → 0 < p.2.2.1 → ¬ s.hasBits p.2.2.1 →
    ∃ k, exec p.1 s = .next (errorEntry .inputExhausted (s.atBit k))) ∧
  (∀ p ∈ distRows, ∀ s : State, 0 < p.2.2.1 → ¬ s.hasBits p.2.2.1 →
    ∃ k, exec p.1 s = .next (errorEntry .inputExhausted { s.atBit k with distNext := false })) ∧
  (∀ p ∈ [(Instr.clRep, 2), (Instr.clZero3, 3), (Instr.clZero11, 7)], ∀ s : State,
    s.lensCount ≠ 0 ∨ p.1 ≠ .clRep → ¬ s.hasBits p.2 →
    ∃ k, exec p.1 s = .next (errorEntry .inputExhausted (s.atBit k))) ∧
  (∀ (final : BitVec 1) (s : State), ¬ s.hasBits (14 + 3 * (s.fieldAt (s.pc + 10) 4 + 4)) →
    ∃ u, exec (.blkDynamic final) s = .next (errorEntry .inputExhausted u)) ∧
  (∀ (final : BitVec 1) (s : State), s.inLen < s.alignedByte + 4 →
    ∃ u, exec (.blkStored final) s = .next (errorEntry .inputExhausted u)) ∧
  (∀ (final : BitVec 1) (s : State) (len : Nat),
    let k := s.alignedByte
    k + 4 ≤ s.inLen → s.inLen < k + 4 + len → s.hasRoom len →
    (Memory.read s.inMem k).toNat + 256 * (Memory.read s.inMem (k + 1)).toNat = len →
    (Memory.read s.inMem (k + 2)).toNat + 256 * (Memory.read s.inMem (k + 3)).toNat = 65535 - len →
    ∃ u, exec (.blkStored final) s = .next (errorEntry .inputExhausted u)) ∧
  (∀ p ∈ filterRows, ∀ s : State,
    let rb := s.dfWidth.toNat * s.dfPixelSize.toNat
    0 < rb → s.inLen < s.bytePos + rb → s.hasRoom rb →
    ∃ u, exec p.1 s = .next (errorEntry .inputExhausted u))

/-- 43_symbol_loop.md rule R331 to rule R334, 45_defilter.md rule R433: the reserved symbols and filter types raise
their range errors, and write nothing else. -/
def Obligations.ReservedEncodingsRaise : Prop :=
  ∀ s : State,
    exec .litRsv286 s = .next (errorEntry .litlenSymbolRange s) ∧
    exec .litRsv287 s = .next (errorEntry .litlenSymbolRange s) ∧
    exec .distRsv30 s = .next (errorEntry .distSymbolRange { s with distNext := false }) ∧
    exec .distRsv31 s = .next (errorEntry .distSymbolRange { s with distNext := false }) ∧
    ∀ ft : Byte, exec (.filtReserved ft) s = .next (errorEntry .badFilterType { s with ft := ft })

/-- 43_symbol_loop.md rule R323: a length instruction and the step after it are the back-reference as one procedure;
they differ at most in the model's own distNext, where an error ends the command. -/
def Obligations.TwoStepsAreOneBackReference : Prop :=
  ∀ p ∈ lengthRows, ∀ s : State, s.status = .busy → s.phase = .symbols → s.host = [] → s.distNext = false →
    s.distTree.symsBelow 32 = true →
    clearDistNext (match exec p.1 s with
      | .next t => if t.status = .error then .next t else step t
      | .fault f => .fault f
      | .refused r => .refused r) = clearDistNext (backRef p.2.1 s).finish

/-! ## Rows -/

/-- 45_defilter.md rule R420, rule R425, rule R427 to rule R431, rule R435: a filter instruction reconstructs its row,
appends it to OUT, makes it the row above, and goes on to the next row or completes the command; ROW_Y and COL_I are as
notes/assumptions/21.md and notes/assumptions/22.md say. -/
def Obligations.FilterInstructionsReconstructRows : Prop :=
  ∀ p ∈ filterRows, ∀ s : State,
    let rb := s.dfWidth.toNat * s.dfPixelSize.toNat
    let row := reconRow p.2.2 s.dfPixelSize.toNat s.rowAbove (Memory.readBytes s.inMem s.bytePos rb)
    let t : State := { s with
      ft := p.2.1, bytePos := s.bytePos + rb, colI := if rb = 0 then s.colI else rb - 1,
      out := s.out ++ row, outLen := s.outLen + rb,
      curRow := Memory.writeBytes s.curRow 0 row, prevRow := Memory.writeBytes s.curRow 0 row }
    Memory.wf s.curRow → s.bytePos + rb ≤ s.inLen → s.hasRoom rb →
    exec p.1 s = .next (if s.rowY.toNat + 1 < s.dfHeight.toNat then { t with rowY := s.rowY + 1 }
      else { t with phase := .done, status := .done })

/-- 45_defilter.md rule R420, rule R436: a DEFILTER command with no row left, such as one of height 0, completes; in a
step of its own (notes/assumptions/1.md, notes/assumptions/21.md). -/
def Obligations.NoRowsLeftCompletes : Prop :=
  ∀ s : State, s.status = .busy → s.host = [] → s.phase = .dfRow → s.dfHeight.toNat ≤ s.rowY.toNat →
    step s = .next { s with phase := .done, status := .done }

/-- 45_defilter.md rule R437, rule R438: a row that the forward filter of its type made of x reconstructs to x. -/
def Obligations.FilterInstructionsInvertForwardFilter : Prop :=
  ∀ p ∈ filterRows, ∀ (s : State) (x : List Byte),
    Memory.wf s.curRow → x.length = s.dfWidth.toNat * s.dfPixelSize.toNat →
    s.bytePos + x.length ≤ s.inLen → s.hasRoom x.length →
    Memory.readBytes s.inMem s.bytePos x.length = forwardRow p.2.2 s.dfPixelSize.toNat s.rowAbove x →
    ∃ t, exec p.1 s = .next t ∧ t.out = s.out ++ x ∧ (∀ i, i < x.length → Memory.read t.prevRow i = x.getD i 0)

/-- 45_defilter.md rule R432: the predictor is the candidate nearest to a + b − c, a before b before c on ties. -/
def Obligations.PaethChoosesNearest : Prop :=
  ∀ a b c : Byte,
    let p : Int := (a.toNat : Int) + b.toNat - c.toNat
    let dist : Byte → Nat := fun x => (p - x.toNat).natAbs
    let r := paethPredictor a b c
    (∀ x ∈ [a, b, c], dist r ≤ dist x) ∧
    (dist a ≤ dist b → dist a ≤ dist c → r = a) ∧
    (¬(dist a ≤ dist b ∧ dist a ≤ dist c) → dist b ≤ dist c → r = b) ∧
    (¬(dist a ≤ dist b ∧ dist a ≤ dist c) → ¬ dist b ≤ dist c → r = c)

/-! ## Commands and the host -/

/-- 46_host_interface.md rule R471, 10_state.md rule R52: CMD_INFLATE initialises and enters the block loop. -/
def Obligations.InflateCommandStarts : Prop :=
  ∀ s : State, s.status ≠ .busy →
    exec .cmdInflate s = .next { s with
      cmd := 1, bytePos := 0, bitPos := 0, out := [], outLen := 0, errClass := .none, errCode := 0,
      litTree := .null, distTree := .null, clenTree := .null, win := [], winCur := 0, winWrapped := 0,
      distNext := false, status := .busy, phase := .hdr }

/-- 46_host_interface.md rule R475, 45_defilter.md rule R421, rule R422: CMD_DEFILTER initialises, then checks the pixel
size and the input's length before the first row. -/
def Obligations.DefilterCommandStartsOrRaises : Prop :=
  ∀ s : State, s.status ≠ .busy →
    let t : State := { s with
      cmd := 2, bytePos := 0, bitPos := 0, out := [], outLen := 0, errClass := .none, errCode := 0,
      litTree := .null, distTree := .null, clenTree := .null, win := [], winCur := 0, winWrapped := 0,
      distNext := false, rowY := 0, colI := 0, status := .busy }
    let legal := s.dfPixelSize = 3 ∨ s.dfPixelSize = 4
    let need := s.dfHeight.toNat * (1 + s.dfWidth.toNat * s.dfPixelSize.toNat)
    (¬ legal → exec .cmdDefilter s = .next (errorEntry .pixelSize t)) ∧
    (legal → s.inLen < need → exec .cmdDefilter s = .next (errorEntry .rowDataShort t)) ∧
    (legal → need ≤ s.inLen → exec .cmdDefilter s = .next { t with phase := .dfRow })

/-- 46_host_interface.md rule R471, rule R473: CMD values 0 and 3 change CMD alone; while BUSY no command has a meaning,
because the host has no such move. -/
def Obligations.OtherCommandWrites : Prop :=
  ∀ s : State,
    (s.status ≠ .busy → exec .cmdNone s = .next { s with cmd := 0 } ∧
      exec .cmdReserved s = .next { s with cmd := 3 }) ∧
    (s.status = .busy → ∀ i ∈ [Instr.cmdNone, .cmdInflate, .cmdDefilter, .cmdReserved],
      exec i s = .refused .cmdWhileBusy)

/-- 46_host_interface.md rule R479, rule R486, 70_reset_and_hazards.md rule R572: the host's other moves while no command
runs, a write of a read-only field while one runs (it passes with a step of the engine, as a wait does), and a reset at
any time; what the model calls the host's moves is its own (notes/assumptions/2.md, notes/assumptions/24.md). -/
def Obligations.HostMovesAct : Prop :=
  (∀ (s : State) (rest : List HostMove), s.host = .reset :: rest →
    step s = .next { State.reset with outCapacity := s.outCapacity, host := rest }) ∧
  (∀ s : State, s.status ≠ .busy → s.host = [] → step s = .next s) ∧
  (∀ (s : State) (f : ReadOnlyField) (v : Nat) (rest : List HostMove), s.status = .busy →
    s.host = .writeReadOnly f v :: rest →
    step s = (engineAction { s with host := rest }).outcome ∧ step s = step { s with host := .wait :: rest }) ∧
  (∀ (s : State) (m : HostMove) (rest : List HostMove), s.status ≠ .busy → s.host = m :: rest →
    let t : State := { s with host := rest }
    (∀ n, m = .writeInLen n → step s = .next { t with inLen := n }) ∧
    (∀ v, m = .writeWidth v → step s = .next { t with dfWidth := v }) ∧
    (∀ v, m = .writeHeight v → step s = .next { t with dfHeight := v }) ∧
    (∀ v, m = .writePixelSize v → step s = .next { t with dfPixelSize := v }) ∧
    (∀ f v, m = .writeReadOnly f v → step s = .next t) ∧
    (m = .wait → step s = .next t) ∧
    (m = .loadOut → s.status = .done → ∃ mem, step s = .next { t with inMem := mem, inLen := s.outLen } ∧
      ∀ x, x < s.out.length → Memory.read mem x = s.out.getD x 0) ∧
    (∀ a bs, m = .writeIn a bs → Memory.wf s.inMem → ∃ mem, step s = .next { t with inMem := mem } ∧
      ∀ x, Memory.read mem x = if a ≤ x ∧ x < a + bs.length then bs.getD (x - a) 0 else Memory.read s.inMem x))

/-- 46_host_interface.md rule R472, 60_exceptions.md rule R529: while no command runs, only a command start and a
power-on reset change STATUS, the error fields or OUT. -/
def Obligations.ResultsStayUntilNextCommand : Prop :=
  ∀ s t : State, s.status ≠ .busy → step s = .next t →
    s.host.head? ≠ some .reset → s.host.head? ≠ some (.writeCmd 1) → s.host.head? ≠ some (.writeCmd 2) →
    t.status = s.status ∧ t.errClass = s.errClass ∧ t.errCode = s.errCode ∧ t.out = s.out ∧ t.outLen = s.outLen ∧
    t.phase = s.phase

/-- 46_host_interface.md rule R476, rule R477: the collaborator's checks, in their order (95_test_vectors.md H4). -/
def Obligations.BoundaryChecks : Prop :=
  (∀ (cmf flg : Byte) (rest : List Byte),
    zlibHeader (cmf :: flg :: rest) =
      if cmf.toNat % 16 ≠ 8 then .error .compressionMethod
      else if 7 < cmf.toNat / 16 ∨ (256 * cmf.toNat + flg.toNat) % 31 ≠ 0 then .error .zlibHeader
      else if flg.toNat / 32 % 2 = 1 then .error .presetDictionary
      else .ok rest) ∧
  (∀ bs : List Byte, bs.length < 2 → zlibHeader bs = .error .zlibHeader) ∧
  (∀ (compression filter interlace depth color : Byte) (p : BitVec 3),
    ihdrCheck compression filter interlace depth color = .ok p ↔
      compression = 0 ∧ filter = 0 ∧ interlace = 0 ∧ depth = 8 ∧ (color = 2 ∧ p = 3 ∨ color = 6 ∧ p = 4))

/-- 30_encoding.md rule R142: MATCH expands to codes whose base and extra bits give back its length and distance. -/
def Obligations.MatchExpandsToItsCodes : Prop :=
  ∀ L D : Nat, 3 ≤ L → L ≤ 258 → 1 ≤ D → D ≤ 32768 →
    ∃ s e t x le lb de db, expandMatch L D = (s, e, t, x) ∧
      (∃ i, (i, s, le, lb) ∈ lengthRows) ∧ e < 2 ^ le ∧ lb + e = L ∧
      (∃ i, (i, t, de, db) ∈ distRows) ∧ x < 2 ^ de ∧ db + x = D ∧ (L = 258 → s = 285 ∧ e = 0)

/-! ## Invariants and whole-machine rules -/

/-- The reset state meets every invariant. -/
def Obligations.ResetMeetsInvariants : Prop :=
  MemoriesCanonical State.reset ∧ CursorWithinInput State.reset ∧ OutputCounted State.reset ∧
  WindowHoldsOutput State.reset ∧ ErrorFieldsMatchStatus State.reset ∧ NothingStops State.reset

/-- Every step keeps the memories in their canonical form. -/
def Obligations.StepKeepsMemoriesCanonical : Prop :=
  ∀ s t : State, MemoriesCanonical s → step s = .next t → MemoriesCanonical t

/-- 10_state.md rule R32: every step keeps a running command's cursor within the input. -/
def Obligations.StepKeepsCursorWithinInput : Prop :=
  ∀ s t : State, CursorWithinInput s → step s = .next t → CursorWithinInput t

/-- 10_state.md rule R46, 20_memory.md rule R92: every step keeps OUT_LEN the length of OUT and within OUT_CAPACITY. -/
def Obligations.StepKeepsOutputCounted : Prop :=
  ∀ s t : State, OutputCounted s → step s = .next t → OutputCounted t

/-- 20_memory.md rule R104: every step of INFLATE keeps the window holding the last bytes of OUT. -/
def Obligations.StepKeepsWindowHoldsOutput : Prop :=
  ∀ s t : State, MemoriesCanonical s → WindowHoldsOutput s → step s = .next t → WindowHoldsOutput t

/-- 10_state.md rule R41, 60_exceptions.md rule R530: every step keeps the error fields in agreement with STATUS, and no
output beside an error. -/
def Obligations.StepKeepsErrorFields : Prop :=
  ∀ s t : State, ErrorFieldsMatchStatus s → step s = .next t → ErrorFieldsMatchStatus t

/-- 60_exceptions.md rule R532: from a state that meets NothingStops a step answers a next state that meets it, unless
the host's next move reads OUT while STATUS is not DONE. -/
def Obligations.StepNeverStops : Prop :=
  ∀ s : State, NothingStops s →
    (∃ t, step s = .next t ∧ NothingStops t) ∨
    (step s = .refused .outNotReadable ∧ s.host.head? = some .loadOut ∧ s.status ≠ .busy ∧ s.status ≠ .done)

/-- 46_host_interface.md rule R484: every step of a running command that leaves it running lowers the measure. -/
def Obligations.RunningStepsLowerRemaining : Prop :=
  ∀ s t : State, CursorWithinInput s → s.status = .busy → s.host.head? ≠ some .reset → step s = .next t →
    t.status = .busy → remaining t < remaining s

/-- 46_host_interface.md rule R484, 60_exceptions.md rule R532: every command ends, in DONE or ERROR, within the number
of steps its input allows. -/
def Obligations.EveryCommandEnds : Prop :=
  ∀ s : State, NothingStops s → CursorWithinInput s → s.status = .busy → s.host = [] →
    ∃ (n : Nat) (t : State), n ≤ remaining s + 1 ∧ Host.Core.run Sys2Proof.core n s = .next t ∧
      (t.status = .done ∨ t.status = .error)

/-- 41_block_dispatch.md rule R240, 45_defilter.md rule R420: a step of a running command takes a transition of the
phase table, or several in a row where one instruction spans them, or enters ERROR. -/
def Obligations.PhaseFollowsTable : Prop :=
  ∀ s t : State, s.status = .busy → s.host.head? ≠ some .reset → step s = .next t →
    t.phase = .error ∨ (s.phase, t.phase) ∈
      [(Phase.hdr, Phase.blockEnd), (.hdr, .symbols), (.hdr, .dynLens), (.stored, .blockEnd), (.dynHdr, .dynLens),
        (.dynLens, .dynLens), (.dynLens, .symbols), (.symbols, .symbols), (.symbols, .blockEnd), (.blockEnd, .hdr),
        (.blockEnd, .done), (.dfRow, .dfRow), (.dfRow, .done)]

/-- 10_state.md rule R50, 20_memory.md rule R103: no instruction writes IN, IN_LEN, the DF fields or the block's
parameter, or takes a move of the host. -/
def Obligations.InstructionsNeverWriteParameters : Prop :=
  ∀ (i : Instr) (s t : State), exec i s = .next t →
    t.inMem = s.inMem ∧ t.inLen = s.inLen ∧ t.dfWidth = s.dfWidth ∧ t.dfHeight = s.dfHeight ∧
    t.dfPixelSize = s.dfPixelSize ∧ t.outCapacity = s.outCapacity ∧ t.host = s.host

/-- 10_state.md rule R38: nothing clears WIN_WRAPPED but the start of a command and a power-on reset. -/
def Obligations.WrappedFlagStaysSet : Prop :=
  ∀ s t : State, s.winWrapped = 1 → step s = .next t →
    t.winWrapped = 1 ∨ s.host.head? = some .reset ∨
    (s.status ≠ .busy ∧ (s.host.head? = some (.writeCmd 1) ∨ s.host.head? = some (.writeCmd 2)))

/-- 10_state.md rule R33: while a command runs the cursor only moves forward. -/
def Obligations.CursorOnlyMovesForward : Prop :=
  ∀ s t : State, s.status = .busy → s.host.head? ≠ some .reset → step s = .next t → s.pc ≤ t.pc

end
end

