-- ==== Sys2Proof/Laws/Huffman.lean ====
section
/-! SUPPORT. The trees BuildTree makes hold symbols of their alphabet (40_huffman.md rule R207). -/

namespace Sys2Proof.Machine

theorem left_symsBelow {n : Nat} {t : Tree} (h : t.symsBelow n = true) : t.left.symsBelow n = true := by
  cases t with
  | node l r => simp only [Tree.symsBelow, Bool.and_eq_true] at h; exact h.1
  | _ => rfl

theorem right_symsBelow {n : Nat} {t : Tree} (h : t.symsBelow n = true) : t.right.symsBelow n = true := by
  cases t with
  | node l r => simp only [Tree.symsBelow, Bool.and_eq_true] at h; exact h.2
  | _ => rfl

theorem insert_symsBelow {n sym : Nat} (hs : sym < n) (code len : Nat) {t : Tree} (h : t.symsBelow n = true) :
    (Tree.insert sym code len t).symsBelow n = true := by
  induction len generalizing t with
  | zero => simpa [Tree.insert, Tree.symsBelow] using hs
  | succ len ih =>
    unfold Tree.insert
    split <;> simp only [Tree.symsBelow, Bool.and_eq_true]
    · exact ⟨left_symsBelow h, ih (right_symsBelow h)⟩
    · exact ⟨ih (left_symsBelow h), right_symsBelow h⟩

theorem assignCodes_symsBelow {n : Nat} (lens next : List Nat) (sym : Nat) {t : Tree}
    (hn : sym + lens.length ≤ n) (h : t.symsBelow n = true) : (assignCodes lens next sym t).symsBelow n = true := by
  induction lens generalizing next sym t with
  | nil => exact h
  | cons len lens ih =>
    rw [List.length_cons] at hn
    unfold assignCodes
    split
    · exact ih _ _ (by omega) h
    · exact ih _ _ (by omega) (insert_symsBelow (by omega) _ _ h)

theorem buildTree_symsBelow {lens : List Nat} {m : Nat} {t : Tree} (h : buildTree lens m = .ok t) :
    t.symsBelow lens.length = true := by
  unfold buildTree at h
  split at h
  · cases h; rfl
  · rename_i h1
    cases h
    have hm : (1 : Nat) ∈ lens := List.mem_of_mem_filter (h1 ▸ List.mem_singleton_self 1)
    simpa [Tree.symsBelow] using List.idxOf_lt_length_of_mem hm
  · split at h
    · cases h
      exact assignCodes_symsBelow _ _ _ (by omega) rfl
    · cases h

/-- BuildTree has one error (40_huffman.md rule R203). -/
theorem buildTree_error {lens : List Nat} {m : Nat} {e : Err} (h : buildTree lens m = .error e) :
    e = .badCodeLengths := by
  unfold buildTree at h
  split at h
  · cases h
  · cases h
  · split at h <;> cases h
    rfl

theorem symsBelow_mono {m n : Nat} {t : Tree} (hmn : m ≤ n) (h : t.symsBelow m = true) : t.symsBelow n = true := by
  induction t with
  | null => rfl
  | leaf s => simp only [Tree.symsBelow, decide_eq_true_eq] at h ⊢; omega
  | node l r hl hr =>
    simp only [Tree.symsBelow, Bool.and_eq_true] at h ⊢
    exact ⟨hl h.1, hr h.2⟩

end Sys2Proof.Machine
end

