-- ==== Sys2Proof/Laws/State.lean ====
section
/-! SUPPORT. What each named update of the state leaves in each field, all true by rfl. -/

namespace Sys2Proof.Machine

@[simp] theorem setHeader_cmd (final : BitVec 1) (type : BitVec 2) (s : State) : (setHeader final type s).cmd = s.cmd := rfl
@[simp] theorem setHeader_status (final : BitVec 1) (type : BitVec 2) (s : State) : (setHeader final type s).status = s.status := rfl
@[simp] theorem setHeader_errClass (final : BitVec 1) (type : BitVec 2) (s : State) : (setHeader final type s).errClass = s.errClass := rfl
@[simp] theorem setHeader_errCode (final : BitVec 1) (type : BitVec 2) (s : State) : (setHeader final type s).errCode = s.errCode := rfl
@[simp] theorem setHeader_inLen (final : BitVec 1) (type : BitVec 2) (s : State) : (setHeader final type s).inLen = s.inLen := rfl
@[simp] theorem setHeader_outLen (final : BitVec 1) (type : BitVec 2) (s : State) : (setHeader final type s).outLen = s.outLen := rfl
@[simp] theorem setHeader_dfWidth (final : BitVec 1) (type : BitVec 2) (s : State) : (setHeader final type s).dfWidth = s.dfWidth := rfl
@[simp] theorem setHeader_dfHeight (final : BitVec 1) (type : BitVec 2) (s : State) : (setHeader final type s).dfHeight = s.dfHeight := rfl
@[simp] theorem setHeader_dfPixelSize (final : BitVec 1) (type : BitVec 2) (s : State) : (setHeader final type s).dfPixelSize = s.dfPixelSize := rfl
@[simp] theorem setHeader_inMem (final : BitVec 1) (type : BitVec 2) (s : State) : (setHeader final type s).inMem = s.inMem := rfl
@[simp] theorem setHeader_out (final : BitVec 1) (type : BitVec 2) (s : State) : (setHeader final type s).out = s.out := rfl
@[simp] theorem setHeader_bytePos (final : BitVec 1) (type : BitVec 2) (s : State) : (setHeader final type s).bytePos = s.bytePos := rfl
@[simp] theorem setHeader_bitPos (final : BitVec 1) (type : BitVec 2) (s : State) : (setHeader final type s).bitPos = s.bitPos := rfl
@[simp] theorem setHeader_phase (final : BitVec 1) (type : BitVec 2) (s : State) : (setHeader final type s).phase = s.phase := rfl
@[simp] theorem setHeader_bfinal (final : BitVec 1) (type : BitVec 2) (s : State) : (setHeader final type s).bfinal = final := rfl
@[simp] theorem setHeader_btype (final : BitVec 1) (type : BitVec 2) (s : State) : (setHeader final type s).btype = type := rfl
@[simp] theorem setHeader_litTree (final : BitVec 1) (type : BitVec 2) (s : State) : (setHeader final type s).litTree = s.litTree := rfl
@[simp] theorem setHeader_distTree (final : BitVec 1) (type : BitVec 2) (s : State) : (setHeader final type s).distTree = s.distTree := rfl
@[simp] theorem setHeader_clenTree (final : BitVec 1) (type : BitVec 2) (s : State) : (setHeader final type s).clenTree = s.clenTree := rfl
@[simp] theorem setHeader_hlit (final : BitVec 1) (type : BitVec 2) (s : State) : (setHeader final type s).hlit = s.hlit := rfl
@[simp] theorem setHeader_hdist (final : BitVec 1) (type : BitVec 2) (s : State) : (setHeader final type s).hdist = s.hdist := rfl
@[simp] theorem setHeader_hclen (final : BitVec 1) (type : BitVec 2) (s : State) : (setHeader final type s).hclen = s.hclen := rfl
@[simp] theorem setHeader_clenLens (final : BitVec 1) (type : BitVec 2) (s : State) : (setHeader final type s).clenLens = s.clenLens := rfl
@[simp] theorem setHeader_lens (final : BitVec 1) (type : BitVec 2) (s : State) : (setHeader final type s).lens = s.lens := rfl
@[simp] theorem setHeader_lensCount (final : BitVec 1) (type : BitVec 2) (s : State) : (setHeader final type s).lensCount = s.lensCount := rfl
@[simp] theorem setHeader_storedRemain (final : BitVec 1) (type : BitVec 2) (s : State) : (setHeader final type s).storedRemain = s.storedRemain := rfl
@[simp] theorem setHeader_matchLen (final : BitVec 1) (type : BitVec 2) (s : State) : (setHeader final type s).matchLen = s.matchLen := rfl
@[simp] theorem setHeader_matchDist (final : BitVec 1) (type : BitVec 2) (s : State) : (setHeader final type s).matchDist = s.matchDist := rfl
@[simp] theorem setHeader_win (final : BitVec 1) (type : BitVec 2) (s : State) : (setHeader final type s).win = s.win := rfl
@[simp] theorem setHeader_winCur (final : BitVec 1) (type : BitVec 2) (s : State) : (setHeader final type s).winCur = s.winCur := rfl
@[simp] theorem setHeader_winWrapped (final : BitVec 1) (type : BitVec 2) (s : State) : (setHeader final type s).winWrapped = s.winWrapped := rfl
@[simp] theorem setHeader_rowY (final : BitVec 1) (type : BitVec 2) (s : State) : (setHeader final type s).rowY = s.rowY := rfl
@[simp] theorem setHeader_colI (final : BitVec 1) (type : BitVec 2) (s : State) : (setHeader final type s).colI = s.colI := rfl
@[simp] theorem setHeader_ft (final : BitVec 1) (type : BitVec 2) (s : State) : (setHeader final type s).ft = s.ft := rfl
@[simp] theorem setHeader_prevRow (final : BitVec 1) (type : BitVec 2) (s : State) : (setHeader final type s).prevRow = s.prevRow := rfl
@[simp] theorem setHeader_curRow (final : BitVec 1) (type : BitVec 2) (s : State) : (setHeader final type s).curRow = s.curRow := rfl
@[simp] theorem setHeader_distNext (final : BitVec 1) (type : BitVec 2) (s : State) : (setHeader final type s).distNext = s.distNext := rfl
@[simp] theorem setHeader_outCapacity (final : BitVec 1) (type : BitVec 2) (s : State) : (setHeader final type s).outCapacity = s.outCapacity := rfl
@[simp] theorem setHeader_host (final : BitVec 1) (type : BitVec 2) (s : State) : (setHeader final type s).host = s.host := rfl

@[simp] theorem errorEntry_cmd (e : Err) (s : State) : (errorEntry e s).cmd = s.cmd := rfl
@[simp] theorem errorEntry_status (e : Err) (s : State) : (errorEntry e s).status = .error := rfl
@[simp] theorem errorEntry_errClass (e : Err) (s : State) : (errorEntry e s).errClass = e.errClass := rfl
@[simp] theorem errorEntry_errCode (e : Err) (s : State) : (errorEntry e s).errCode = e.code := rfl
@[simp] theorem errorEntry_inLen (e : Err) (s : State) : (errorEntry e s).inLen = s.inLen := rfl
@[simp] theorem errorEntry_outLen (e : Err) (s : State) : (errorEntry e s).outLen = 0 := rfl
@[simp] theorem errorEntry_dfWidth (e : Err) (s : State) : (errorEntry e s).dfWidth = s.dfWidth := rfl
@[simp] theorem errorEntry_dfHeight (e : Err) (s : State) : (errorEntry e s).dfHeight = s.dfHeight := rfl
@[simp] theorem errorEntry_dfPixelSize (e : Err) (s : State) : (errorEntry e s).dfPixelSize = s.dfPixelSize := rfl
@[simp] theorem errorEntry_inMem (e : Err) (s : State) : (errorEntry e s).inMem = s.inMem := rfl
@[simp] theorem errorEntry_out (e : Err) (s : State) : (errorEntry e s).out = [] := rfl
@[simp] theorem errorEntry_bytePos (e : Err) (s : State) : (errorEntry e s).bytePos = s.bytePos := rfl
@[simp] theorem errorEntry_bitPos (e : Err) (s : State) : (errorEntry e s).bitPos = s.bitPos := rfl
@[simp] theorem errorEntry_phase (e : Err) (s : State) : (errorEntry e s).phase = .error := rfl
@[simp] theorem errorEntry_bfinal (e : Err) (s : State) : (errorEntry e s).bfinal = s.bfinal := rfl
@[simp] theorem errorEntry_btype (e : Err) (s : State) : (errorEntry e s).btype = s.btype := rfl
@[simp] theorem errorEntry_litTree (e : Err) (s : State) : (errorEntry e s).litTree = s.litTree := rfl
@[simp] theorem errorEntry_distTree (e : Err) (s : State) : (errorEntry e s).distTree = s.distTree := rfl
@[simp] theorem errorEntry_clenTree (e : Err) (s : State) : (errorEntry e s).clenTree = s.clenTree := rfl
@[simp] theorem errorEntry_hlit (e : Err) (s : State) : (errorEntry e s).hlit = s.hlit := rfl
@[simp] theorem errorEntry_hdist (e : Err) (s : State) : (errorEntry e s).hdist = s.hdist := rfl
@[simp] theorem errorEntry_hclen (e : Err) (s : State) : (errorEntry e s).hclen = s.hclen := rfl
@[simp] theorem errorEntry_clenLens (e : Err) (s : State) : (errorEntry e s).clenLens = s.clenLens := rfl
@[simp] theorem errorEntry_lens (e : Err) (s : State) : (errorEntry e s).lens = s.lens := rfl
@[simp] theorem errorEntry_lensCount (e : Err) (s : State) : (errorEntry e s).lensCount = s.lensCount := rfl
@[simp] theorem errorEntry_storedRemain (e : Err) (s : State) : (errorEntry e s).storedRemain = s.storedRemain := rfl
@[simp] theorem errorEntry_matchLen (e : Err) (s : State) : (errorEntry e s).matchLen = s.matchLen := rfl
@[simp] theorem errorEntry_matchDist (e : Err) (s : State) : (errorEntry e s).matchDist = s.matchDist := rfl
@[simp] theorem errorEntry_win (e : Err) (s : State) : (errorEntry e s).win = s.win := rfl
@[simp] theorem errorEntry_winCur (e : Err) (s : State) : (errorEntry e s).winCur = s.winCur := rfl
@[simp] theorem errorEntry_winWrapped (e : Err) (s : State) : (errorEntry e s).winWrapped = s.winWrapped := rfl
@[simp] theorem errorEntry_rowY (e : Err) (s : State) : (errorEntry e s).rowY = s.rowY := rfl
@[simp] theorem errorEntry_colI (e : Err) (s : State) : (errorEntry e s).colI = s.colI := rfl
@[simp] theorem errorEntry_ft (e : Err) (s : State) : (errorEntry e s).ft = s.ft := rfl
@[simp] theorem errorEntry_prevRow (e : Err) (s : State) : (errorEntry e s).prevRow = s.prevRow := rfl
@[simp] theorem errorEntry_curRow (e : Err) (s : State) : (errorEntry e s).curRow = s.curRow := rfl
@[simp] theorem errorEntry_distNext (e : Err) (s : State) : (errorEntry e s).distNext = s.distNext := rfl
@[simp] theorem errorEntry_outCapacity (e : Err) (s : State) : (errorEntry e s).outCapacity = s.outCapacity := rfl
@[simp] theorem errorEntry_host (e : Err) (s : State) : (errorEntry e s).host = s.host := rfl

@[simp] theorem complete_cmd (s : State) : (complete s).cmd = s.cmd := rfl
@[simp] theorem complete_status (s : State) : (complete s).status = .done := rfl
@[simp] theorem complete_errClass (s : State) : (complete s).errClass = s.errClass := rfl
@[simp] theorem complete_errCode (s : State) : (complete s).errCode = s.errCode := rfl
@[simp] theorem complete_inLen (s : State) : (complete s).inLen = s.inLen := rfl
@[simp] theorem complete_outLen (s : State) : (complete s).outLen = s.outLen := rfl
@[simp] theorem complete_dfWidth (s : State) : (complete s).dfWidth = s.dfWidth := rfl
@[simp] theorem complete_dfHeight (s : State) : (complete s).dfHeight = s.dfHeight := rfl
@[simp] theorem complete_dfPixelSize (s : State) : (complete s).dfPixelSize = s.dfPixelSize := rfl
@[simp] theorem complete_inMem (s : State) : (complete s).inMem = s.inMem := rfl
@[simp] theorem complete_out (s : State) : (complete s).out = s.out := rfl
@[simp] theorem complete_bytePos (s : State) : (complete s).bytePos = s.bytePos := rfl
@[simp] theorem complete_bitPos (s : State) : (complete s).bitPos = s.bitPos := rfl
@[simp] theorem complete_phase (s : State) : (complete s).phase = .done := rfl
@[simp] theorem complete_bfinal (s : State) : (complete s).bfinal = s.bfinal := rfl
@[simp] theorem complete_btype (s : State) : (complete s).btype = s.btype := rfl
@[simp] theorem complete_litTree (s : State) : (complete s).litTree = s.litTree := rfl
@[simp] theorem complete_distTree (s : State) : (complete s).distTree = s.distTree := rfl
@[simp] theorem complete_clenTree (s : State) : (complete s).clenTree = s.clenTree := rfl
@[simp] theorem complete_hlit (s : State) : (complete s).hlit = s.hlit := rfl
@[simp] theorem complete_hdist (s : State) : (complete s).hdist = s.hdist := rfl
@[simp] theorem complete_hclen (s : State) : (complete s).hclen = s.hclen := rfl
@[simp] theorem complete_clenLens (s : State) : (complete s).clenLens = s.clenLens := rfl
@[simp] theorem complete_lens (s : State) : (complete s).lens = s.lens := rfl
@[simp] theorem complete_lensCount (s : State) : (complete s).lensCount = s.lensCount := rfl
@[simp] theorem complete_storedRemain (s : State) : (complete s).storedRemain = s.storedRemain := rfl
@[simp] theorem complete_matchLen (s : State) : (complete s).matchLen = s.matchLen := rfl
@[simp] theorem complete_matchDist (s : State) : (complete s).matchDist = s.matchDist := rfl
@[simp] theorem complete_win (s : State) : (complete s).win = s.win := rfl
@[simp] theorem complete_winCur (s : State) : (complete s).winCur = s.winCur := rfl
@[simp] theorem complete_winWrapped (s : State) : (complete s).winWrapped = s.winWrapped := rfl
@[simp] theorem complete_rowY (s : State) : (complete s).rowY = s.rowY := rfl
@[simp] theorem complete_colI (s : State) : (complete s).colI = s.colI := rfl
@[simp] theorem complete_ft (s : State) : (complete s).ft = s.ft := rfl
@[simp] theorem complete_prevRow (s : State) : (complete s).prevRow = s.prevRow := rfl
@[simp] theorem complete_curRow (s : State) : (complete s).curRow = s.curRow := rfl
@[simp] theorem complete_distNext (s : State) : (complete s).distNext = s.distNext := rfl
@[simp] theorem complete_outCapacity (s : State) : (complete s).outCapacity = s.outCapacity := rfl
@[simp] theorem complete_host (s : State) : (complete s).host = s.host := rfl

@[simp] theorem initCommand_cmd (s : State) : (initCommand s).cmd = s.cmd := rfl
@[simp] theorem initCommand_status (s : State) : (initCommand s).status = s.status := rfl
@[simp] theorem initCommand_errClass (s : State) : (initCommand s).errClass = .none := rfl
@[simp] theorem initCommand_errCode (s : State) : (initCommand s).errCode = 0 := rfl
@[simp] theorem initCommand_inLen (s : State) : (initCommand s).inLen = s.inLen := rfl
@[simp] theorem initCommand_outLen (s : State) : (initCommand s).outLen = 0 := rfl
@[simp] theorem initCommand_dfWidth (s : State) : (initCommand s).dfWidth = s.dfWidth := rfl
@[simp] theorem initCommand_dfHeight (s : State) : (initCommand s).dfHeight = s.dfHeight := rfl
@[simp] theorem initCommand_dfPixelSize (s : State) : (initCommand s).dfPixelSize = s.dfPixelSize := rfl
@[simp] theorem initCommand_inMem (s : State) : (initCommand s).inMem = s.inMem := rfl
@[simp] theorem initCommand_out (s : State) : (initCommand s).out = [] := rfl
@[simp] theorem initCommand_bytePos (s : State) : (initCommand s).bytePos = 0 := rfl
@[simp] theorem initCommand_bitPos (s : State) : (initCommand s).bitPos = 0 := rfl
@[simp] theorem initCommand_phase (s : State) : (initCommand s).phase = s.phase := rfl
@[simp] theorem initCommand_bfinal (s : State) : (initCommand s).bfinal = s.bfinal := rfl
@[simp] theorem initCommand_btype (s : State) : (initCommand s).btype = s.btype := rfl
@[simp] theorem initCommand_litTree (s : State) : (initCommand s).litTree = .null := rfl
@[simp] theorem initCommand_distTree (s : State) : (initCommand s).distTree = .null := rfl
@[simp] theorem initCommand_clenTree (s : State) : (initCommand s).clenTree = .null := rfl
@[simp] theorem initCommand_hlit (s : State) : (initCommand s).hlit = s.hlit := rfl
@[simp] theorem initCommand_hdist (s : State) : (initCommand s).hdist = s.hdist := rfl
@[simp] theorem initCommand_hclen (s : State) : (initCommand s).hclen = s.hclen := rfl
@[simp] theorem initCommand_clenLens (s : State) : (initCommand s).clenLens = s.clenLens := rfl
@[simp] theorem initCommand_lens (s : State) : (initCommand s).lens = s.lens := rfl
@[simp] theorem initCommand_lensCount (s : State) : (initCommand s).lensCount = s.lensCount := rfl
@[simp] theorem initCommand_storedRemain (s : State) : (initCommand s).storedRemain = s.storedRemain := rfl
@[simp] theorem initCommand_matchLen (s : State) : (initCommand s).matchLen = s.matchLen := rfl
@[simp] theorem initCommand_matchDist (s : State) : (initCommand s).matchDist = s.matchDist := rfl
@[simp] theorem initCommand_win (s : State) : (initCommand s).win = [] := rfl
@[simp] theorem initCommand_winCur (s : State) : (initCommand s).winCur = 0 := rfl
@[simp] theorem initCommand_winWrapped (s : State) : (initCommand s).winWrapped = 0 := rfl
@[simp] theorem initCommand_rowY (s : State) : (initCommand s).rowY = s.rowY := rfl
@[simp] theorem initCommand_colI (s : State) : (initCommand s).colI = s.colI := rfl
@[simp] theorem initCommand_ft (s : State) : (initCommand s).ft = s.ft := rfl
@[simp] theorem initCommand_prevRow (s : State) : (initCommand s).prevRow = s.prevRow := rfl
@[simp] theorem initCommand_curRow (s : State) : (initCommand s).curRow = s.curRow := rfl
@[simp] theorem initCommand_distNext (s : State) : (initCommand s).distNext = false := rfl
@[simp] theorem initCommand_outCapacity (s : State) : (initCommand s).outCapacity = s.outCapacity := rfl
@[simp] theorem initCommand_host (s : State) : (initCommand s).host = s.host := rfl

@[simp] theorem initDefilter_cmd (s : State) : (initDefilter s).cmd = s.cmd := rfl
@[simp] theorem initDefilter_status (s : State) : (initDefilter s).status = s.status := rfl
@[simp] theorem initDefilter_errClass (s : State) : (initDefilter s).errClass = s.errClass := rfl
@[simp] theorem initDefilter_errCode (s : State) : (initDefilter s).errCode = s.errCode := rfl
@[simp] theorem initDefilter_inLen (s : State) : (initDefilter s).inLen = s.inLen := rfl
@[simp] theorem initDefilter_outLen (s : State) : (initDefilter s).outLen = s.outLen := rfl
@[simp] theorem initDefilter_dfWidth (s : State) : (initDefilter s).dfWidth = s.dfWidth := rfl
@[simp] theorem initDefilter_dfHeight (s : State) : (initDefilter s).dfHeight = s.dfHeight := rfl
@[simp] theorem initDefilter_dfPixelSize (s : State) : (initDefilter s).dfPixelSize = s.dfPixelSize := rfl
@[simp] theorem initDefilter_inMem (s : State) : (initDefilter s).inMem = s.inMem := rfl
@[simp] theorem initDefilter_out (s : State) : (initDefilter s).out = s.out := rfl
@[simp] theorem initDefilter_bytePos (s : State) : (initDefilter s).bytePos = s.bytePos := rfl
@[simp] theorem initDefilter_bitPos (s : State) : (initDefilter s).bitPos = s.bitPos := rfl
@[simp] theorem initDefilter_phase (s : State) : (initDefilter s).phase = s.phase := rfl
@[simp] theorem initDefilter_bfinal (s : State) : (initDefilter s).bfinal = s.bfinal := rfl
@[simp] theorem initDefilter_btype (s : State) : (initDefilter s).btype = s.btype := rfl
@[simp] theorem initDefilter_litTree (s : State) : (initDefilter s).litTree = s.litTree := rfl
@[simp] theorem initDefilter_distTree (s : State) : (initDefilter s).distTree = s.distTree := rfl
@[simp] theorem initDefilter_clenTree (s : State) : (initDefilter s).clenTree = s.clenTree := rfl
@[simp] theorem initDefilter_hlit (s : State) : (initDefilter s).hlit = s.hlit := rfl
@[simp] theorem initDefilter_hdist (s : State) : (initDefilter s).hdist = s.hdist := rfl
@[simp] theorem initDefilter_hclen (s : State) : (initDefilter s).hclen = s.hclen := rfl
@[simp] theorem initDefilter_clenLens (s : State) : (initDefilter s).clenLens = s.clenLens := rfl
@[simp] theorem initDefilter_lens (s : State) : (initDefilter s).lens = s.lens := rfl
@[simp] theorem initDefilter_lensCount (s : State) : (initDefilter s).lensCount = s.lensCount := rfl
@[simp] theorem initDefilter_storedRemain (s : State) : (initDefilter s).storedRemain = s.storedRemain := rfl
@[simp] theorem initDefilter_matchLen (s : State) : (initDefilter s).matchLen = s.matchLen := rfl
@[simp] theorem initDefilter_matchDist (s : State) : (initDefilter s).matchDist = s.matchDist := rfl
@[simp] theorem initDefilter_win (s : State) : (initDefilter s).win = s.win := rfl
@[simp] theorem initDefilter_winCur (s : State) : (initDefilter s).winCur = s.winCur := rfl
@[simp] theorem initDefilter_winWrapped (s : State) : (initDefilter s).winWrapped = s.winWrapped := rfl
@[simp] theorem initDefilter_rowY (s : State) : (initDefilter s).rowY = 0 := rfl
@[simp] theorem initDefilter_colI (s : State) : (initDefilter s).colI = 0 := rfl
@[simp] theorem initDefilter_ft (s : State) : (initDefilter s).ft = s.ft := rfl
@[simp] theorem initDefilter_prevRow (s : State) : (initDefilter s).prevRow = s.prevRow := rfl
@[simp] theorem initDefilter_curRow (s : State) : (initDefilter s).curRow = s.curRow := rfl
@[simp] theorem initDefilter_distNext (s : State) : (initDefilter s).distNext = s.distNext := rfl
@[simp] theorem initDefilter_outCapacity (s : State) : (initDefilter s).outCapacity = s.outCapacity := rfl
@[simp] theorem initDefilter_host (s : State) : (initDefilter s).host = s.host := rfl

@[simp] theorem winWrite_cmd (b : Byte) (s : State) : (winWrite b s).cmd = s.cmd := rfl
@[simp] theorem winWrite_status (b : Byte) (s : State) : (winWrite b s).status = s.status := rfl
@[simp] theorem winWrite_errClass (b : Byte) (s : State) : (winWrite b s).errClass = s.errClass := rfl
@[simp] theorem winWrite_errCode (b : Byte) (s : State) : (winWrite b s).errCode = s.errCode := rfl
@[simp] theorem winWrite_inLen (b : Byte) (s : State) : (winWrite b s).inLen = s.inLen := rfl
@[simp] theorem winWrite_outLen (b : Byte) (s : State) : (winWrite b s).outLen = s.outLen := rfl
@[simp] theorem winWrite_dfWidth (b : Byte) (s : State) : (winWrite b s).dfWidth = s.dfWidth := rfl
@[simp] theorem winWrite_dfHeight (b : Byte) (s : State) : (winWrite b s).dfHeight = s.dfHeight := rfl
@[simp] theorem winWrite_dfPixelSize (b : Byte) (s : State) : (winWrite b s).dfPixelSize = s.dfPixelSize := rfl
@[simp] theorem winWrite_inMem (b : Byte) (s : State) : (winWrite b s).inMem = s.inMem := rfl
@[simp] theorem winWrite_out (b : Byte) (s : State) : (winWrite b s).out = s.out := rfl
@[simp] theorem winWrite_bytePos (b : Byte) (s : State) : (winWrite b s).bytePos = s.bytePos := rfl
@[simp] theorem winWrite_bitPos (b : Byte) (s : State) : (winWrite b s).bitPos = s.bitPos := rfl
@[simp] theorem winWrite_phase (b : Byte) (s : State) : (winWrite b s).phase = s.phase := rfl
@[simp] theorem winWrite_bfinal (b : Byte) (s : State) : (winWrite b s).bfinal = s.bfinal := rfl
@[simp] theorem winWrite_btype (b : Byte) (s : State) : (winWrite b s).btype = s.btype := rfl
@[simp] theorem winWrite_litTree (b : Byte) (s : State) : (winWrite b s).litTree = s.litTree := rfl
@[simp] theorem winWrite_distTree (b : Byte) (s : State) : (winWrite b s).distTree = s.distTree := rfl
@[simp] theorem winWrite_clenTree (b : Byte) (s : State) : (winWrite b s).clenTree = s.clenTree := rfl
@[simp] theorem winWrite_hlit (b : Byte) (s : State) : (winWrite b s).hlit = s.hlit := rfl
@[simp] theorem winWrite_hdist (b : Byte) (s : State) : (winWrite b s).hdist = s.hdist := rfl
@[simp] theorem winWrite_hclen (b : Byte) (s : State) : (winWrite b s).hclen = s.hclen := rfl
@[simp] theorem winWrite_clenLens (b : Byte) (s : State) : (winWrite b s).clenLens = s.clenLens := rfl
@[simp] theorem winWrite_lens (b : Byte) (s : State) : (winWrite b s).lens = s.lens := rfl
@[simp] theorem winWrite_lensCount (b : Byte) (s : State) : (winWrite b s).lensCount = s.lensCount := rfl
@[simp] theorem winWrite_storedRemain (b : Byte) (s : State) : (winWrite b s).storedRemain = s.storedRemain := rfl
@[simp] theorem winWrite_matchLen (b : Byte) (s : State) : (winWrite b s).matchLen = s.matchLen := rfl
@[simp] theorem winWrite_matchDist (b : Byte) (s : State) : (winWrite b s).matchDist = s.matchDist := rfl
@[simp] theorem winWrite_win (b : Byte) (s : State) : (winWrite b s).win = Memory.write s.win s.winCur.toNat b := rfl
@[simp] theorem winWrite_winCur (b : Byte) (s : State) : (winWrite b s).winCur = s.winCur + 1 := rfl
@[simp] theorem winWrite_winWrapped (b : Byte) (s : State) : (winWrite b s).winWrapped = wrappedAfter s.winCur s.winWrapped := rfl
@[simp] theorem winWrite_rowY (b : Byte) (s : State) : (winWrite b s).rowY = s.rowY := rfl
@[simp] theorem winWrite_colI (b : Byte) (s : State) : (winWrite b s).colI = s.colI := rfl
@[simp] theorem winWrite_ft (b : Byte) (s : State) : (winWrite b s).ft = s.ft := rfl
@[simp] theorem winWrite_prevRow (b : Byte) (s : State) : (winWrite b s).prevRow = s.prevRow := rfl
@[simp] theorem winWrite_curRow (b : Byte) (s : State) : (winWrite b s).curRow = s.curRow := rfl
@[simp] theorem winWrite_distNext (b : Byte) (s : State) : (winWrite b s).distNext = s.distNext := rfl
@[simp] theorem winWrite_outCapacity (b : Byte) (s : State) : (winWrite b s).outCapacity = s.outCapacity := rfl
@[simp] theorem winWrite_host (b : Byte) (s : State) : (winWrite b s).host = s.host := rfl

@[simp] theorem setCmd_cmd (v : BitVec 2) (s : State) : (setCmd v s).cmd = v := rfl
@[simp] theorem setCmd_status (v : BitVec 2) (s : State) : (setCmd v s).status = s.status := rfl
@[simp] theorem setCmd_errClass (v : BitVec 2) (s : State) : (setCmd v s).errClass = s.errClass := rfl
@[simp] theorem setCmd_errCode (v : BitVec 2) (s : State) : (setCmd v s).errCode = s.errCode := rfl
@[simp] theorem setCmd_inLen (v : BitVec 2) (s : State) : (setCmd v s).inLen = s.inLen := rfl
@[simp] theorem setCmd_outLen (v : BitVec 2) (s : State) : (setCmd v s).outLen = s.outLen := rfl
@[simp] theorem setCmd_dfWidth (v : BitVec 2) (s : State) : (setCmd v s).dfWidth = s.dfWidth := rfl
@[simp] theorem setCmd_dfHeight (v : BitVec 2) (s : State) : (setCmd v s).dfHeight = s.dfHeight := rfl
@[simp] theorem setCmd_dfPixelSize (v : BitVec 2) (s : State) : (setCmd v s).dfPixelSize = s.dfPixelSize := rfl
@[simp] theorem setCmd_inMem (v : BitVec 2) (s : State) : (setCmd v s).inMem = s.inMem := rfl
@[simp] theorem setCmd_out (v : BitVec 2) (s : State) : (setCmd v s).out = s.out := rfl
@[simp] theorem setCmd_bytePos (v : BitVec 2) (s : State) : (setCmd v s).bytePos = s.bytePos := rfl
@[simp] theorem setCmd_bitPos (v : BitVec 2) (s : State) : (setCmd v s).bitPos = s.bitPos := rfl
@[simp] theorem setCmd_phase (v : BitVec 2) (s : State) : (setCmd v s).phase = s.phase := rfl
@[simp] theorem setCmd_bfinal (v : BitVec 2) (s : State) : (setCmd v s).bfinal = s.bfinal := rfl
@[simp] theorem setCmd_btype (v : BitVec 2) (s : State) : (setCmd v s).btype = s.btype := rfl
@[simp] theorem setCmd_litTree (v : BitVec 2) (s : State) : (setCmd v s).litTree = s.litTree := rfl
@[simp] theorem setCmd_distTree (v : BitVec 2) (s : State) : (setCmd v s).distTree = s.distTree := rfl
@[simp] theorem setCmd_clenTree (v : BitVec 2) (s : State) : (setCmd v s).clenTree = s.clenTree := rfl
@[simp] theorem setCmd_hlit (v : BitVec 2) (s : State) : (setCmd v s).hlit = s.hlit := rfl
@[simp] theorem setCmd_hdist (v : BitVec 2) (s : State) : (setCmd v s).hdist = s.hdist := rfl
@[simp] theorem setCmd_hclen (v : BitVec 2) (s : State) : (setCmd v s).hclen = s.hclen := rfl
@[simp] theorem setCmd_clenLens (v : BitVec 2) (s : State) : (setCmd v s).clenLens = s.clenLens := rfl
@[simp] theorem setCmd_lens (v : BitVec 2) (s : State) : (setCmd v s).lens = s.lens := rfl
@[simp] theorem setCmd_lensCount (v : BitVec 2) (s : State) : (setCmd v s).lensCount = s.lensCount := rfl
@[simp] theorem setCmd_storedRemain (v : BitVec 2) (s : State) : (setCmd v s).storedRemain = s.storedRemain := rfl
@[simp] theorem setCmd_matchLen (v : BitVec 2) (s : State) : (setCmd v s).matchLen = s.matchLen := rfl
@[simp] theorem setCmd_matchDist (v : BitVec 2) (s : State) : (setCmd v s).matchDist = s.matchDist := rfl
@[simp] theorem setCmd_win (v : BitVec 2) (s : State) : (setCmd v s).win = s.win := rfl
@[simp] theorem setCmd_winCur (v : BitVec 2) (s : State) : (setCmd v s).winCur = s.winCur := rfl
@[simp] theorem setCmd_winWrapped (v : BitVec 2) (s : State) : (setCmd v s).winWrapped = s.winWrapped := rfl
@[simp] theorem setCmd_rowY (v : BitVec 2) (s : State) : (setCmd v s).rowY = s.rowY := rfl
@[simp] theorem setCmd_colI (v : BitVec 2) (s : State) : (setCmd v s).colI = s.colI := rfl
@[simp] theorem setCmd_ft (v : BitVec 2) (s : State) : (setCmd v s).ft = s.ft := rfl
@[simp] theorem setCmd_prevRow (v : BitVec 2) (s : State) : (setCmd v s).prevRow = s.prevRow := rfl
@[simp] theorem setCmd_curRow (v : BitVec 2) (s : State) : (setCmd v s).curRow = s.curRow := rfl
@[simp] theorem setCmd_distNext (v : BitVec 2) (s : State) : (setCmd v s).distNext = s.distNext := rfl
@[simp] theorem setCmd_outCapacity (v : BitVec 2) (s : State) : (setCmd v s).outCapacity = s.outCapacity := rfl
@[simp] theorem setCmd_host (v : BitVec 2) (s : State) : (setCmd v s).host = s.host := rfl

@[simp] theorem atBit_cmd (s : State) (k : Nat) : (s.atBit k).cmd = s.cmd := rfl
@[simp] theorem atBit_status (s : State) (k : Nat) : (s.atBit k).status = s.status := rfl
@[simp] theorem atBit_errClass (s : State) (k : Nat) : (s.atBit k).errClass = s.errClass := rfl
@[simp] theorem atBit_errCode (s : State) (k : Nat) : (s.atBit k).errCode = s.errCode := rfl
@[simp] theorem atBit_inLen (s : State) (k : Nat) : (s.atBit k).inLen = s.inLen := rfl
@[simp] theorem atBit_outLen (s : State) (k : Nat) : (s.atBit k).outLen = s.outLen := rfl
@[simp] theorem atBit_dfWidth (s : State) (k : Nat) : (s.atBit k).dfWidth = s.dfWidth := rfl
@[simp] theorem atBit_dfHeight (s : State) (k : Nat) : (s.atBit k).dfHeight = s.dfHeight := rfl
@[simp] theorem atBit_dfPixelSize (s : State) (k : Nat) : (s.atBit k).dfPixelSize = s.dfPixelSize := rfl
@[simp] theorem atBit_inMem (s : State) (k : Nat) : (s.atBit k).inMem = s.inMem := rfl
@[simp] theorem atBit_out (s : State) (k : Nat) : (s.atBit k).out = s.out := rfl
@[simp] theorem atBit_bytePos (s : State) (k : Nat) : (s.atBit k).bytePos = k / 8 := rfl
@[simp] theorem atBit_bitPos (s : State) (k : Nat) : (s.atBit k).bitPos = BitVec.ofNat 3 (k % 8) := rfl
@[simp] theorem atBit_phase (s : State) (k : Nat) : (s.atBit k).phase = s.phase := rfl
@[simp] theorem atBit_bfinal (s : State) (k : Nat) : (s.atBit k).bfinal = s.bfinal := rfl
@[simp] theorem atBit_btype (s : State) (k : Nat) : (s.atBit k).btype = s.btype := rfl
@[simp] theorem atBit_litTree (s : State) (k : Nat) : (s.atBit k).litTree = s.litTree := rfl
@[simp] theorem atBit_distTree (s : State) (k : Nat) : (s.atBit k).distTree = s.distTree := rfl
@[simp] theorem atBit_clenTree (s : State) (k : Nat) : (s.atBit k).clenTree = s.clenTree := rfl
@[simp] theorem atBit_hlit (s : State) (k : Nat) : (s.atBit k).hlit = s.hlit := rfl
@[simp] theorem atBit_hdist (s : State) (k : Nat) : (s.atBit k).hdist = s.hdist := rfl
@[simp] theorem atBit_hclen (s : State) (k : Nat) : (s.atBit k).hclen = s.hclen := rfl
@[simp] theorem atBit_clenLens (s : State) (k : Nat) : (s.atBit k).clenLens = s.clenLens := rfl
@[simp] theorem atBit_lens (s : State) (k : Nat) : (s.atBit k).lens = s.lens := rfl
@[simp] theorem atBit_lensCount (s : State) (k : Nat) : (s.atBit k).lensCount = s.lensCount := rfl
@[simp] theorem atBit_storedRemain (s : State) (k : Nat) : (s.atBit k).storedRemain = s.storedRemain := rfl
@[simp] theorem atBit_matchLen (s : State) (k : Nat) : (s.atBit k).matchLen = s.matchLen := rfl
@[simp] theorem atBit_matchDist (s : State) (k : Nat) : (s.atBit k).matchDist = s.matchDist := rfl
@[simp] theorem atBit_win (s : State) (k : Nat) : (s.atBit k).win = s.win := rfl
@[simp] theorem atBit_winCur (s : State) (k : Nat) : (s.atBit k).winCur = s.winCur := rfl
@[simp] theorem atBit_winWrapped (s : State) (k : Nat) : (s.atBit k).winWrapped = s.winWrapped := rfl
@[simp] theorem atBit_rowY (s : State) (k : Nat) : (s.atBit k).rowY = s.rowY := rfl
@[simp] theorem atBit_colI (s : State) (k : Nat) : (s.atBit k).colI = s.colI := rfl
@[simp] theorem atBit_ft (s : State) (k : Nat) : (s.atBit k).ft = s.ft := rfl
@[simp] theorem atBit_prevRow (s : State) (k : Nat) : (s.atBit k).prevRow = s.prevRow := rfl
@[simp] theorem atBit_curRow (s : State) (k : Nat) : (s.atBit k).curRow = s.curRow := rfl
@[simp] theorem atBit_distNext (s : State) (k : Nat) : (s.atBit k).distNext = s.distNext := rfl
@[simp] theorem atBit_outCapacity (s : State) (k : Nat) : (s.atBit k).outCapacity = s.outCapacity := rfl
@[simp] theorem atBit_host (s : State) (k : Nat) : (s.atBit k).host = s.host := rfl

end Sys2Proof.Machine
end

