-- ==== Sys2Proof/Laws/Input.lean ====
section
/-! SUPPORT. Sequencing, and what each operation of the input cursor can do. -/

namespace Sys2Proof.Machine

@[simp] theorem bind_ok {α β : Type} (a : α) (s : State) (f : α → State → Res β) :
    (Res.ok a s).bind f = f a s := rfl

@[simp] theorem bind_raise {α β : Type} (e : Err) (s : State) (f : α → State → Res β) :
    (Res.raise e s).bind f = .raise e s := rfl

@[simp] theorem bind_stop {α β : Type} (x : Fault) (f : α → State → Res β) :
    (Res.stop x).bind f = .stop x := rfl

theorem bind_assoc {α β γ : Type} (r : Res α) (f : α → State → Res β) (g : β → State → Res γ) :
    (r.bind f).bind g = r.bind fun a s => (f a s).bind g := by cases r <;> rfl

@[simp] theorem finish_ok (s : State) : (Res.ok () s).finish = .next s := rfl

@[simp] theorem finish_raise (e : Err) (s : State) : (Res.raise e s).finish = .next (errorEntry e s) := rfl

@[simp] theorem finish_stop (x : Fault) : (Res.stop x).finish = .fault x := rfl

/-! ## The cursor as one number -/

@[simp] theorem atBit_pc (s : State) (k : Nat) : (s.atBit k).pc = k := by
  simp only [State.pc, atBit_bytePos, atBit_bitPos, BitVec.toNat_ofNat]
  omega

@[simp] theorem atBit_self (s : State) : s.atBit s.pc = s := by
  have h := s.bitPos.isLt
  have h1 : s.pc / 8 = s.bytePos := by simp only [State.pc]; omega
  have h2 : BitVec.ofNat 3 (s.pc % 8) = s.bitPos := by
    apply BitVec.eq_of_toNat_eq
    simp only [State.pc, BitVec.toNat_ofNat]
    omega
  simp only [State.atBit, h1, h2]

@[simp] theorem atBit_atBit (s : State) (j k : Nat) : (s.atBit j).atBit k = s.atBit k := rfl

@[simp] theorem bitAt_atBit (s : State) (j k : Nat) : (s.atBit j).bitAt k = s.bitAt k := rfl

/-- Only IN matters for the input's bits. -/
theorem bitAt_congr {s t : State} (h : t.inMem = s.inMem) (k : Nat) : t.bitAt k = s.bitAt k := by
  simp [State.bitAt, h]

theorem bitsAt_congr {s t : State} (h : t.inMem = s.inMem) (k n : Nat) : t.bitsAt k n = s.bitsAt k n := by
  induction n generalizing k with
  | zero => rfl
  | succ n ih => simp [State.bitsAt, bitAt_congr h, ih]

theorem fieldAt_congr {s t : State} (h : t.inMem = s.inMem) (k n : Nat) : t.fieldAt k n = s.fieldAt k n := by
  simp [State.fieldAt, bitsAt_congr h]

@[simp] theorem fieldAt_atBit (s : State) (j k n : Nat) : (s.atBit j).fieldAt k n = s.fieldAt k n :=
  fieldAt_congr (s := s) (t := s.atBit j) rfl k n

@[simp] theorem fieldAt_zero (s : State) (k : Nat) : s.fieldAt k 0 = 0 := rfl

theorem fieldAt_succ (s : State) (k n : Nat) :
    s.fieldAt k (n + 1) = (s.bitAt k).toNat + 2 * s.fieldAt (k + 1) n := by
  simp only [State.fieldAt, State.bitsAt, bitsValue]
  cases s.bitAt k <;> rfl

theorem fieldAt_lt (s : State) (k n : Nat) : s.fieldAt k n < 2 ^ n := by
  induction n generalizing k with
  | zero => simp
  | succ n ih =>
    rw [fieldAt_succ]
    have := ih (k + 1)
    have hb := (s.bitAt k).toNat_le
    rw [Nat.pow_succ]
    omega

/-! ## Reading -/

/-- ReadBit, in terms of the linear cursor. -/
theorem readBit_eq (s : State) :
    readBit s = if s.pc < 8 * s.inLen then .ok (s.bitAt s.pc) (s.atBit (s.pc + 1)) else .raise .inputExhausted s := by
  have h := s.bitPos.isLt
  have h0 : s.pc = 8 * s.bytePos + s.bitPos.toNat := rfl
  have h1 : s.pc / 8 = s.bytePos := by omega
  have h2 : s.pc % 8 = s.bitPos.toNat := by omega
  unfold readBit
  by_cases hb : s.inLen ≤ s.bytePos
  · rw [if_pos hb, if_neg (by omega)]
  · rw [if_neg hb]
    have hlt : s.pc < 8 * s.inLen := by omega
    rw [if_pos hlt]
    simp only [State.bitAt, h1, h2, State.atBit]
    split
    · rename_i h8
      have e1 : (s.pc + 1) / 8 = s.bytePos + 1 := by omega
      have e2 : (s.pc + 1) % 8 = 0 := by omega
      simp [e1, e2]
    · rename_i h8
      have e1 : (s.pc + 1) / 8 = s.bytePos := by omega
      have e2 : BitVec.ofNat 3 ((s.pc + 1) % 8) = s.bitPos + 1 := by
        apply BitVec.eq_of_toNat_eq
        rw [BitVec.toNat_ofNat, BitVec.toNat_add, show (1 : BitVec 3).toNat = 1 from rfl]
        omega
      simp only [e1, e2]

/-- ReadBit where a bit is left. -/
theorem readBit_ok {s : State} (h : s.hasBits 1) : readBit s = .ok (s.bitAt s.pc) (s.atBit (s.pc + 1)) := by
  rw [readBit_eq, if_pos (by simp only [State.hasBits] at h; omega)]

theorem getBitsFrom_ok (n i v : Nat) (s : State) (hv : v < 2 ^ i) (h : n = 0 ∨ s.hasBits n) :
    getBitsFrom n i v s = .ok (v + 2 ^ i * s.fieldAt s.pc n) (s.atBit (s.pc + n)) := by
  induction n generalizing i v s with
  | zero => simp [getBitsFrom]
  | succ n ih =>
    have h' : s.pc + (n + 1) ≤ 8 * s.inLen := by simpa [State.hasBits] using h
    simp only [getBitsFrom]
    rw [readBit_ok (by simp only [State.hasBits]; omega)]
    have hor : v ||| ((s.bitAt s.pc).toNat <<< i) = v + 2 ^ i * (s.bitAt s.pc).toNat := by
      rw [Nat.shiftLeft_eq, Nat.mul_comm, Nat.or_comm, ← Nat.two_pow_add_eq_or_of_lt hv, Nat.add_comm]
    have hb := (s.bitAt s.pc).toNat_le
    rw [bind_ok, ih]
    · rw [fieldAt_succ, hor]
      simp only [atBit_pc, fieldAt_atBit, atBit_atBit]
      congr 1
      · rw [Nat.pow_succ]; ring
      · congr 1; omega
    · rw [hor, Nat.pow_succ]
      have : 2 ^ i * (s.bitAt s.pc).toNat ≤ 2 ^ i * 1 := Nat.mul_le_mul_left _ hb
      omega
    · right
      simp only [State.hasBits, atBit_pc, atBit_inLen]
      omega

/-- GetBits(n) where n bits are left (20_memory.md rule R84). -/
theorem getBits_ok {s : State} {n : Nat} (h : n = 0 ∨ s.hasBits n) :
    getBits n s = .ok (s.fieldAt s.pc n) (s.atBit (s.pc + n)) := by
  rw [getBits, getBitsFrom_ok n 0 0 s (by simp) h]
  simp

theorem getBitsFrom_exhausted (n i v : Nat) (s : State) (hn : 0 < n) (h : ¬ s.hasBits n) :
    getBitsFrom n i v s = .raise .inputExhausted (s.atBit (max s.pc (8 * s.inLen))) := by
  induction n generalizing i v s with
  | zero => omega
  | succ n ih =>
    simp only [State.hasBits] at h
    simp only [getBitsFrom]
    rw [readBit_eq]
    split
    · rename_i hlt
      rw [bind_ok, ih _ _ _ (by omega) (by simp only [State.hasBits, atBit_pc, atBit_inLen]; omega)]
      simp only [atBit_pc, atBit_inLen, atBit_atBit]
      congr 2
      omega
    · rename_i hge
      rw [bind_raise]
      congr 1
      rw [Nat.max_eq_left (by omega)]
      simp

/-- GetBits(n) where the input ends first: the cursor stands at the end (20_memory.md rule R87). -/
theorem getBits_exhausted {s : State} {n : Nat} (hn : 0 < n) (h : ¬ s.hasBits n) :
    getBits n s = .raise .inputExhausted (s.atBit (max s.pc (8 * s.inLen))) :=
  getBitsFrom_exhausted n 0 0 s hn h

/-- All GetBits can do. -/
theorem getBits_cases (n : Nat) (s : State) :
    ((n = 0 ∨ s.hasBits n) ∧ getBits n s = .ok (s.fieldAt s.pc n) (s.atBit (s.pc + n))) ∨
    (¬ s.hasBits n ∧ getBits n s = .raise .inputExhausted (s.atBit (max s.pc (8 * s.inLen)))) := by
  by_cases h : n = 0 ∨ s.hasBits n
  · exact .inl ⟨h, getBits_ok h⟩
  · exact .inr ⟨fun h' => h (.inr h'), getBits_exhausted (by omega) fun h' => h (.inr h')⟩

/-- ReadBytes(1), in terms of the linear cursor. -/
theorem readByte_eq (s : State) :
    readByte s =
      if s.inLen ≤ s.bytePos then .raise .inputExhausted s
      else .ok (Memory.read s.inMem s.bytePos) (s.atBit (s.pc + 8)) := by
  unfold readByte
  split
  · rfl
  · congr 1
    have h := s.bitPos.isLt
    have h0 : s.pc = 8 * s.bytePos + s.bitPos.toNat := rfl
    have e1 : (s.pc + 8) / 8 = s.bytePos + 1 := by omega
    have e2 : BitVec.ofNat 3 ((s.pc + 8) % 8) = s.bitPos := by
      apply BitVec.eq_of_toNat_eq
      simp only [BitVec.toNat_ofNat]
      omega
    simp only [State.atBit, e1, e2]

/-- AlignToByte: the next byte boundary (20_memory.md rule R85). -/
theorem alignToByte_eq (s : State) : alignToByte s = s.atBit (8 * s.alignedByte) := by
  have h := s.bitPos.isLt
  have h0 : s.pc = 8 * s.bytePos + s.bitPos.toNat := rfl
  have h1 : s.alignedByte = (s.pc + 7) / 8 := rfl
  unfold alignToByte
  split
  · rename_i hz
    have hz' : s.bitPos.toNat = 0 := by simp [hz]
    have : 8 * s.alignedByte = s.pc := by omega
    rw [this, atBit_self]
  · rename_i hz
    have hz' : s.bitPos.toNat ≠ 0 := fun h' => hz (BitVec.eq_of_toNat_eq (by simpa using h'))
    have e1 : 8 * s.alignedByte / 8 = s.bytePos + 1 := by omega
    have e2 : 8 * s.alignedByte % 8 = 0 := by omega
    simp [State.atBit, e1, e2]

/-- LEN or NLEN on a byte boundary with two bytes left: little-endian (20_memory.md rule R90). -/
theorem readLe16_ok {s : State} {k : Nat} (hk : s.pc = 8 * k) (h : k + 2 ≤ s.inLen) :
    readLe16 s = .ok (Memory.read s.inMem (k + 1) ++ Memory.read s.inMem k) (s.atBit (8 * (k + 2))) := by
  have h0 : s.pc = 8 * s.bytePos + s.bitPos.toNat := rfl
  have hb := s.bitPos.isLt
  have hk' : s.bytePos = k := by omega
  unfold readLe16
  rw [readByte_eq, if_neg (by omega), bind_ok, readByte_eq]
  have e : (s.atBit (s.pc + 8)).bytePos = k + 1 := by simp; omega
  rw [e, if_neg (by simp; omega), bind_ok]
  simp only [atBit_inMem, hk', atBit_pc, atBit_atBit]
  congr 2
  omega

/-! ## Symbols -/

@[simp] theorem bitsAt_atBit (s : State) (j k n : Nat) : (s.atBit j).bitsAt k n = s.bitsAt k n :=
  bitsAt_congr (s := s) (t := s.atBit j) rfl k n

/-- The walk along bits that the input holds goes on from the place they lead to (40_huffman.md rule R210). -/
theorem walkTree_subtree {t u : Tree} {bs : Bits} {s : State} (hp : t.subtree bs = some u)
    (hb : s.bitsAt s.pc bs.length = bs) (hn : s.pc + bs.length ≤ 8 * s.inLen ∨ bs = []) :
    walkTree t s = walkTree u (s.atBit (s.pc + bs.length)) := by
  induction bs generalizing t s with
  | nil => simp only [Tree.subtree, Option.some.injEq] at hp; simp [hp]
  | cons b bs ih =>
    cases t with
    | null => simp [Tree.subtree] at hp
    | leaf x => simp [Tree.subtree] at hp
    | node l r =>
      simp only [List.length_cons, State.bitsAt, List.cons.injEq] at hb
      have hn' : s.pc + (bs.length + 1) ≤ 8 * s.inLen := by simpa using hn
      simp only [walkTree]
      rw [readBit_ok (by simp only [State.hasBits]; omega), bind_ok, hb.1]
      have key : ∀ c : Tree, c.subtree bs = some u →
          walkTree c (s.atBit (s.pc + 1)) = walkTree u (s.atBit (s.pc + (b :: bs).length)) := by
        intro c hc
        rw [ih hc (by simpa using hb.2) (.inl (by simp only [atBit_pc, atBit_inLen]; omega))]
        simp only [atBit_pc, atBit_atBit, List.length_cons]
        congr 2
        omega
      cases b
      · simpa using key l (by simpa [Tree.subtree] using hp)
      · simpa using key r (by simpa [Tree.subtree] using hp)

/-- A path to a symbol leads to its leaf. -/
theorem subtree_of_symbolAt {t : Tree} {bs : Bits} {sym : Nat} (hp : t.symbolAt bs = some sym) :
    t.subtree bs = some (.leaf sym) := by
  induction bs generalizing t with
  | nil => cases t <;> simp_all [Tree.symbolAt, Tree.subtree]
  | cons b bs ih => cases t <;> cases b <;> simp_all [Tree.symbolAt, Tree.subtree]

/-- The walk along a path of bits that ends in a leaf (40_huffman.md rule R210). -/
theorem walkTree_path {t : Tree} {bs : Bits} {sym : Nat} {s : State} (hp : t.symbolAt bs = some sym)
    (hb : s.bitsAt s.pc bs.length = bs) (hn : s.pc + bs.length ≤ 8 * s.inLen ∨ bs = []) :
    walkTree t s = .ok sym (s.atBit (s.pc + bs.length)) := by
  rw [walkTree_subtree (subtree_of_symbolAt hp) hb hn]
  rfl

/-- DecodeSymbol on a code of a NODE tree (40_huffman.md rule R210). -/
theorem decodeSymbol_path {t : Tree} {bs : Bits} {sym : Nat} {s : State} (ht : ∀ x, t ≠ .leaf x)
    (hp : t.symbolAt bs = some sym) (hb : s.bitsAt s.pc bs.length = bs) (hn : s.hasBits bs.length) :
    decodeSymbol t s = .ok sym (s.atBit (s.pc + bs.length)) := by
  cases t with
  | null => cases bs <;> simp [Tree.symbolAt] at hp
  | leaf x => exact absurd rfl (ht x)
  | node l r => exact walkTree_path hp hb (.inl hn)

/-- All a walk can do: it moves the cursor only, forward and within the input. -/
theorem walkTree_cases (t : Tree) (s : State) :
    (∃ sym k, walkTree t s = .ok sym (s.atBit k) ∧ s.pc ≤ k ∧ (k = s.pc ∨ k ≤ 8 * s.inLen) ∧
      (∀ n, t.symsBelow n = true → sym < n)) ∨
    (∃ e k, walkTree t s = .raise e (s.atBit k) ∧ s.pc ≤ k ∧ (k = s.pc ∨ k ≤ 8 * s.inLen)) := by
  induction t generalizing s with
  | null => exact .inr ⟨.invalidCode, s.pc, by simp [walkTree], le_rfl, .inl rfl⟩
  | leaf x => exact .inl ⟨x, s.pc, by simp [walkTree], le_rfl, .inl rfl, by simp [Tree.symsBelow]⟩
  | node l r ihl ihr =>
    simp only [walkTree]
    rw [readBit_eq]
    split
    · rename_i hlt
      rw [bind_ok]
      split
      · rcases ihr (s.atBit (s.pc + 1)) with ⟨sym, k, h1, h2, h3, h4⟩ | ⟨e, k, h1, h2, h3⟩
        · simp only [atBit_pc, atBit_inLen, atBit_atBit] at h1 h2 h3
          exact .inl ⟨sym, k, h1, by omega, by omega, fun n hn => h4 n (by simp [Tree.symsBelow] at hn; exact hn.2)⟩
        · simp only [atBit_pc, atBit_inLen, atBit_atBit] at h1 h2 h3
          exact .inr ⟨e, k, h1, by omega, by omega⟩
      · rcases ihl (s.atBit (s.pc + 1)) with ⟨sym, k, h1, h2, h3, h4⟩ | ⟨e, k, h1, h2, h3⟩
        · simp only [atBit_pc, atBit_inLen, atBit_atBit] at h1 h2 h3
          exact .inl ⟨sym, k, h1, by omega, by omega, fun n hn => h4 n (by simp [Tree.symsBelow] at hn; exact hn.1)⟩
        · simp only [atBit_pc, atBit_inLen, atBit_atBit] at h1 h2 h3
          exact .inr ⟨e, k, h1, by omega, by omega⟩
    · exact .inr ⟨.inputExhausted, s.pc, by simp, le_rfl, .inl rfl⟩

/-- All DecodeSymbol can do: it moves the cursor only, by at least one bit where it answers a symbol of the tree. -/
theorem decodeSymbol_cases (t : Tree) (s : State) :
    (∃ sym k, decodeSymbol t s = .ok sym (s.atBit k) ∧ s.pc < k ∧ k ≤ 8 * s.inLen ∧
      (∀ n, t.symsBelow n = true → sym < n)) ∨
    (∃ e k, decodeSymbol t s = .raise e (s.atBit k) ∧ s.pc ≤ k ∧ (k = s.pc ∨ k ≤ 8 * s.inLen)) := by
  cases t with
  | null => exact .inr ⟨.emptyTree, s.pc, by simp [decodeSymbol], le_rfl, .inl rfl⟩
  | leaf x =>
    simp only [decodeSymbol]
    rw [readBit_eq]
    split
    · exact .inl ⟨x, s.pc + 1, by simp, by omega, by omega, by simp [Tree.symsBelow]⟩
    · exact .inr ⟨.inputExhausted, s.pc, by simp, le_rfl, .inl rfl⟩
  | node l r =>
    simp only [decodeSymbol, walkTree]
    rw [readBit_eq]
    split
    · rename_i hlt
      rw [bind_ok]
      split
      · rcases walkTree_cases r (s.atBit (s.pc + 1)) with ⟨sym, k, h1, h2, h3, h4⟩ | ⟨e, k, h1, h2, h3⟩
        · simp only [atBit_pc, atBit_inLen, atBit_atBit] at h1 h2 h3
          exact .inl ⟨sym, k, h1, by omega, by omega, fun n hn => h4 n (by simp [Tree.symsBelow] at hn; exact hn.2)⟩
        · simp only [atBit_pc, atBit_inLen, atBit_atBit] at h1 h2 h3
          exact .inr ⟨e, k, h1, by omega, by omega⟩
      · rcases walkTree_cases l (s.atBit (s.pc + 1)) with ⟨sym, k, h1, h2, h3, h4⟩ | ⟨e, k, h1, h2, h3⟩
        · simp only [atBit_pc, atBit_inLen, atBit_atBit] at h1 h2 h3
          exact .inl ⟨sym, k, h1, by omega, by omega, fun n hn => h4 n (by simp [Tree.symsBelow] at hn; exact hn.1)⟩
        · simp only [atBit_pc, atBit_inLen, atBit_atBit] at h1 h2 h3
          exact .inr ⟨e, k, h1, by omega, by omega⟩
    · exact .inr ⟨.inputExhausted, s.pc, by simp, le_rfl, .inl rfl⟩

end Sys2Proof.Machine
end

