-- ==== Sys2Proof/Laws/Memory.lean ====
section
/-! SUPPORT. Reading, writing and the canonical form of memories. -/

namespace Sys2Proof.Machine

@[simp] theorem read_nil (a : Nat) : Memory.read [] a = unlisted := rfl

theorem read_enter_same (a : Nat) (b : Byte) (m : Memory) (h : Memory.read m a = unlisted) :
    Memory.read (Memory.enter a b m) a = b := by
  unfold Memory.enter
  split
  · simp_all
  · simp [Memory.read]

theorem read_enter_other (a c : Nat) (b : Byte) (m : Memory) (h : a ≠ c) :
    Memory.read (Memory.enter a b m) c = Memory.read m c := by
  unfold Memory.enter
  split
  · rfl
  · simp [Memory.read, h]

/-- An address below every entry is unlisted. -/
theorem read_below (m : Memory) (a : Nat) (h : ∀ c ∈ m, a < c.1) : Memory.read m a = unlisted := by
  induction m with
  | nil => rfl
  | cons c m ih =>
    have hc := h c (by simp)
    simp only [Memory.read]
    rw [if_neg (by omega)]
    exact ih fun d hd => h d (by simp [hd])

theorem wf_nil : Memory.wf [] := by simp [Memory.wf]

theorem wf_tail {c : Host.Cell} {m : Memory} (h : Memory.wf (c :: m)) : Memory.wf m :=
  ⟨(List.pairwise_cons.mp h.1).2, fun d hd => h.2 d (by simp [hd])⟩

theorem wf_head {c : Host.Cell} {m : Memory} (h : Memory.wf (c :: m)) : ∀ d ∈ m, c.1 < d.1 :=
  (List.pairwise_cons.mp h.1).1

theorem wf_cons {c : Host.Cell} {m : Memory} (h : Memory.wf m) (hlt : ∀ d ∈ m, c.1 < d.1) (hne : c.2 ≠ unlisted) :
    Memory.wf (c :: m) :=
  ⟨List.pairwise_cons.mpr ⟨hlt, h.1⟩, by
    intro d hd
    rcases List.mem_cons.mp hd with rfl | hd
    · exact hne
    · exact h.2 d hd⟩

theorem wf_enter {a : Nat} {b : Byte} {m : Memory} (h : Memory.wf m) (hlt : ∀ d ∈ m, a < d.1) :
    Memory.wf (Memory.enter a b m) := by
  unfold Memory.enter
  split
  · exact h
  · rename_i hne
    exact wf_cons (c := (a, b)) h hlt hne

/-- The addresses a write leaves listed: its own and the old ones. -/
theorem mem_write {m : Memory} {a : Nat} {b : Byte} {d : Host.Cell} (h : d ∈ Memory.write m a b) :
    d.1 = a ∨ d ∈ m := by
  induction m with
  | nil =>
    simp only [Memory.write, Memory.enter] at h
    split at h
    · simp at h
    · simp at h; exact .inl (by rw [h])
  | cons c m ih =>
    obtain ⟨k, v⟩ := c
    simp only [Memory.write] at h
    split at h
    · simp only [Memory.enter] at h
      split at h
      · exact .inr h
      · rcases List.mem_cons.mp h with rfl | h
        · exact .inl rfl
        · exact .inr h
    · split at h
      · simp only [Memory.enter] at h
        split at h
        · exact .inr (by simp [h])
        · rcases List.mem_cons.mp h with rfl | h
          · exact .inl rfl
          · exact .inr (by simp [h])
      · rcases List.mem_cons.mp h with rfl | h
        · exact .inr (by simp)
        · rcases ih h with h | h
          · exact .inl h
          · exact .inr (by simp [h])

/-- A write keeps the canonical form. -/
theorem wf_write {m : Memory} (a : Nat) (b : Byte) (h : Memory.wf m) : Memory.wf (Memory.write m a b) := by
  induction m with
  | nil => exact wf_enter wf_nil (by simp)
  | cons c m ih =>
    obtain ⟨k, v⟩ := c
    have hh := wf_head h
    simp only [Memory.write]
    split
    · rename_i hak
      refine wf_enter h fun d hd => ?_
      rcases List.mem_cons.mp hd with rfl | hd
      · exact hak
      · exact Nat.lt_trans hak (hh d hd)
    · split
      · rename_i hak
        subst hak
        exact wf_enter (wf_tail h) hh
      · refine wf_cons (ih (wf_tail h)) (fun d hd => ?_) (h.2 (k, v) (by simp))
        rcases mem_write hd with hd | hd
        · simp only; omega
        · exact hh d hd

/-- Writing bytes keeps the canonical form. -/
theorem wf_writeBytes {m : Memory} (a : Nat) (bs : List Byte) (h : Memory.wf m) :
    Memory.wf (Memory.writeBytes m a bs) := by
  induction bs generalizing m a with
  | nil => exact h
  | cons b bs ih => exact ih _ (wf_write a b h)

/-- A read after a write, in a memory whose addresses rise. -/
theorem read_write {m : Memory} (a : Nat) (b : Byte) (h : Memory.wf m) (c : Nat) :
    Memory.read (Memory.write m a b) c = if c = a then b else Memory.read m c := by
  induction m with
  | nil =>
    simp only [Memory.write]
    split
    · subst c; exact read_enter_same a b [] rfl
    · exact read_enter_other a c b [] (by omega)
  | cons d m ih =>
    obtain ⟨k, v⟩ := d
    have hh := wf_head h
    simp only [Memory.write]
    split
    · rename_i hak
      split
      · subst c
        refine read_enter_same a b _ (read_below _ _ fun d hd => ?_)
        rcases List.mem_cons.mp hd with rfl | hd
        · exact hak
        · exact Nat.lt_trans hak (hh d hd)
      · exact read_enter_other a c b _ (by omega)
    · split
      · rename_i hak
        subst hak
        split
        · subst c; exact read_enter_same a b m (read_below m a hh)
        · rw [read_enter_other a c b _ (by omega)]
          simp only [Memory.read]
          rw [if_neg (by omega)]
      · simp only [Memory.read]
        rw [ih (wf_tail h)]
        split
        · rw [if_neg (by omega)]
        · rfl

theorem read_write_same {m : Memory} (a : Nat) (b : Byte) (h : Memory.wf m) :
    Memory.read (Memory.write m a b) a = b := by simp [read_write a b h]

theorem read_write_other {m : Memory} {a c : Nat} (b : Byte) (h : Memory.wf m) (hc : c ≠ a) :
    Memory.read (Memory.write m a b) c = Memory.read m c := by simp [read_write a b h, hc]

/-- A read after several bytes were written. -/
theorem read_writeBytes {m : Memory} (a : Nat) (bs : List Byte) (h : Memory.wf m) (c : Nat) :
    Memory.read (Memory.writeBytes m a bs) c =
      if a ≤ c ∧ c < a + bs.length then bs.getD (c - a) 0 else Memory.read m c := by
  induction bs generalizing m a with
  | nil => simp [Memory.writeBytes]
  | cons b bs ih =>
    simp only [Memory.writeBytes]
    rw [ih (a + 1) (wf_write a b h), read_write a b h]
    by_cases h1 : c = a
    · subst h1; simp
    · by_cases h2 : a ≤ c ∧ c < a + (b :: bs).length
      · have h3 : a + 1 ≤ c ∧ c < a + 1 + bs.length := by simp at h2; omega
        rw [if_pos h3, if_pos h2]
        obtain ⟨k, hk⟩ : ∃ k, c - a = k + 1 := ⟨c - a - 1, by omega⟩
        have : c - (a + 1) = k := by omega
        simp [hk, this]
      · have h3 : ¬(a + 1 ≤ c ∧ c < a + 1 + bs.length) := by simp at h2 ⊢; omega
        rw [if_neg h3, if_neg h2, if_neg h1]

/-- Appending to written bytes writes one more byte. -/
theorem writeBytes_append (m : Memory) (a : Nat) (bs : List Byte) (b : Byte) :
    Memory.writeBytes m a (bs ++ [b]) = Memory.write (Memory.writeBytes m a bs) (a + bs.length) b := by
  induction bs generalizing m a with
  | nil => simp [Memory.writeBytes]
  | cons c bs ih =>
    simp only [List.cons_append, Memory.writeBytes, ih, List.length_cons]
    congr 1
    omega

/-- Memories in canonical form that read alike are equal. -/
theorem memory_ext {m n : Memory} (hm : Memory.wf m) (hn : Memory.wf n)
    (h : ∀ a, Memory.read m a = Memory.read n a) : m = n := by
  induction m generalizing n with
  | nil =>
    cases n with
    | nil => rfl
    | cons d n => exact absurd (by simpa [Memory.read] using (h d.1).symm) (hn.2 d (by simp))
  | cons c m ih =>
    obtain ⟨k, v⟩ := c
    have hv : v ≠ unlisted := hm.2 (k, v) (by simp)
    cases n with
    | nil => exact absurd (by simpa [Memory.read] using h k) hv
    | cons d n =>
      obtain ⟨l, w⟩ := d
      have hw : w ≠ unlisted := hn.2 (l, w) (by simp)
      have hkl : k = l := by
        rcases Nat.lt_trichotomy k l with hlt | heq | hgt
        · refine absurd ?_ hv
          have h1 := h k
          rw [read_below ((l, w) :: n) k fun d hd => by
            rcases List.mem_cons.mp hd with rfl | hd
            · exact hlt
            · exact Nat.lt_trans hlt (wf_head hn d hd)] at h1
          simpa [Memory.read] using h1
        · exact heq
        · refine absurd ?_ hw
          have h1 := h l
          rw [read_below ((k, v) :: m) l fun d hd => by
            rcases List.mem_cons.mp hd with rfl | hd
            · exact hgt
            · exact Nat.lt_trans hgt (wf_head hm d hd)] at h1
          simpa [Memory.read] using h1.symm
      subst hkl
      have hvw : v = w := by simpa [Memory.read] using h k
      subst hvw
      congr 1
      refine ih (wf_tail hm) (wf_tail hn) fun a => ?_
      by_cases ha : k = a
      · subst ha
        rw [read_below m k (wf_head hm), read_below n k (wf_head hn)]
      · simpa [Memory.read, ha] using h a

end Sys2Proof.Machine
end

