-- ==== Sys2Proof/Laws/Output.lean ====
section
/-! SUPPORT. The output buffer and the window: what an emitted run of bytes leaves, and the back-reference copy. -/

namespace Sys2Proof.Machine

/-! ## Room -/

theorem hasRoom_mono {s : State} {m n : Nat} (h : s.hasRoom n) (hmn : m ≤ n) : s.hasRoom m :=
  fun c hc => by have := h c hc; omega

theorem outAppend_ok {s : State} (b : Byte) (h : s.hasRoom 1) :
    outAppend b s = .ok () { s with out := s.out ++ [b], outLen := s.outLen + 1 } := by
  unfold outAppend
  rw [if_neg]
  intro hc
  have := h _ hc
  omega

theorem outAppend_overflow {s : State} (b : Byte) (h : s.outCapacity = some s.outLen) :
    outAppend b s = .raise .outputOverflow s := by
  unfold outAppend
  rw [if_pos h]

/-! ## Emitted bytes -/

@[simp] theorem emitted_nil (s : State) : emitted [] s = s := by
  cases s; simp [emitted, winAppendData]

theorem winAppendData_eq (bs : List Byte) (s : State) :
    winAppendData bs s = { s with
      win := (winAppendData bs s).win, winCur := (winAppendData bs s).winCur,
      winWrapped := (winAppendData bs s).winWrapped } := by
  induction bs generalizing s with
  | nil => rfl
  | cons b bs ih =>
    simp only [winAppendData]
    rw [ih]
    rfl

/-- The window after an append depends on the window alone. -/
theorem winAppendData_congr (bs : List Byte) {s t : State} (h1 : t.win = s.win) (h2 : t.winCur = s.winCur)
    (h3 : t.winWrapped = s.winWrapped) :
    winAppendData bs t = { t with
      win := (winAppendData bs s).win, winCur := (winAppendData bs s).winCur,
      winWrapped := (winAppendData bs s).winWrapped } := by
  induction bs generalizing s t with
  | nil =>
    simp only [winAppendData]
    rw [← h1, ← h2, ← h3]
  | cons b bs ih =>
    simp only [winAppendData]
    rw [ih (s := winWrite b s) (t := winWrite b t) (by simp [h1, h2]) (by simp [h2]) (by simp [h2, h3])]
    rfl

/-- What emitting leaves: OUT, its length and the window; everything else as before. -/
theorem emitted_eq (bs : List Byte) (s : State) :
    emitted bs s = { s with
      out := s.out ++ bs, outLen := s.outLen + bs.length, win := (winAppendData bs s).win,
      winCur := (winAppendData bs s).winCur, winWrapped := (winAppendData bs s).winWrapped } := by
  unfold emitted
  exact winAppendData_congr bs (s := s) rfl rfl rfl

@[simp] theorem emitted_pc (bs : List Byte) (s : State) : (emitted bs s).pc = s.pc := by rw [emitted_eq]; rfl
@[simp] theorem emitted_inLen (bs : List Byte) (s : State) : (emitted bs s).inLen = s.inLen := by rw [emitted_eq]
@[simp] theorem emitted_inMem (bs : List Byte) (s : State) : (emitted bs s).inMem = s.inMem := by rw [emitted_eq]
@[simp] theorem emitted_bytePos (bs : List Byte) (s : State) : (emitted bs s).bytePos = s.bytePos := by
  rw [emitted_eq]
@[simp] theorem emitted_out (bs : List Byte) (s : State) : (emitted bs s).out = s.out ++ bs := by rw [emitted_eq]
@[simp] theorem emitted_outLen (bs : List Byte) (s : State) : (emitted bs s).outLen = s.outLen + bs.length := by
  rw [emitted_eq]
@[simp] theorem emitted_win (bs : List Byte) (s : State) : (emitted bs s).win = (winAppendData bs s).win := by
  rw [emitted_eq]
@[simp] theorem emitted_winCur (bs : List Byte) (s : State) :
    (emitted bs s).winCur = (winAppendData bs s).winCur := by rw [emitted_eq]
@[simp] theorem emitted_winWrapped (bs : List Byte) (s : State) :
    (emitted bs s).winWrapped = (winAppendData bs s).winWrapped := by rw [emitted_eq]
@[simp] theorem emitted_outCapacity (bs : List Byte) (s : State) : (emitted bs s).outCapacity = s.outCapacity := by
  rw [emitted_eq]

/-- Emitting does not touch the cursor. -/
theorem emitted_atBit (bs : List Byte) (s : State) (k : Nat) : (emitted bs s).atBit k = emitted bs (s.atBit k) := by
  rw [emitted_eq, emitted_eq, winAppendData_congr bs (s := s) (t := s.atBit k) rfl rfl rfl]
  rfl

theorem emitted_cons (b : Byte) (bs : List Byte) (s : State) : emitted (b :: bs) s = emitted bs (emitted [b] s) := by
  have h : emitted [b] s = { winWrite b s with out := s.out ++ [b], outLen := s.outLen + 1 } := rfl
  rw [emitted_eq (b :: bs), emitted_eq bs, h]
  rw [winAppendData_congr bs (s := winWrite b s) (t := { winWrite b s with out := s.out ++ [b], outLen := s.outLen + 1 })
    rfl rfl rfl]
  have e1 : s.out ++ [b] ++ bs = s.out ++ b :: bs := by simp
  have e2 : s.outLen + 1 + bs.length = s.outLen + (b :: bs).length := by simp; omega
  simp only [e1, e2]
  rfl

/-- Emit where there is room (00_scope.md rule R13). -/
theorem emit_ok {s : State} (b : Byte) (h : s.hasRoom 1) : emit b s = .ok () (emitted [b] s) := by
  unfold emit
  rw [outAppend_ok b h]
  rfl

theorem emit_overflow {s : State} (b : Byte) (h : s.outCapacity = some s.outLen) :
    emit b s = .raise .outputOverflow s := by
  unfold emit
  rw [outAppend_overflow b h]
  rfl

/-- All Emit can do. -/
theorem emit_cases (b : Byte) (s : State) :
    emit b s = .ok () (emitted [b] s) ∨ (s.outCapacity = some s.outLen ∧ emit b s = .raise .outputOverflow s) := by
  by_cases h : s.outCapacity = some s.outLen
  · exact .inr ⟨h, emit_overflow b h⟩
  · left
    unfold emit outAppend
    rw [if_neg h]
    rfl

theorem emitted_hasRoom {s : State} {n : Nat} (bs : List Byte) (h : s.hasRoom (bs.length + n)) :
    (emitted bs s).hasRoom n := by
  intro c hc
  rw [emitted_outCapacity] at hc
  have := h c hc
  rw [emitted_outLen]
  omega

/-! ## The window -/

theorem winAppendData_append (bs cs : List Byte) (s : State) :
    winAppendData (bs ++ cs) s = winAppendData cs (winAppendData bs s) := by
  induction bs generalizing s with
  | nil => rfl
  | cons b bs ih => exact ih (winWrite b s)

theorem winAppendData_wf (bs : List Byte) {s : State} (h : Memory.wf s.win) : Memory.wf (winAppendData bs s).win := by
  induction bs generalizing s with
  | nil => exact h
  | cons b bs ih => exact ih (s := winWrite b s) (wf_write _ _ h)

theorem winWrite_cur (b : Byte) (s : State) : (winWrite b s).winCur.toNat = (s.winCur.toNat + 1) % 32768 := by
  rw [winWrite_winCur, BitVec.toNat_add, show (1 : BitVec 15).toNat = 1 from rfl]

/-- WIN_CUR after an append. -/
theorem winAppendData_cur (bs : List Byte) (s : State) :
    (winAppendData bs s).winCur.toNat = (s.winCur.toNat + bs.length) % 32768 := by
  induction bs generalizing s with
  | nil => have := s.winCur.isLt; simp [winAppendData]; omega
  | cons b bs ih =>
    simp only [winAppendData]
    rw [ih, winWrite_cur, List.length_cons]
    omega

/-- WIN_WRAPPED after an append: kept, or set by a pass of slot 32767. -/
theorem winAppendData_wrapped (bs : List Byte) (s : State) :
    (winAppendData bs s).winWrapped = 1 ↔ s.winWrapped = 1 ∨ 32768 ≤ s.winCur.toNat + bs.length := by
  induction bs generalizing s with
  | nil => have := s.winCur.isLt; simp [winAppendData]; omega
  | cons b bs ih =>
    simp only [winAppendData]
    rw [ih, winWrite_cur, List.length_cons]
    rw [winWrite_winWrapped]
    unfold wrappedAfter
    have := s.winCur.isLt
    have hsize : Config.winSize = 32768 := rfl
    split
    · simp
      omega
    · constructor
      · rintro (h | h)
        · exact .inl h
        · right; omega
      · rintro (h | h)
        · exact .inl h
        · right; omega

/-- Slots an append of at most 32768 bytes does not reach keep their bytes. -/
theorem winAppendData_read_other (bs : List Byte) {s : State} (h : Memory.wf s.win) (c : Nat)
    (hc : ∀ i, i < bs.length → c ≠ (s.winCur.toNat + i) % 32768) :
    Memory.read (winAppendData bs s).win c = Memory.read s.win c := by
  induction bs generalizing s with
  | nil => rfl
  | cons b bs ih =>
    simp only [winAppendData]
    have h0 := hc 0 (by simp)
    have := s.winCur.isLt
    rw [ih (s := winWrite b s) (wf_write _ _ h) (fun i hi => by
      have := hc (i + 1) (by simp; omega)
      rw [winWrite_cur]
      omega)]
    rw [winWrite_win, read_write_other b h (by omega)]

/-- The k-th last byte of an append stands k slots behind the cursor, for k up to the window's size. -/
theorem winAppendData_read (bs : List Byte) {s : State} (h : Memory.wf s.win) (i : Nat) (hi : i < bs.length)
    (hw : bs.length - i ≤ 32768) :
    Memory.read (winAppendData bs s).win ((s.winCur.toNat + i) % 32768) = bs.getD i 0 := by
  induction bs generalizing s i with
  | nil => simp at hi
  | cons b bs ih =>
    simp only [winAppendData]
    have hcur := s.winCur.isLt
    cases i with
    | zero =>
      rw [winAppendData_read_other bs (s := winWrite b s) (wf_write _ _ h)]
      · have e : (s.winCur.toNat + 0) % 32768 = s.winCur.toNat := by omega
        rw [e, winWrite_win, read_write_same _ b h]
        rfl
      · intro j hj
        rw [winWrite_cur]
        simp at hw
        omega
    | succ i =>
      have e : (s.winCur.toNat + (i + 1)) % 32768 = ((winWrite b s).winCur.toNat + i) % 32768 := by
        rw [winWrite_cur]; omega
      rw [e, ih (s := winWrite b s) (wf_write _ _ h) i (by simpa using hi) (by simp at hw; omega)]
      rfl

/-! ## Back-reference copies -/

/-- The slot a back-reference reads, as a number (44_window.md rule R404). -/
theorem winSlot_toNat {d : BitVec 16} (s : State) (hd : d.toNat ≤ 32768) :
    (winSlot d s).toNat = (s.winCur.toNat + 32768 - d.toNat) % 32768 := by
  have := s.winCur.isLt
  unfold winSlot
  rw [BitVec.toNat_sub, BitVec.toNat_setWidth]
  omega

/-- What a copy reads, one byte after the other. -/
def copyList (d : BitVec 16) : Nat → State → List Byte
  | 0, _ => []
  | n + 1, s => winRead d s :: copyList d n (winWrite (winRead d s) s)

theorem copyList_congr (d : BitVec 16) (n : Nat) {s t : State} (h1 : t.win = s.win) (h2 : t.winCur = s.winCur) :
    copyList d n t = copyList d n s := by
  induction n generalizing s t with
  | zero => rfl
  | succ n ih =>
    have hr : winRead d t = winRead d s := by simp [winRead, winSlot, h1, h2]
    simp only [copyList, hr]
    rw [ih (s := winWrite (winRead d s) s) (t := winWrite (winRead d s) t) (by simp [h1, h2]) (by simp [h2])]

theorem copyBytes_ok (d : BitVec 16) (n : Nat) {s : State} (h : s.hasRoom n) :
    copyBytes d n s = .ok () (emitted (copyList d n s) s) := by
  induction n generalizing s with
  | zero => simp [copyBytes, copyList]
  | succ n ih =>
    simp only [copyBytes, copyList]
    rw [emit_ok _ (hasRoom_mono h (by omega)), bind_ok]
    rw [ih (emitted_hasRoom _ (by simpa [Nat.add_comm] using h)),
      emitted_cons (winRead d s) (copyList d n (winWrite (winRead d s) s)),
      copyList_congr d n (s := winWrite (winRead d s) s) (t := emitted [winRead d s] s) rfl rfl]

theorem copyList_length (d : BitVec 16) (n : Nat) (s : State) : (copyList d n s).length = n := by
  induction n generalizing s with
  | zero => rfl
  | succ n ih => simp [copyList, ih]

/-- The copy repeats the last d bytes of the window (44_window.md rule R407). -/
theorem copyList_eq {d : BitVec 16} (n : Nat) {s : State} (h : Memory.wf s.win) (hd1 : 1 ≤ d.toNat)
    (hd2 : d.toNat ≤ 32768) : copyList d n s = copiedBytes d.toNat n s := by
  have hcur := s.winCur.isLt
  -- generalise: j bytes of the copy have been written
  have key : ∀ n j (t : State), Memory.wf t.win → t.winCur.toNat = (s.winCur.toNat + j) % 32768 →
      (∀ k, k < d.toNat → Memory.read t.win ((s.winCur.toNat + j + 32768 - d.toNat + k) % 32768) =
        Memory.read s.win ((s.winCur.toNat + 32768 - d.toNat + (j + k) % d.toNat) % 32768)) →
      copyList d n t =
        (List.range n).map fun k =>
          Memory.read s.win ((s.winCur.toNat + 32768 - d.toNat + (j + k) % d.toNat) % 32768) := by
    intro n
    induction n with
    | zero => intro j t _ _ _; rfl
    | succ n ih =>
      intro j t hwf hc hr
      have hb : winRead d t = Memory.read s.win ((s.winCur.toNat + 32768 - d.toNat + j % d.toNat) % 32768) := by
        have := hr 0 (by omega)
        have e : ((s.winCur.toNat + j) % 32768 + 32768 - d.toNat) % 32768 =
            (s.winCur.toNat + j + 32768 - d.toNat + 0) % 32768 := by omega
        rw [winRead, winSlot_toNat t hd2, hc, e, this, Nat.add_zero j]
      simp only [copyList]
      rw [ih (j + 1) (winWrite (winRead d t) t) (wf_write _ _ hwf) (by rw [winWrite_cur, hc]; omega)]
      · rw [List.range_succ_eq_map, List.map_cons, List.map_map, hb]
        congr 1
        apply List.map_congr_left
        intro k _
        have e : j + 1 + k = j + (k + 1) := by omega
        simp only [Function.comp, Nat.succ_eq_add_one, e]
      · intro k hk
        rw [winWrite_win, hc]
        by_cases hlast : k = d.toNat - 1
        · have e : (s.winCur.toNat + (j + 1) + 32768 - d.toNat + k) % 32768 = (s.winCur.toNat + j) % 32768 := by omega
          have e2 : j + 1 + k = j + d.toNat := by omega
          rw [e, read_write_same _ _ hwf, hb, e2, Nat.add_mod_right]
        · have := hr (k + 1) (by omega)
          rw [read_write_other _ hwf (by omega)]
          have e : (s.winCur.toNat + (j + 1) + 32768 - d.toNat + k) % 32768 =
              (s.winCur.toNat + j + 32768 - d.toNat + (k + 1)) % 32768 := by omega
          have e2 : j + 1 + k = j + (k + 1) := by omega
          rw [e, this, e2]
  have h0 := key n 0 s h (by omega) fun k hk => by
    have e : (0 + k) % d.toNat = k := by rw [Nat.zero_add, Nat.mod_eq_of_lt hk]
    rw [e, Nat.add_zero s.winCur.toNat]
  simpa only [copiedBytes, Nat.zero_add] using h0

/-- WriteToObject of a valid distance, with room (44_window.md rule R406, rule R407). -/
theorem writeToObject_ok {d : BitVec 16} {n : Nat} {s : State} (hwf : Memory.wf s.win) (hd1 : 1 ≤ d.toNat)
    (hd2 : d.toNat ≤ 32768) (hv : s.winWrapped = 1 ∨ d.toNat ≤ s.winCur.toNat) (hroom : s.hasRoom n) :
    writeToObject d n s = .ok () (emitted (copiedBytes d.toNat n s) s) := by
  unfold writeToObject
  rw [if_pos (by simpa [winValid] using hv), copyBytes_ok d n hroom, copyList_eq n hwf hd1 hd2]

/-- WriteToObject of a distance that reaches an unwritten slot (44_window.md rule R405). -/
theorem writeToObject_tooFar {d : BitVec 16} {n : Nat} {s : State}
    (hv : ¬(s.winWrapped = 1 ∨ d.toNat ≤ s.winCur.toNat)) :
    writeToObject d n s = .raise .distanceTooFar s := by
  unfold writeToObject
  rw [if_neg (by simpa [winValid] using hv)]

/-- All a copy can do: it emits some bytes, all n of them or up to the overflow. -/
theorem copyBytes_cases (d : BitVec 16) (n : Nat) (s : State) :
    (∃ bs, bs.length = n ∧ copyBytes d n s = .ok () (emitted bs s)) ∨
    (∃ bs, copyBytes d n s = .raise .outputOverflow (emitted bs s)) := by
  induction n generalizing s with
  | zero => exact .inl ⟨[], rfl, by simp [copyBytes]⟩
  | succ n ih =>
    simp only [copyBytes]
    rcases emit_cases (winRead d s) s with h | ⟨_, h⟩
    · rw [h, bind_ok]
      rcases ih (emitted [winRead d s] s) with ⟨bs, h1, h2⟩ | ⟨bs, h2⟩
      · exact .inl ⟨winRead d s :: bs, by simp [h1], by rw [h2, ← emitted_cons]⟩
      · exact .inr ⟨winRead d s :: bs, by rw [h2, ← emitted_cons]⟩
    · exact .inr ⟨[], by rw [h]; simp⟩

/-- All WriteToObject can do. -/
theorem writeToObject_cases (d : BitVec 16) (n : Nat) (s : State) :
    (∃ bs, bs.length = n ∧ writeToObject d n s = .ok () (emitted bs s)) ∨
    (∃ e bs, writeToObject d n s = .raise e (emitted bs s)) := by
  unfold writeToObject
  split
  · rcases copyBytes_cases d n s with h | ⟨bs, h⟩
    · exact .inl h
    · exact .inr ⟨_, bs, h⟩
  · exact .inr ⟨.distanceTooFar, [], by simp⟩

end Sys2Proof.Machine
end

