-- ==== Sys2Proof/Laws/Step.lean ====
section
/-! SUPPORT. Which action a step carries out: a running command's engine, a host move, a reset; and what the fetches
of a block header and of a row's filter-type byte can do. -/

namespace Sys2Proof.Machine

/-- While a command runs and the host does not reset, the engine acts (46_host_interface.md rule R473). -/
theorem nextAction_busy {s : State} (h1 : s.status = .busy) (h2 : s.host.head? ≠ some .reset) :
    nextAction s = engineAction s.afterPassiveMove := by
  unfold nextAction State.afterPassiveMove
  cases hh : s.host with
  | nil => simp only [h1, if_true]
  | cons m rest =>
    rw [hh, List.head?_cons] at h2
    have hm : m ≠ .reset := fun h => h2 (congrArg some h)
    simp only [if_neg hm, h1, if_true]
    cases m <;> rfl

theorem step_busy {s : State} (h1 : s.status = .busy) (h2 : s.host.head? ≠ some .reset) :
    step s = (engineAction s.afterPassiveMove).outcome := by rw [step, nextAction_busy h1 h2]

/-- A reset acts at once (70_reset_and_hazards.md rule R572). -/
theorem step_reset {s : State} {rest : List HostMove} (h : s.host = .reset :: rest) :
    step s = .next (powerOn rest s) := by
  simp only [step, nextAction, h, if_true, Action.outcome]

/-- An idle block without a host move (60_exceptions.md rule R539). -/
theorem step_idle {s : State} (h1 : s.status ≠ .busy) (h2 : s.host = []) : step s = .next s := by
  simp only [step, nextAction, h2, if_neg h1, Action.outcome]

/-- A host move while no command runs (46_host_interface.md rule R479). -/
theorem step_host {s : State} {m : HostMove} {rest : List HostMove} (h1 : s.status ≠ .busy) (h2 : s.host = m :: rest)
    (h3 : m ≠ .reset) : step s = (hostAction m { s with host := rest }).outcome := by
  simp only [step, nextAction, h2, if_neg h1, if_neg h3]

/-- Only the host's moves differ after a passive move. -/
theorem afterPassiveMove_eq (s : State) : s.afterPassiveMove = { s with host := s.afterPassiveMove.host } := by
  unfold State.afterPassiveMove
  split
  · rfl
  · split <;> rfl

/-- A block header where three bits are left (41_block_dispatch.md rule R243). -/
theorem fetchHeader_ok {s : State} (h : s.hasBits 3) :
    fetchHeader s = .ok (s.fieldAt s.pc 3) { s.atBit (s.pc + 3) with
      bfinal := BitVec.ofNat 1 (s.fieldAt s.pc 1), btype := BitVec.ofNat 2 (s.fieldAt (s.pc + 1) 2) } := by
  simp only [State.hasBits] at h
  unfold fetchHeader
  rw [readBit_ok (by simp only [State.hasBits]; omega), bind_ok]
  let u : State := { s.atBit (s.pc + 1) with bfinal := BitVec.ofBool (s.bitAt s.pc) }
  have hu : u.pc = s.pc + 1 := atBit_pc s (s.pc + 1)
  have hb : u.hasBits 2 := by
    simp only [State.hasBits, hu]
    show s.pc + 1 + 2 ≤ 8 * s.inLen
    omega
  have hf : ∀ k n, u.fieldAt k n = s.fieldAt k n := fun k n => fieldAt_congr (s := s) (t := u) rfl k n
  change (getBits 2 u).bind _ = _
  rw [getBits_ok (.inr hb), bind_ok, hu, hf]
  congr 1
  · rw [fieldAt_succ s s.pc 2]; omega
  · have e : BitVec.ofBool (s.bitAt s.pc) = BitVec.ofNat 1 (s.fieldAt s.pc 1) := by
      rw [fieldAt_succ]; cases s.bitAt s.pc <;> rfl
    show ({ u.atBit (s.pc + 1 + 2) with btype := _ } : State) = _
    simp only [u, e]
    rfl

/-- A block header that the input's end cuts (20_memory.md rule R87). -/
theorem fetchHeader_exhausted {s : State} (h : ¬ s.hasBits 3) :
    ∃ k v, fetchHeader s = .raise .inputExhausted { s.atBit k with bfinal := v } ∧ s.pc ≤ k ∧
      (s.pc ≤ 8 * s.inLen → k ≤ 8 * s.inLen) := by
  simp only [State.hasBits] at h
  unfold fetchHeader
  rw [readBit_eq]
  split
  · rename_i hlt
    let u : State := { s.atBit (s.pc + 1) with bfinal := BitVec.ofBool (s.bitAt s.pc) }
    have hu : u.pc = s.pc + 1 := atBit_pc s (s.pc + 1)
    have hn : ¬ u.hasBits 2 := by
      simp only [State.hasBits, hu]
      show ¬ (s.pc + 1 + 2 ≤ 8 * s.inLen)
      omega
    rw [bind_ok]
    change ∃ k v, (getBits 2 u).bind _ = _ ∧ _
    rw [getBits_exhausted (by omega) hn, bind_raise]
    refine ⟨max u.pc (8 * s.inLen), BitVec.ofBool (s.bitAt s.pc), rfl, ?_, ?_⟩ <;> rw [hu] <;> omega
  · exact ⟨s.pc, s.bfinal, by rw [atBit_self]; rfl, le_rfl, id⟩

/-- The filter-type byte of a row (45_defilter.md rule R426). -/
theorem fetchRow_eq (s : State) :
    fetchRow s =
      if s.inLen ≤ s.bytePos then .raise .inputExhausted s
      else .ok (Memory.read s.inMem s.bytePos).toNat
        { s with bytePos := s.bytePos + 1, ft := Memory.read s.inMem s.bytePos } := by
  unfold fetchRow readByte
  split <;> rfl

end Sys2Proof.Machine
end

