-- ==== Sys2Proof/Laws/Frame.lean ====
section
/-! SUPPORT. What every operation of a running engine keeps, whether it goes on or raises: the fields it never writes,
the direction of the cursor, OUT_LEN's count, the canonical form of the memories. Each operation has one lemma. -/

namespace Sys2Proof.Machine

/-- HLIT and HDIST are in range, and the tree registers hold symbols of their alphabets (10_state.md rule R31,
00_scope.md rule R18). -/
def TreesTame (s : State) : Prop :=
  s.hlit.toNat ≤ 288 ∧ s.hdist.toNat ≤ 32 ∧ s.litTree.symsBelow 288 = true ∧ s.distTree.symsBelow 32 = true ∧ s.clenTree.symsBelow 19 = true

/-- The frame of the engine's operations: t is reached from s. -/
structure Keeps (s t : State) : Prop where
  cmd : t.cmd = s.cmd
  status : t.status = s.status
  errClass : t.errClass = s.errClass
  errCode : t.errCode = s.errCode
  inLen : t.inLen = s.inLen
  inMem : t.inMem = s.inMem
  dfWidth : t.dfWidth = s.dfWidth
  dfHeight : t.dfHeight = s.dfHeight
  dfPixelSize : t.dfPixelSize = s.dfPixelSize
  outCapacity : t.outCapacity = s.outCapacity
  host : t.host = s.host
  pc : s.pc ≤ t.pc
  out : s.outLen = s.out.length → t.outLen = t.out.length
  room : ∀ c, s.outCapacity = some c → s.outLen ≤ c → t.outLen ≤ c
  wrapped : s.winWrapped = 1 → t.winWrapped = 1
  memories : MemoriesCanonical s → MemoriesCanonical t
  trees : TreesTame s → TreesTame t

/-- The cursor stays within the input (10_state.md rule R32). -/
def Within (s t : State) : Prop := t.inLen = s.inLen ∧ (s.pc ≤ 8 * s.inLen → t.pc ≤ 8 * t.inLen)

/-- t is reached from s by emitting bytes: OUT and the window hold them (20_memory.md rule R104). -/
def Emits (s t : State) : Prop :=
  ∃ bs, t.out = s.out ++ bs ∧ t.win = (winAppendData bs s).win ∧ t.winCur = (winAppendData bs s).winCur ∧
    t.winWrapped = (winAppendData bs s).winWrapped

/-- P holds of the state a part of an instruction leaves, whether it goes on or raises. -/
def Res.Leads {α : Type} (P : State → Prop) : Res α → Prop
  | .ok _ s => P s
  | .raise _ s => P s
  | .stop _ => True

theorem Res.Leads.mono {α : Type} {P Q : State → Prop} {r : Res α} (h : r.Leads P) (hpq : ∀ u, P u → Q u) :
    r.Leads Q := by
  cases r <;> first | exact hpq _ h | trivial

theorem leads_bind {α β : Type} {P Q : State → Prop} {r : Res α} {f : α → State → Res β} (h : r.Leads P)
    (hf : ∀ a u, P u → (f a u).Leads Q) (hpq : ∀ u, P u → Q u) : (r.bind f).Leads Q := by
  cases r with
  | ok a u => exact hf a u h
  | raise e u => exact hpq u h
  | stop x => trivial

/-- A sequence whose answer is known went through an answer of its first part. -/
theorem bind_eq_ok {α β : Type} {r : Res α} {f : α → State → Res β} {b : β} {u : State} (h : r.bind f = .ok b u) :
    ∃ a v, r = .ok a v ∧ f a v = .ok b u := by
  cases r with
  | ok a v => exact ⟨a, v, rfl, h⟩
  | raise e v => simp at h
  | stop x => simp at h

namespace Keeps

theorem refl (s : State) : Keeps s s :=
  ⟨rfl, rfl, rfl, rfl, rfl, rfl, rfl, rfl, rfl, rfl, rfl, le_rfl, id, fun _ _ h => h, id, id, id⟩

theorem trans {s t u : State} (h : Keeps s t) (k : Keeps t u) : Keeps s u where
  cmd := k.cmd.trans h.cmd
  status := k.status.trans h.status
  errClass := k.errClass.trans h.errClass
  errCode := k.errCode.trans h.errCode
  inLen := k.inLen.trans h.inLen
  inMem := k.inMem.trans h.inMem
  dfWidth := k.dfWidth.trans h.dfWidth
  dfHeight := k.dfHeight.trans h.dfHeight
  dfPixelSize := k.dfPixelSize.trans h.dfPixelSize
  outCapacity := k.outCapacity.trans h.outCapacity
  host := k.host.trans h.host
  pc := h.pc.trans k.pc
  out := fun x => k.out (h.out x)
  room := fun c hc x => k.room c (h.outCapacity.trans hc) (h.room c hc x)
  wrapped := fun x => k.wrapped (h.wrapped x)
  memories := fun x => k.memories (h.memories x)
  trees := fun x => k.trees (h.trees x)

theorem atBit {s : State} {k : Nat} (h : s.pc ≤ k) : Keeps s (s.atBit k) :=
  ⟨rfl, rfl, rfl, rfl, rfl, rfl, rfl, rfl, rfl, rfl, rfl, by simpa using h, id, fun _ _ h => h, id, id, id⟩

end Keeps

theorem within_refl (s : State) : Within s s := ⟨rfl, id⟩

theorem within_trans {s t u : State} (h : Within s t) (k : Within t u) : Within s u :=
  ⟨k.1.trans h.1, fun x => k.2 (h.2 x)⟩

theorem within_atBit {s : State} {k : Nat} (h : k = s.pc ∨ k ≤ 8 * s.inLen) : Within s (s.atBit k) := by
  refine ⟨rfl, fun hs => ?_⟩
  rw [atBit_pc, atBit_inLen]
  omega

theorem emits_refl (s : State) : Emits s s := ⟨[], by simp, rfl, rfl, rfl⟩

theorem emits_trans {s t u : State} (h : Emits s t) (k : Emits t u) : Emits s u := by
  obtain ⟨bs, h1, h2, h3, h4⟩ := h
  obtain ⟨cs, k1, k2, k3, k4⟩ := k
  have e := winAppendData_congr cs (s := winAppendData bs s) (t := t) h2 h3 h4
  refine ⟨bs ++ cs, by rw [k1, h1, List.append_assoc], ?_, ?_, ?_⟩
  · rw [k2, e, winAppendData_append]
  · rw [k3, e, winAppendData_append]
  · rw [k4, e, winAppendData_append]

theorem emits_emitted (bs : List Byte) (s : State) : Emits s (emitted bs s) :=
  ⟨bs, emitted_out bs s, emitted_win bs s, emitted_winCur bs s, emitted_winWrapped bs s⟩

/-! ## The cursor's operations -/

theorem getBits_keeps (n : Nat) (s : State) : (getBits n s).Leads fun u => ∃ k, u = s.atBit k ∧ s.pc ≤ k ∧
    (k = s.pc ∨ k ≤ 8 * s.inLen) := by
  rcases getBits_cases n s with ⟨h, e⟩ | ⟨h, e⟩ <;> rw [e]
  · refine ⟨_, rfl, by omega, ?_⟩
    rcases h with h | h
    · left; omega
    · right; simpa [State.hasBits] using h
  · exact ⟨_, rfl, by omega, by omega⟩

theorem decodeSymbol_keeps (t : Tree) (s : State) : (decodeSymbol t s).Leads fun u => ∃ k, u = s.atBit k ∧ s.pc ≤ k ∧
    (k = s.pc ∨ k ≤ 8 * s.inLen) := by
  rcases decodeSymbol_cases t s with ⟨_, k, e, h1, h2, _⟩ | ⟨_, k, e, h1, h2⟩ <;> rw [e]
  · exact ⟨k, rfl, by omega, .inr h2⟩
  · exact ⟨k, rfl, h1, h2⟩

theorem readByte_keeps (s : State) : (readByte s).Leads fun u => u = s ∨ (s.bytePos < s.inLen ∧ u = s.atBit (s.pc + 8)) := by
  rw [readByte_eq]
  split
  · exact .inl rfl
  · exact .inr ⟨by omega, rfl⟩

/-- What a read of a byte or of an aligned field leaves: the cursor only, by whole bytes within the input. -/
def Reads (s u : State) : Prop :=
  ∃ k, u = s.atBit k ∧ s.pc ≤ k ∧ (8 ∣ s.pc → 8 ∣ k ∧ (k = s.pc ∨ k ≤ 8 * s.inLen))

theorem reads_refl (s : State) : Reads s s := ⟨s.pc, by simp, le_rfl, fun h => ⟨h, .inl rfl⟩⟩

theorem reads_trans {s t u : State} (h : Reads s t) (k : Reads t u) : Reads s u := by
  obtain ⟨i, rfl, h1, h2⟩ := h
  obtain ⟨j, rfl, k1, k2⟩ := k
  simp only [atBit_pc, atBit_inLen, atBit_atBit] at *
  refine ⟨j, rfl, by omega, fun hd => ?_⟩
  have a := h2 hd
  have b := k2 a.1
  exact ⟨b.1, by omega⟩

theorem Reads.keeps {s u : State} (h : Reads s u) : Keeps s u := by
  obtain ⟨k, rfl, h1, _⟩ := h
  exact .atBit h1

theorem readByte_reads (s : State) : (readByte s).Leads (Reads s) := by
  refine (readByte_keeps s).mono fun u h => ?_
  rcases h with rfl | ⟨h, rfl⟩
  · exact reads_refl _
  · have h0 : s.pc = 8 * s.bytePos + s.bitPos.toNat := rfl
    have := s.bitPos.isLt
    exact ⟨_, rfl, by omega, fun hd => by omega⟩

theorem readLe16_reads (s : State) : (readLe16 s).Leads (Reads s) := by
  unfold readLe16
  refine leads_bind (readByte_reads s) (fun _ u h => ?_) fun _ h => h
  refine leads_bind ((readByte_reads u).mono fun _ k => reads_trans h k) (fun _ v k => ?_) fun _ h => h
  exact k

theorem alignedByte_eq (s : State) : s.pc ≤ 8 * s.alignedByte ∧ 8 * s.alignedByte < s.pc + 8 := by
  have h1 : s.alignedByte = (s.pc + 7) / 8 := rfl
  omega

/-- t differs from s in the inner registers only: no cursor, count of lengths, tree, output, window or row. -/
def Inner (s t : State) : Prop :=
  t = { s with
    phase := t.phase, bfinal := t.bfinal, btype := t.btype, hclen := t.hclen, clenLens := t.clenLens,
    lens := t.lens, lensCount := t.lensCount, storedRemain := t.storedRemain, matchLen := t.matchLen,
    matchDist := t.matchDist, rowY := t.rowY, colI := t.colI, ft := t.ft, distNext := t.distNext }

theorem Inner.keeps {s t : State} (h : Inner s t) : Keeps s t := by
  rw [Inner] at h
  rw [h]
  exact ⟨rfl, rfl, rfl, rfl, rfl, rfl, rfl, rfl, rfl, rfl, rfl, le_rfl, id, fun _ _ x => x, id, id, id⟩

theorem Inner.within {s t : State} (h : Inner s t) : Within s t := by
  rw [Inner] at h
  rw [h]
  exact ⟨rfl, id⟩

theorem Inner.emits {s t : State} (h : Inner s t) : Emits s t := by
  rw [Inner] at h
  rw [h]
  exact ⟨[], by simp, rfl, rfl, rfl⟩

/-! ## The output -/

theorem emitted_keeps {s : State} {bs : List Byte}
    (h : ∀ c, s.outCapacity = some c → s.outLen ≤ c → s.outLen + bs.length ≤ c) : Keeps s (emitted bs s) where
  cmd := by rw [emitted_eq]
  status := by rw [emitted_eq]
  errClass := by rw [emitted_eq]
  errCode := by rw [emitted_eq]
  inLen := by rw [emitted_eq]
  inMem := by rw [emitted_eq]
  dfWidth := by rw [emitted_eq]
  dfHeight := by rw [emitted_eq]
  dfPixelSize := by rw [emitted_eq]
  outCapacity := by rw [emitted_eq]
  host := by rw [emitted_eq]
  pc := by rw [emitted_pc]
  out := fun x => by rw [emitted_outLen, emitted_out, List.length_append, x]
  room := fun c hc x => by rw [emitted_outLen]; exact h c hc x
  wrapped := fun x => by rw [emitted_winWrapped, winAppendData_wrapped]; exact .inl x
  memories := fun x => by
    refine ⟨?_, ?_, ?_, ?_⟩
    · rw [emitted_inMem]; exact x.1
    · rw [emitted_win]; exact winAppendData_wf bs x.2.1
    · rw [emitted_eq]; exact x.2.2.1
    · rw [emitted_eq]; exact x.2.2.2
  trees := fun x => by rw [emitted_eq]; exact x

/-- What an emission leaves: some bytes emitted, within OUT_CAPACITY. -/
def Grows (s u : State) : Prop :=
  ∃ bs, u = emitted bs s ∧ ∀ c, s.outCapacity = some c → s.outLen ≤ c → s.outLen + bs.length ≤ c

theorem grows_refl (s : State) : Grows s s := ⟨[], by simp, fun _ _ h => by simpa using h⟩

theorem emit_grows (b : Byte) (s : State) : (emit b s).Leads (Grows s) := by
  by_cases h : s.outCapacity = some s.outLen
  · rw [emit_overflow b h]
    exact grows_refl s
  · rcases emit_cases b s with e | ⟨hc, _⟩
    · rw [e]
      refine ⟨[b], rfl, fun c hc hl => ?_⟩
      have : c ≠ s.outLen := fun hx => h (by rw [hc, hx])
      rw [List.length_singleton]
      omega
    · exact absurd hc h

theorem emitted_append (bs cs : List Byte) (s : State) : emitted (bs ++ cs) s = emitted cs (emitted bs s) := by
  induction bs generalizing s with
  | nil => simp
  | cons b bs ih => rw [List.cons_append, emitted_cons, ih, ← emitted_cons]

theorem grows_trans {s t u : State} (h : Grows s t) (k : Grows t u) : Grows s u := by
  obtain ⟨bs, rfl, h1⟩ := h
  obtain ⟨cs, rfl, k1⟩ := k
  refine ⟨bs ++ cs, (emitted_append bs cs s).symm, fun c hc hl => ?_⟩
  have := k1 c (by rw [emitted_outCapacity]; exact hc) (by rw [emitted_outLen]; exact h1 c hc hl)
  rw [emitted_outLen] at this
  rw [List.length_append]
  omega

theorem Grows.keeps {s u : State} (h : Grows s u) : Keeps s u := by
  obtain ⟨bs, rfl, h1⟩ := h
  exact emitted_keeps h1

theorem Grows.within {s u : State} (h : Grows s u) : Within s u := by
  obtain ⟨bs, rfl, _⟩ := h
  exact ⟨emitted_inLen bs s, by rw [emitted_pc, emitted_inLen]; exact id⟩

theorem Grows.emits {s u : State} (h : Grows s u) : Emits s u := by
  obtain ⟨bs, rfl, _⟩ := h
  exact emits_emitted bs s

theorem copyBytes_grows (d : BitVec 16) (n : Nat) (s : State) : (copyBytes d n s).Leads (Grows s) := by
  induction n generalizing s with
  | zero => exact grows_refl s
  | succ n ih =>
    exact leads_bind (emit_grows _ s) (fun _ u h => (ih u).mono fun _ k => grows_trans h k) fun _ h => h

theorem writeToObject_grows (d : BitVec 16) (n : Nat) (s : State) : (writeToObject d n s).Leads (Grows s) := by
  unfold writeToObject
  split
  · exact copyBytes_grows d n s
  · exact grows_refl s

/-! ## The engine's parts -/

/-- The frame of an inflate part: what it keeps, the cursor within the input, OUT and the window in step. -/
structure Runs (s t : State) : Prop where
  keeps : Keeps s t
  within : Within s t
  emits : Emits s t
  prevRow : t.prevRow = s.prevRow
  curRow : t.curRow = s.curRow

theorem Runs.refl (s : State) : Runs s s := ⟨.refl s, within_refl s, emits_refl s, rfl, rfl⟩

theorem Runs.trans {s t u : State} (h : Runs s t) (k : Runs t u) : Runs s u :=
  ⟨h.keeps.trans k.keeps, within_trans h.within k.within, emits_trans h.emits k.emits, k.prevRow.trans h.prevRow,
    k.curRow.trans h.curRow⟩

theorem Inner.runs {s t : State} (h : Inner s t) : Runs s t := by
  refine ⟨h.keeps, h.within, h.emits, ?_, ?_⟩ <;> rw [Inner] at h <;> rw [h]

/-- Runs, begun after an update of inner registers. -/
theorem Runs.after {s t u : State} (k : Runs t u) (h : Inner s t) : Runs s u := h.runs.trans k

theorem Grows.runs {s t : State} (h : Grows s t) : Runs s t := by
  refine ⟨h.keeps, h.within, h.emits, ?_, ?_⟩ <;> obtain ⟨bs, rfl, _⟩ := h <;> rw [emitted_eq]

theorem runs_atBit {s : State} {k : Nat} (h1 : s.pc ≤ k) (h2 : k = s.pc ∨ k ≤ 8 * s.inLen) : Runs s (s.atBit k) :=
  ⟨.atBit h1, within_atBit h2, ⟨[], by simp, rfl, rfl, rfl⟩, rfl, rfl⟩

/-- A part that runs on after one that did. -/
theorem runs_bind {α β : Type} {s : State} {r : Res α} {f : α → State → Res β} (h : r.Leads (Runs s))
    (hf : ∀ a u, (f a u).Leads (Runs u)) : (r.bind f).Leads (Runs s) :=
  leads_bind h (fun a u k => (hf a u).mono fun _ => k.trans) fun _ k => k

theorem getBits_runs (n : Nat) (s : State) : (getBits n s).Leads (Runs s) :=
  (getBits_keeps n s).mono fun _ ⟨_, h, h1, h2⟩ => h ▸ runs_atBit h1 h2

theorem decodeSymbol_runs (t : Tree) (s : State) : (decodeSymbol t s).Leads (Runs s) :=
  (decodeSymbol_keeps t s).mono fun _ ⟨_, h, h1, h2⟩ => h ▸ runs_atBit h1 h2

/-- New counts of code lengths, in range. -/
theorem runs_counts (s : State) (a : BitVec 9) (b : BitVec 6)
    (h : s.hlit.toNat ≤ 288 ∧ s.hdist.toNat ≤ 32 → a.toNat ≤ 288 ∧ b.toNat ≤ 32) :
    Runs s { s with hlit := a, hdist := b } :=
  ⟨⟨rfl, rfl, rfl, rfl, rfl, rfl, rfl, rfl, rfl, rfl, rfl, le_rfl, id, fun _ _ x => x, id, id,
    fun x => ⟨(h ⟨x.1, x.2.1⟩).1, (h ⟨x.1, x.2.1⟩).2, x.2.2⟩⟩, ⟨rfl, id⟩, ⟨[], by simp, rfl, rfl, rfl⟩, rfl, rfl⟩

theorem readCounts_runs (s : State) : (readCounts s).Leads (Runs s) := by
  unfold readCounts
  rcases getBits_cases 5 s with ⟨h, e⟩ | ⟨h, e⟩ <;> rw [e]
  · have ha := fieldAt_lt s s.pc 5
    have r1 : Runs s (s.atBit (s.pc + 5)) := by have := getBits_runs 5 s; rw [e] at this; exact this
    rw [bind_ok]
    have r2 := runs_counts (s.atBit (s.pc + 5)) (BitVec.ofNat 9 (s.fieldAt s.pc 5 + 257)) s.hdist
      (by rw [BitVec.toNat_ofNat]; intro x; exact ⟨by omega, x.2⟩)
    generalize hu : ({ s.atBit (s.pc + 5) with hlit := BitVec.ofNat 9 (s.fieldAt s.pc 5 + 257) } : State) = u
    have r3 : Runs s u := r1.trans (hu ▸ r2)
    rcases getBits_cases 5 u with ⟨h', e'⟩ | ⟨h', e'⟩ <;> rw [e']
    · have hb := fieldAt_lt u u.pc 5
      have r4 : Runs u (u.atBit (u.pc + 5)) := by have := getBits_runs 5 u; rw [e'] at this; exact this
      rw [bind_ok]
      have r5 := runs_counts (u.atBit (u.pc + 5)) u.hlit (BitVec.ofNat 6 (u.fieldAt u.pc 5 + 1))
        (by rw [BitVec.toNat_ofNat]; intro x; exact ⟨x.1, by omega⟩)
      refine runs_bind ((getBits_runs 4 _).mono fun _ k => ((r3.trans r4).trans r5).trans k) fun c w => ?_
      exact Inner.runs rfl
    · have := getBits_runs 5 u
      rw [e'] at this
      exact r3.trans this
  · have := getBits_runs 5 s
    rw [e] at this
    exact this

theorem readClenLens_runs (syms : List Nat) (s : State) : (readClenLens syms s).Leads (Runs s) := by
  induction syms generalizing s with
  | nil => exact .refl s
  | cons sym syms ih =>
    exact runs_bind (getBits_runs 3 s) fun v u => (ih _).mono fun _ k => k.after rfl

/-- New tree registers, of symbols of their alphabets. -/
theorem runs_trees (s : State) (l d c : Tree) (h : TreesTame s → TreesTame { s with litTree := l, distTree := d, clenTree := c }) :
    Runs s { s with litTree := l, distTree := d, clenTree := c } :=
  ⟨⟨rfl, rfl, rfl, rfl, rfl, rfl, rfl, rfl, rfl, rfl, rfl, le_rfl, id, fun _ _ x => x, id, id, h⟩, ⟨rfl, id⟩,
    ⟨[], by simp, rfl, rfl, rfl⟩, rfl, rfl⟩

theorem buildClenTree_runs (s : State) : (buildClenTree s).Leads (Runs s) := by
  unfold buildClenTree
  split
  · rename_i t h
    have hb := buildTree_symsBelow h
    rw [List.length_map, Vector.length_toList] at hb
    exact runs_trees s s.litTree s.distTree t fun x => ⟨x.1, x.2.1, x.2.2.1, x.2.2.2.1, hb⟩
  · exact .refl s

theorem getBits_lt {n : Nat} {s u : State} {v : Nat} (h : getBits n s = .ok v u) : u.pc = s.pc + n := by
  rcases getBits_cases n s with ⟨_, e⟩ | ⟨_, e⟩ <;> rw [e] at h <;> cases h
  rw [atBit_pc]

theorem readCounts_lt {s u : State} (h : readCounts s = .ok () u) : s.pc < u.pc := by
  obtain ⟨_, u1, h1, h⟩ := bind_eq_ok h
  obtain ⟨_, u2, h2, h⟩ := bind_eq_ok h
  obtain ⟨_, u3, h3, h⟩ := bind_eq_ok h
  cases h
  have e1 : u1.pc = s.pc + 5 := getBits_lt h1
  have e2 := getBits_lt h2
  have e3 := getBits_lt h3
  change u2.pc = u1.pc + 5 at e2
  change u3.pc = u2.pc + 4 at e3
  show s.pc < u3.pc
  omega

/-- A dynamic header: it reads at least its counts, and goes on to the code lengths. -/
theorem dynamicHeader_runs (s : State) : (dynamicHeader s).Leads (Runs s) ∧
    ∀ u, dynamicHeader s = .ok () u → u.phase = .dynLens ∧ u.lensCount = 0 ∧ s.pc < u.pc := by
  have rest : ∀ u : State, ((readClenLens (clenOrder.take u.hclen.toNat)
      { u with clenLens := Vector.replicate 19 0 }).bind fun _ s => (buildClenTree s).bind fun _ s =>
        .ok () { s with phase := .dynLens, lensCount := 0 }).Leads (Runs u) := fun u => by
    refine runs_bind ((readClenLens_runs _ _).mono fun _ k => k.after rfl) fun _ v => ?_
    exact runs_bind (buildClenTree_runs v) fun _ w => Inner.runs rfl
  refine ⟨runs_bind (readCounts_runs s) fun _ u => rest u, fun u h => ?_⟩
  obtain ⟨_, u1, h1, h⟩ := bind_eq_ok h
  have r := rest u1
  rw [h] at r
  obtain ⟨_, u2, h2, h⟩ := bind_eq_ok h
  obtain ⟨_, u3, h3, h⟩ := bind_eq_ok h
  cases h
  exact ⟨rfl, rfl, (readCounts_lt h1).trans_le r.keeps.pc⟩

theorem buildTrees_runs (s : State) : (buildTrees s).Leads (Runs s) := by
  unfold buildTrees
  split
  · trivial
  · dsimp only
    split
    · exact .refl s
    · rename_i l hl
      have a : s.hlit.toNat ≤ 288 → l.symsBelow 288 = true := fun h =>
        symsBelow_mono (by simp; omega) (buildTree_symsBelow hl)
      split
      · exact runs_trees s l s.distTree s.clenTree fun x => ⟨x.1, x.2.1, a x.1, x.2.2.2.1, x.2.2.2.2⟩
      · rename_i d hd
        have b : s.hdist.toNat ≤ 32 → d.symsBelow 32 = true := fun h =>
          symsBelow_mono (by simp; omega) (buildTree_symsBelow hd)
        exact (runs_trees s l d s.clenTree fun x => ⟨x.1, x.2.1, a x.1, b x.2.1, x.2.2.2.2⟩).trans (Inner.runs rfl)

theorem appendLens_runs (r : Nat) (v : BitVec 4) (s : State) : (appendLens r v s).Leads (Runs s) := by
  unfold appendLens
  split
  · trivial
  · exact Inner.runs rfl

theorem lensRun_runs (r : Nat) (v : State → BitVec 4) (s : State) : (lensRun r v s).Leads (Runs s) := by
  unfold lensRun
  split
  · exact .refl s
  · exact appendLens_runs r (v s) s

theorem readRepeat_runs (base n : Nat) (s : State) : (readRepeat base n s).Leads (Runs s) :=
  runs_bind (getBits_runs n s) fun _ u => .refl u

theorem inner_matchLen (s : State) (v : BitVec 9) : Inner s { s with matchLen := v } := rfl

theorem inner_matchDist (s : State) (v : BitVec 16) : Inner s { s with matchDist := v } := rfl

theorem inner_distNext (s : State) (v : Bool) : Inner s { s with distNext := v } := rfl

theorem readMatchLen_runs (sym : Nat) (s : State) : (readMatchLen sym s).Leads (Runs s) :=
  runs_bind (getBits_runs (lext sym) s) fun _ u => (inner_matchLen u _).runs

theorem readMatchDist_runs (sym : Nat) (s : State) : (readMatchDist sym s).Leads (Runs s) :=
  runs_bind (getBits_runs (dext sym) s) fun _ u => (inner_matchDist u _).runs

theorem backRefLength_runs (sym : Nat) (s : State) : (backRefLength sym s).Leads (Runs s) := by
  unfold backRefLength
  split
  · exact .refl s
  · refine runs_bind (readMatchLen_runs sym s) fun _ u => ?_
    exact (inner_distNext u true).runs

theorem backRefDistance_runs (sym : Nat) (s : State) : (backRefDistance sym s).Leads (Runs s) := by
  unfold backRefDistance
  refine runs_bind ((readMatchDist_runs sym _).mono fun _ k => k.after rfl) fun _ u => ?_
  exact (writeToObject_grows _ _ u).mono fun _ k => k.runs

theorem alignToByte_runs (s : State) : Runs s (alignToByte s) := by
  rw [alignToByte_eq]
  have := alignedByte_eq s
  refine ⟨.atBit this.1, ⟨rfl, fun h => ?_⟩, ⟨[], by simp, rfl, rfl, rfl⟩, rfl, rfl⟩
  rw [atBit_pc, atBit_inLen]
  omega

/-- A stored copy on a byte boundary. -/
theorem copyStored_runs (n : Nat) (s : State) (h : 8 ∣ s.pc) : (copyStored n s).Leads (Runs s) := by
  induction n generalizing s with
  | zero => exact .refl s
  | succ n ih =>
    refine leads_bind (P := fun u => Runs s u ∧ 8 ∣ u.pc) ((readByte_reads s).mono fun u k => ?_) (fun b u k => ?_)
      fun u k => k.1
    · obtain ⟨i, rfl, k1, k2⟩ := k
      exact ⟨runs_atBit k1 (k2 h).2, by rw [atBit_pc]; exact (k2 h).1⟩
    · refine leads_bind (P := fun v => Runs s v ∧ 8 ∣ v.pc) ((emit_grows b u).mono fun v g => ?_) (fun _ v g => ?_)
        fun _ g => g.1
      · refine ⟨k.1.trans g.runs, ?_⟩
        obtain ⟨bs, rfl, _⟩ := g
        rw [emitted_pc]
        exact k.2
      · refine (ih _ ?_).mono fun _ l => g.1.trans (l.after rfl)
        exact g.2

/-- NLEN and the data of a stored block, on a byte boundary. -/
theorem storedData_runs (len : BitVec 16) (s : State) (h : 8 ∣ s.pc) :
    ((readLe16 s).bind fun nlen s =>
      if nlen ≠ len ^^^ 0xFFFF then .raise .storedLenMismatch s
      else (copyStored len.toNat { s with storedRemain := len }).bind fun _ s =>
        .ok () { s with phase := .blockEnd }).Leads (Runs s) := by
  refine leads_bind (P := fun v => Runs s v ∧ 8 ∣ v.pc) ((readLe16_reads s).mono fun v r => ?_) (fun nlen v l => ?_)
    fun _ l => l.1
  · obtain ⟨i, rfl, k1, k2⟩ := r
    exact ⟨runs_atBit k1 (k2 h).2, by rw [atBit_pc]; exact (k2 h).1⟩
  · split
    · exact l.1
    · have hd : 8 ∣ State.pc { v with storedRemain := len } := l.2
      refine leads_bind ((copyStored_runs _ _ hd).mono fun _ m => l.1.trans (m.after rfl)) (fun _ w m => ?_) fun _ m => m
      exact m.trans (Inner.runs rfl)

theorem readByte_lt {s u : State} {b : Byte} (h : readByte s = .ok b u) : s.pc < u.pc := by
  rw [readByte_eq] at h
  split at h
  · cases h
  · cases h
    rw [atBit_pc]
    omega

theorem readLe16_lt {s u : State} {v : BitVec 16} (h : readLe16 s = .ok v u) : s.pc < u.pc := by
  obtain ⟨_, u1, h1, h⟩ := bind_eq_ok h
  obtain ⟨_, u2, h2, h⟩ := bind_eq_ok h
  cases h
  exact (readByte_lt h1).trans (readByte_lt h2)

/-- A stored block: it reads at least LEN and NLEN, and ends at the block end. -/
theorem storedBlock_runs (s : State) : (storedBlock s).Leads (Runs s) ∧
    ∀ u, storedBlock s = .ok () u → u.phase = .blockEnd ∧ s.pc < u.pc := by
  have h0 : 8 ∣ (alignToByte s).pc := by rw [alignToByte_eq, atBit_pc]; exact ⟨_, rfl⟩
  have h1 := alignToByte_runs s
  have hr := readLe16_reads (alignToByte s)
  constructor
  · refine leads_bind (P := fun v => Runs s v ∧ 8 ∣ v.pc) (hr.mono fun v r => ?_) (fun len v k => ?_) fun _ k => k.1
    · obtain ⟨i, rfl, k1, k2⟩ := r
      exact ⟨h1.trans (runs_atBit k1 (k2 h0).2), by rw [atBit_pc]; exact (k2 h0).1⟩
    · exact (storedData_runs len v k.2).mono fun _ l => k.1.trans l
  · intro u h
    obtain ⟨len, v, e, h⟩ := bind_eq_ok h
    rw [e] at hr
    have hd : 8 ∣ v.pc := by
      obtain ⟨i, rfl, k1, k2⟩ := hr
      rw [atBit_pc]
      exact (k2 h0).1
    have l := storedData_runs len v hd
    rw [h] at l
    refine ⟨?_, (h1.keeps.pc.trans_lt (readLe16_lt e)).trans_le l.keeps.pc⟩
    obtain ⟨_, w, _, h⟩ := bind_eq_ok h
    split at h
    · cases h
    · obtain ⟨_, x, _, h⟩ := bind_eq_ok h
      cases h
      rfl

theorem fetchHeader_runs (s : State) : (fetchHeader s).Leads (Runs s) := by
  by_cases h : s.hasBits 3
  · rw [fetchHeader_ok h]
    exact (runs_atBit (by omega) (.inr h)).trans (Inner.runs rfl)
  · obtain ⟨k, v, e, h1, h2⟩ := fetchHeader_exhausted h
    rw [e]
    refine Runs.trans ⟨.atBit h1, ⟨rfl, ?_⟩, ⟨[], by simp, rfl, rfl, rfl⟩, rfl, rfl⟩ (Inner.runs rfl)
    rw [atBit_pc]
    exact h2

/-! ## Rows -/

/-- The frame of a row's parts: what they keep, and the inflate engine's window untouched. -/
structure RowRuns (s t : State) : Prop where
  keeps : Keeps s t
  prevRow : t.prevRow = s.prevRow
  rowY : t.rowY = s.rowY
  phase : t.phase = s.phase
  bitPos : t.bitPos = s.bitPos
  within : s.bitPos = 0 → s.pc ≤ 8 * s.inLen → t.pc ≤ 8 * t.inLen

theorem RowRuns.refl (s : State) : RowRuns s s := ⟨.refl s, rfl, rfl, rfl, rfl, fun _ => id⟩

theorem RowRuns.trans {s t u : State} (h : RowRuns s t) (k : RowRuns t u) : RowRuns s u :=
  ⟨h.keeps.trans k.keeps, k.prevRow.trans h.prevRow, k.rowY.trans h.rowY, k.phase.trans h.phase,
    k.bitPos.trans h.bitPos, fun a b => k.within (h.bitPos.trans a) (h.within a b)⟩

theorem row_bind {α β : Type} {s : State} {r : Res α} {f : α → State → Res β} (h : r.Leads (RowRuns s))
    (hf : ∀ a u, (f a u).Leads (RowRuns u)) : (r.bind f).Leads (RowRuns s) :=
  leads_bind h (fun a u k => (hf a u).mono fun _ => k.trans) fun _ k => k

theorem row_colI (s : State) (i : Nat) : RowRuns s { s with colI := i } :=
  ⟨Inner.keeps rfl, rfl, rfl, rfl, rfl, fun _ => id⟩

theorem row_ft (s : State) (v : BitVec 8) : RowRuns s { s with ft := v } :=
  ⟨Inner.keeps rfl, rfl, rfl, rfl, rfl, fun _ => id⟩

theorem row_curRow (s : State) (i : Nat) (b : Byte) : RowRuns s { s with curRow := Memory.write s.curRow i b } :=
  ⟨⟨rfl, rfl, rfl, rfl, rfl, rfl, rfl, rfl, rfl, rfl, rfl, le_rfl, id, fun _ _ h => h, id,
    fun h => ⟨h.1, h.2.1, h.2.2.1, wf_write i b h.2.2.2⟩, id⟩, rfl, rfl, rfl, rfl, fun _ => id⟩

theorem readByte_row (s : State) : (readByte s).Leads (RowRuns s) := by
  unfold readByte
  have hb := s.bitPos.isLt
  have h0 : s.pc = 8 * s.bytePos + s.bitPos.toNat := rfl
  split
  · exact .refl s
  · refine ⟨⟨rfl, rfl, rfl, rfl, rfl, rfl, rfl, rfl, rfl, rfl, rfl, ?_, id, fun _ _ h => h, id, id, id⟩, rfl, rfl, rfl,
      rfl, fun hz _ => ?_⟩
    · show s.pc ≤ 8 * (s.bytePos + 1) + s.bitPos.toNat
      omega
    · show 8 * (s.bytePos + 1) + s.bitPos.toNat ≤ 8 * s.inLen
      rw [hz]
      simp
      omega

theorem outAppend_row (b : Byte) (s : State) : (outAppend b s).Leads (RowRuns s) := by
  unfold outAppend
  split
  · exact .refl s
  · rename_i h
    refine ⟨⟨rfl, rfl, rfl, rfl, rfl, rfl, rfl, rfl, rfl, rfl, rfl, le_rfl, fun hx => ?_, fun c hc hx => ?_, id, id, id⟩,
      rfl, rfl, rfl, rfl, fun _ => id⟩
    · show s.outLen + 1 = (s.out ++ [b]).length
      rw [List.length_append, List.length_singleton, hx]
    · have : c ≠ s.outLen := fun e => h (by rw [hc, e])
      show s.outLen + 1 ≤ c
      omega

theorem filterBytes_row (pred : Byte → Byte → Byte → Byte) (n i : Nat) (s : State) :
    (filterBytes pred n i s).Leads (RowRuns s) := by
  induction n generalizing i s with
  | zero => exact .refl s
  | succ n ih =>
    simp only [filterBytes]
    refine row_bind ((readByte_row _).mono fun _ k => (row_colI s i).trans k) fun f u => ?_
    refine row_bind ((outAppend_row _ _).mono fun _ k => (row_curRow u i _).trans k) fun _ v => ?_
    exact ih (i + 1) v

end Sys2Proof.Machine
end

