-- ==== Sys2Proof/Laws/Engine.lean ====
section
/-! SUPPORT. Everything an instruction of the inflate engine, a row instruction and a step of a running command can do,
each said once. -/

namespace Sys2Proof.Machine

/-- The phases an instruction of a format can leave, begun in phase p. -/
def leavesPhase (f : Format) (p q : Phase) : Prop :=
  match f with
  | .hdr => q = .blockEnd ∨ q = .symbols ∨ q = .dynLens
  | .litsym => q = p ∨ q = .blockEnd
  | _ => q = p

/-- All an inflate instruction can do: it is the end of a part that runs; where it goes on, it leaves a phase of its
format's. -/
def Inflates (f : Format) (s : State) (o : Host.Outcome State Fault Refusal) : Prop :=
  ∃ r : Res Unit, o = r.finish ∧ r.Leads (Runs s) ∧ ∀ u, r = .ok () u → leavesPhase f s.phase u.phase

theorem inflates_raise (f : Format) (e : Err) {s u : State} (h : Runs s u) :
    Inflates f s (.next (errorEntry e u)) := ⟨.raise e u, rfl, h, fun _ h => by cases h⟩

theorem inflates_next {f : Format} {s u : State} (h : Runs s u) (hp : leavesPhase f s.phase u.phase) :
    Inflates f s (.next u) := ⟨.ok () u, rfl, h, fun _ h => by cases h; exact hp⟩

theorem getBits_inner {n v : Nat} {s u : State} (h : getBits n s = .ok v u) : ∃ k, u = s.atBit k := by
  have := getBits_keeps n s
  rw [h] at this
  obtain ⟨k, hk, _⟩ := this
  exact ⟨k, hk⟩

theorem lensRun_ok {r : Nat} {v : State → BitVec 4} {s u : State} (h : lensRun r v s = .ok () u) :
    u.phase = s.phase ∧ u.lensTotal = s.lensTotal ∧ s.lensCount.toNat + r ≤ s.lensTotal ∧
      u.lensCount.toNat ≤ s.lensCount.toNat + r := by
  unfold lensRun at h
  split at h
  · cases h
  · unfold appendLens at h
    split at h
    · cases h
    · cases h
      refine ⟨rfl, rfl, by omega, ?_⟩
      rw [BitVec.toNat_ofNat]
      exact Nat.mod_le _ _

theorem backRefLength_inflates (sym : Nat) (s : State) : Inflates .litsym s (backRefLength sym s).finish := by
  refine ⟨_, rfl, backRefLength_runs sym s, fun u h => ?_⟩
  unfold backRefLength at h
  split at h
  · cases h
  · obtain ⟨_, v, h1, h⟩ := bind_eq_ok h
    obtain ⟨_, w, h2, h3⟩ := bind_eq_ok h1
    obtain ⟨k, rfl⟩ := getBits_inner h2
    cases h3
    cases h
    exact .inl rfl

theorem emitted_phase (bs : List Byte) (s : State) : (emitted bs s).phase = s.phase := by rw [emitted_eq]

theorem backRefDistance_inflates (sym : Nat) (s : State) : Inflates .distsym s (backRefDistance sym s).finish := by
  refine ⟨_, rfl, backRefDistance_runs sym s, fun u h => ?_⟩
  obtain ⟨_, v, h1, h⟩ := bind_eq_ok h
  obtain ⟨_, w, h2, h3⟩ := bind_eq_ok h1
  obtain ⟨k, rfl⟩ := getBits_inner h2
  have hg := writeToObject_grows v.matchDist v.matchLen.toNat v
  rw [h] at hg
  obtain ⟨bs, rfl, _⟩ := hg
  cases h3
  exact emitted_phase _ _

theorem emit_inflates (b : Byte) (s : State) : Inflates .litsym s (emit b s).finish := by
  have hg := emit_grows b s
  refine ⟨_, rfl, hg.mono fun _ h => h.runs, fun u h => ?_⟩
  rw [h] at hg
  obtain ⟨bs, rfl, _⟩ := hg
  exact .inl (emitted_phase _ _)

theorem storedBlock_inflates {s t : State} (h : Runs s t) : Inflates .hdr s (storedBlock t).finish :=
  ⟨_, rfl, (storedBlock_runs t).1.mono fun _ => h.trans, fun _ k => .inl ((storedBlock_runs t).2 _ k).1⟩

theorem dynamicHeader_inflates {s t : State} (h : Runs s t) : Inflates .hdr s (dynamicHeader t).finish :=
  ⟨_, rfl, (dynamicHeader_runs t).1.mono fun _ => h.trans, fun _ k => .inr (.inr ((dynamicHeader_runs t).2 _ k).1)⟩

theorem staticLitTree_symsBelow : staticLitTree.symsBelow 288 = true := by decide +kernel

theorem staticDistTree_symsBelow : staticDistTree.symsBelow 32 = true := by decide +kernel

theorem staticTrees_tame (s : State) (h : TreesTame s) :
    TreesTame { s with litTree := staticLitTree, distTree := staticDistTree } :=
  ⟨h.1, h.2.1, staticLitTree_symsBelow, staticDistTree_symsBelow, h.2.2.2.2⟩

theorem appendLens_inflates (v : BitVec 4) (s : State) : Inflates .clsym s (appendLens 1 v s).finish := by
  refine ⟨_, rfl, appendLens_runs 1 v s, fun u h => ?_⟩
  unfold appendLens at h
  split at h <;> cases h
  rfl

theorem zeroRun_inflates (base n : Nat) (v : State → BitVec 4) (s : State) :
    Inflates .clsym s ((readRepeat base n s).bind fun r s => lensRun r v s).finish := by
  refine ⟨_, rfl, runs_bind (readRepeat_runs base n s) fun r u => lensRun_runs r v u, fun u h => ?_⟩
  obtain ⟨_, w, h1, h⟩ := bind_eq_ok h
  obtain ⟨_, x, h2, h3⟩ := bind_eq_ok h1
  obtain ⟨k, rfl⟩ := getBits_inner h2
  cases h3
  exact (lensRun_ok h).1

theorem exec_inflates (i : Instr) (s : State) (h1 : (encode i).1 ≠ .row) (h2 : (encode i).1 ≠ .cmd) :
    Inflates (encode i).1 s (exec i s) := by
  cases i
  case blkStored f => exact storedBlock_inflates (Inner.runs rfl)
  case blkStatic f =>
    refine inflates_next (Runs.trans (t := { s with litTree := staticLitTree, distTree := staticDistTree })
      (runs_trees s _ _ s.clenTree (staticTrees_tame s)) (Inner.runs ?_)) (.inr (.inl rfl))
    rfl
  case blkDynamic f => exact dynamicHeader_inflates (Inner.runs rfl)
  case blkReserved f => exact inflates_raise _ _ (Inner.runs rfl)
  case clLen v => exact appendLens_inflates v s
  case clRep =>
    show Inflates .clsym s (execClRep s)
    unfold execClRep
    split
    · exact inflates_raise _ _ (.refl s)
    · exact zeroRun_inflates 3 2 previousLen s
  case clZero3 => exact zeroRun_inflates 3 3 _ s
  case clZero11 => exact zeroRun_inflates 11 7 _ s
  case lit b => exact emit_inflates b s
  case eob => exact inflates_next (Inner.runs rfl) (.inr rfl)
  case litRsv286 => exact inflates_raise _ _ (.refl s)
  case litRsv287 => exact inflates_raise _ _ (.refl s)
  case distRsv30 => exact inflates_raise _ _ (Inner.runs rfl)
  case distRsv31 => exact inflates_raise _ _ (Inner.runs rfl)
  all_goals first
    | exact backRefLength_inflates _ s
    | exact backRefDistance_inflates _ s
    | exact absurd rfl h1
    | exact absurd rfl h2

/-! ## Parts that never stop -/

/-- A part that goes on or raises. -/
def Res.NoStop {α : Type} (r : Res α) : Prop := ∀ f, r ≠ .stop f

theorem noStop_bind {α β : Type} {r : Res α} {f : α → State → Res β} (h : r.NoStop) (hf : ∀ a u, (f a u).NoStop) :
    (r.bind f).NoStop := by
  cases r with
  | ok a u => exact hf a u
  | raise e u => intro f h; cases h
  | stop x => exact absurd rfl (h x)

theorem noStop_ok {α : Type} (a : α) (s : State) : (Res.ok a s).NoStop := fun _ h => by cases h

theorem noStop_raise {α : Type} (e : Err) (s : State) : (Res.raise e s : Res α).NoStop := fun _ h => by cases h

theorem readByte_noStop (s : State) : (readByte s).NoStop := by
  unfold readByte
  split
  · exact noStop_raise _ _
  · exact noStop_ok _ _

theorem outAppend_noStop (b : Byte) (s : State) : (outAppend b s).NoStop := by
  unfold outAppend
  split
  · exact noStop_raise _ _
  · exact noStop_ok _ _

theorem filterBytes_noStop (pred : Byte → Byte → Byte → Byte) (n i : Nat) (s : State) :
    (filterBytes pred n i s).NoStop := by
  induction n generalizing i s with
  | zero => exact noStop_ok _ _
  | succ n ih =>
    exact noStop_bind (readByte_noStop _) fun _ _ => noStop_bind (outAppend_noStop _ _) fun _ _ => ih _ _

/-! ## Rows -/

/-- All a row instruction can do: an error, or the end of its row. -/
def RowEnds (s : State) (o : Host.Outcome State Fault Refusal) : Prop :=
  (∃ e u, o = .next (errorEntry e u) ∧ RowRuns s u) ∨ ∃ u, o = .next (rowEnd u) ∧ RowRuns s u

theorem filterRow_ends (ft : BitVec 8) (pred : Byte → Byte → Byte → Byte) (s : State) :
    RowEnds s (filterRow ft pred s).finish := by
  have h := filterBytes_row pred s.rowBytes 0 { s with ft := ft }
  have hn := filterBytes_noStop pred s.rowBytes 0 { s with ft := ft }
  unfold filterRow
  cases hr : filterBytes pred s.rowBytes 0 { s with ft := ft } with
  | ok a u =>
    rw [hr] at h
    exact .inr ⟨u, rfl, (row_ft s ft).trans h⟩
  | raise e u =>
    rw [hr] at h
    exact .inl ⟨e, u, rfl, (row_ft s ft).trans h⟩
  | stop x => exact absurd hr (hn x)

theorem exec_row_ends (i : Instr) (s : State) (h : (encode i).1 = .row) : RowEnds s (exec i s) := by
  cases i
  case filtNone => exact filterRow_ends _ _ s
  case filtSub => exact filterRow_ends _ _ s
  case filtUp => exact filterRow_ends _ _ s
  case filtAvg => exact filterRow_ends _ _ s
  case filtPaeth => exact filterRow_ends _ _ s
  case filtReserved ft => exact .inl ⟨.badFilterType, _, rfl, row_ft s ft⟩
  all_goals cases h

/-! ## Decoding answers the format asked for -/

theorem decode_format {f : Format} {w : Nat} {i : Instr} (h : decode f w = .ok i) : (encode i).1 = f := by
  cases f <;> simp only [decode] at h
  · unfold decodeHdr at h
    split at h <;> cases h <;> rfl
  · unfold decodeClsym at h
    split at h
    · cases h; rfl
    · split at h <;> cases h <;> rfl
  · unfold decodeLitsym at h
    split at h
    · cases h; rfl
    · split at h <;> cases h <;> rfl
  · unfold decodeDistsym at h
    split at h <;> cases h <;> rfl
  · unfold decodeRow at h
    split at h <;> first | (cases h; rfl) | skip
    split at h <;> cases h
    rfl
  · unfold decodeCmd at h
    split at h <;> cases h <;> rfl

/-! ## A step of a running command -/

/-- The phases a step of the inflate engine can go through, but for the end of a command. -/
def phaseMoves : List (Phase × Phase) :=
  [(.hdr, .blockEnd), (.hdr, .symbols), (.hdr, .dynLens), (.stored, .blockEnd), (.dynHdr, .dynLens),
    (.dynLens, .dynLens), (.dynLens, .symbols), (.symbols, .symbols), (.symbols, .blockEnd), (.blockEnd, .hdr)]

/-- All an engine step of an INFLATE command can do. -/
inductive InflateStep (s t : State) : Prop where
  | error (e : Err) (u : State) (h : Runs s u) (ht : t = errorEntry e u)
  | goes (h : Runs s t) (hp : (s.phase, t.phase) ∈ phaseMoves)
      (hpc : s.pc < t.pc ∨ (s.phase = .dynLens ∧ t.phase = .symbols) ∨ (s.phase = .blockEnd ∧ t.phase = .hdr))
  | ends (hp : s.phase = .blockEnd) (ht : t = complete s)

/-- All an engine step of a DEFILTER command can do. -/
inductive RowStep (s t : State) : Prop where
  | error (e : Err) (u : State) (h : RowRuns s u) (ht : t = errorEntry e u)
  | row (u : State) (h : RowRuns s u) (hpc : s.pc < u.pc) (ht : t = rowEnd u)
  | ends (ht : t = complete s)

theorem fetched_step {f : Format} {r : Res Nat} {s t : State} (hf1 : f ≠ .row) (hf2 : f ≠ .cmd)
    (hr : r.Leads (Runs s)) (hk : ∀ w u, r = .ok w u → s.pc < u.pc ∧ u.phase = s.phase)
    (hp : ∀ q, leavesPhase f s.phase q → (s.phase, q) ∈ phaseMoves)
    (h : (fetched f r).outcome = .next t) : InflateStep s t := by
  unfold fetched decoded at h
  split at h
  · rename_i w u
    obtain ⟨h1, h2⟩ := hk w u rfl
    split at h
    · rename_i i hd
      have hfi := decode_format hd
      obtain ⟨r, e, hl, ho⟩ := exec_inflates i u (hfi ▸ hf1) (hfi ▸ hf2)
      change exec i u = .next t at h
      rw [e] at h
      cases r with
      | ok a v =>
        cases h
        refine .goes (hr.trans hl) (hp _ ?_) (.inl (h1.trans_le hl.keeps.pc))
        rw [← h2, ← hfi]
        exact ho t rfl
      | raise x v => cases h; exact .error x v (hr.trans hl) rfl
      | stop x => cases h
    · cases h
  · cases h
    exact .error _ _ hr rfl
  · cases h

theorem decodeSymbol_fetch {t : Tree} {s : State} (w : Nat) (u : State) (h : decodeSymbol t s = .ok w u) :
    s.pc < u.pc ∧ u.phase = s.phase := by
  rcases decodeSymbol_cases t s with ⟨_, k, e, h1, _⟩ | ⟨_, k, e, _⟩ <;> rw [e] at h <;> cases h
  exact ⟨by rw [atBit_pc]; exact h1, rfl⟩

theorem action_step {r : Res Unit} {s t : State} (hr : r.Leads (Runs s))
    (hk : ∀ u, r = .ok () u → (s.phase, u.phase) ∈ phaseMoves ∧ (s.pc < u.pc ∨ (s.phase = .dynLens ∧ u.phase = .symbols)))
    (h : r.action.outcome = .next t) : InflateStep s t := by
  cases r with
  | ok a u =>
    cases h
    obtain ⟨h1, h2⟩ := hk t rfl
    exact .goes hr h1 (h2.elim .inl fun x => .inr (.inl x))
  | raise e u => cases h; exact .error e u hr rfl
  | stop x => cases h

theorem engine_inflate {s t : State} (hp : s.phase ≠ .dfRow) (h : (engineAction s).outcome = .next t) :
    InflateStep s t := by
  unfold engineAction at h
  split at h <;> rename_i hph
  · refine fetched_step (by simp) (by simp) (fetchHeader_runs s) (fun w u hw => ?_) (fun q hq => ?_) h
    · by_cases h3 : s.hasBits 3
      · rw [fetchHeader_ok h3] at hw
        cases hw
        exact ⟨by show s.pc < (s.atBit (s.pc + 3)).pc; rw [atBit_pc]; omega, rfl⟩
      · obtain ⟨k, v, e, _⟩ := fetchHeader_exhausted h3
        rw [e] at hw
        cases hw
    · rcases hq with rfl | rfl | rfl <;> rw [hph] <;> decide
  · refine action_step (storedBlock_runs s).1 (fun u hu => ?_) h
    obtain ⟨h1, h2⟩ := (storedBlock_runs s).2 u hu
    exact ⟨by rw [hph, h1]; decide, .inl h2⟩
  · refine action_step (dynamicHeader_runs s).1 (fun u hu => ?_) h
    obtain ⟨h1, _, h2⟩ := (dynamicHeader_runs s).2 u hu
    exact ⟨by rw [hph, h1]; decide, .inl h2⟩
  · split at h
    · refine fetched_step (by simp) (by simp) (decodeSymbol_runs _ s) decodeSymbol_fetch (fun q hq => ?_) h
      rw [hq, hph]
      decide
    · refine action_step (buildTrees_runs s) (fun u hu => ?_) h
      have hu' : u.phase = .symbols := by
        unfold buildTrees at hu
        split at hu
        · cases hu
        · dsimp only at hu
          split at hu
          · cases hu
          · split at hu <;> cases hu
            rfl
      exact ⟨by rw [hph, hu']; decide, .inr ⟨hph, hu'⟩⟩
  · split at h
    · refine fetched_step (by simp) (by simp) (decodeSymbol_runs _ s) decodeSymbol_fetch (fun q hq => ?_) h
      rw [hq, hph]
      decide
    · refine fetched_step (by simp) (by simp) (decodeSymbol_runs _ s) decodeSymbol_fetch (fun q hq => ?_) h
      rcases hq with rfl | rfl <;> rw [hph] <;> decide
  · cases h
    unfold blockEnd
    split
    · exact .ends hph rfl
    · exact .goes (Inner.runs rfl) (by rw [hph]; simp [phaseMoves]) (.inr (.inr ⟨hph, rfl⟩))
  · exact absurd hph hp
  all_goals cases h

theorem engine_row {s t : State} (hp : s.phase = .dfRow) (h : (engineAction s).outcome = .next t) : RowStep s t := by
  simp only [engineAction, hp] at h
  split at h
  · rw [fetchRow_eq] at h
    split at h
    · simp only [fetched, Action.outcome, Host.Outcome.next.injEq] at h
      exact .error _ s (.refl s) h.symm
    · rename_i hin
      generalize hu : ({ s with bytePos := s.bytePos + 1, ft := Memory.read s.inMem s.bytePos } : State) = u at h
      have hb : readByte s = .ok (Memory.read s.inMem s.bytePos) { s with bytePos := s.bytePos + 1 } := by
        unfold readByte
        rw [if_neg hin]
      have hl := readByte_lt hb
      have hrow : RowRuns s u := by
        have := readByte_row s
        rw [hb] at this
        exact hu ▸ this.trans (row_ft _ _)
      have hlt : s.pc < u.pc := hu ▸ hl
      simp only [fetched, decoded] at h
      split at h
      · rename_i i hd
        rcases exec_row_ends i u (decode_format hd) with ⟨e, v, ho, hv⟩ | ⟨v, ho, hv⟩
        · change exec i u = .next t at h
          rw [ho] at h
          cases h
          exact .error e v (hrow.trans hv) rfl
        · change exec i u = .next t at h
          rw [ho] at h
          cases h
          exact .row v (hrow.trans hv) (hlt.trans_le hv.keeps.pc) rfl
      · cases h
  · cases h
    exact .ends rfl

/-- All a step of a running command can do, unless the host resets the block. -/
theorem running_step {s t : State} (h1 : s.status = .busy) (h2 : s.host.head? ≠ some .reset) (h : step s = .next t) :
    (s.phase ≠ .dfRow ∧ InflateStep s.afterPassiveMove t) ∨ (s.phase = .dfRow ∧ RowStep s.afterPassiveMove t) := by
  rw [step_busy h1 h2] at h
  have hw : s.afterPassiveMove.phase = s.phase := by rw [afterPassiveMove_eq]
  by_cases hp : s.phase = .dfRow
  · exact .inr ⟨hp, engine_row (hw.trans hp) h⟩
  · exact .inl ⟨hp, engine_inflate (hw ▸ hp) h⟩

/-! ## A step while no command runs -/

/-- All a host move m can do to s, the block's state with the move taken. -/
inductive HostStep (m : HostMove) (s t : State) : Prop where
  | reset (hm : m = .reset) (ht : t = powerOn s.host s)
  | command (v : BitVec 2) (hm : m = .writeCmd v) (hv : v ≠ 1 ∧ v ≠ 2) (ht : t = setCmd v s)
  | inflate (hm : m = .writeCmd 1) (ht : t = startInflate s)
  | defilter (hm : m = .writeCmd 2) (ht : t = { startDefilter s with phase := .dfRow })
  | illegal (hm : m = .writeCmd 2) (e : Err) (ht : t = errorEntry e (startDefilter s))
  | parameters (hc : ∀ v, m ≠ .writeCmd v) (hr : m ≠ .reset) (hm : Memory.wf s.inMem → Memory.wf t.inMem)
      (ht : t = { s with
        inMem := t.inMem, inLen := t.inLen, dfWidth := t.dfWidth, dfHeight := t.dfHeight,
        dfPixelSize := t.dfPixelSize })

theorem defilterChecks_step {s t : State} {m : HostMove} (hm : m = .writeCmd 2)
    (h : (defilterChecks (startDefilter s)).finish = .next t) : HostStep m s t := by
  unfold defilterChecks at h
  split at h
  · cases h; exact .illegal hm _ rfl
  · split at h <;> cases h
    · exact .illegal hm _ rfl
    · exact .defilter hm rfl

theorem writeCmd_step {s t : State} (v : BitVec 2) (h1 : s.status ≠ .busy)
    (h : (decoded .cmd v.toNat s).outcome = .next t) : HostStep (.writeCmd v) s t := by
  have hv : v = 0 ∨ v = 1 ∨ v = 2 ∨ v = 3 := by clear h; revert v; decide
  have e : ∀ r : Res Unit, hostWriteCmd r s = r.finish := fun r => by rw [hostWriteCmd, if_neg h1]
  rcases hv with rfl | rfl | rfl | rfl
  · change hostWriteCmd _ s = _ at h
    rw [e] at h
    cases h
    exact .command 0 rfl (by decide) rfl
  · change hostWriteCmd _ s = _ at h
    rw [e] at h
    cases h
    exact .inflate rfl rfl
  · change hostWriteCmd _ s = _ at h
    rw [e] at h
    exact defilterChecks_step rfl h
  · change hostWriteCmd _ s = _ at h
    rw [e] at h
    cases h
    exact .command 3 rfl (by decide) rfl

theorem hostAction_step {m : HostMove} {s t : State} (h1 : s.status ≠ .busy)
    (h : (hostAction m s).outcome = .next t) : HostStep m s t := by
  cases m
  case writeCmd v => exact writeCmd_step v h1 h
  case reset => cases h; exact .reset rfl rfl
  case writeIn a bs => cases h; exact .parameters (by simp) (by simp) (fun x => wf_writeBytes a bs x) rfl
  case loadOut =>
    simp only [hostAction] at h
    split at h <;> cases h
    exact .parameters (by simp) (by simp) (fun _ => wf_writeBytes 0 s.out wf_nil) rfl
  all_goals
    cases h
    exact .parameters (by simp) (by simp) id rfl

/-- All a step can do while no command runs. -/
theorem idle_step_cases {s t : State} (h1 : s.status ≠ .busy) (h : step s = .next t) :
    (s.host = [] ∧ t = s) ∨ ∃ m rest, s.host = m :: rest ∧ HostStep m { s with host := rest } t := by
  cases hh : s.host with
  | nil =>
    rw [step_idle h1 hh] at h
    cases h
    exact .inl ⟨rfl, rfl⟩
  | cons m rest =>
    refine .inr ⟨m, rest, rfl, ?_⟩
    by_cases hm : m = .reset
    · subst hm
      rw [step_reset hh] at h
      cases h
      exact .reset rfl rfl
    · rw [step_host h1 hh hm] at h
      exact hostAction_step h1 h

/-- All a step can do when the host's next move is a reset. -/
theorem reset_step {s t : State} (h1 : s.host.head? = some .reset) (h : step s = .next t) :
    ∃ rest, s.host = .reset :: rest ∧ t = powerOn rest s := by
  cases hh : s.host with
  | nil => rw [hh] at h1; cases h1
  | cons m rest =>
    rw [hh, List.head?_cons] at h1
    cases h1
    rw [step_reset hh] at h
    cases h
    exact ⟨rest, rfl, rfl⟩

end Sys2Proof.Machine
end

