-- ==== Sys2Proof/Laws/PerInstr.lean ====
section
/-! SUPPORT. Statements about every instruction as syntax, one lemma per constructor of Instr. EncodeInRange: the value
an instruction encodes to is a value of its format's field (30_encoding.md rule R132 to rule R137). -/

namespace Sys2Proof.Laws.EncodeInRange

set_option Elab.async false

open Sys2Proof

/-- The encoded value is one the format's field has. -/
def Statement (i : Instr) : Prop := (encode i).2 < (encode i).1.size

theorem blkStored (final : BitVec 1) : Statement (.blkStored final) := by
  have := final.isLt
  simp only [Statement, encode, Format.size]
  omega

theorem blkStatic (final : BitVec 1) : Statement (.blkStatic final) := by
  have := final.isLt
  simp only [Statement, encode, Format.size]
  omega

theorem blkDynamic (final : BitVec 1) : Statement (.blkDynamic final) := by
  have := final.isLt
  simp only [Statement, encode, Format.size]
  omega

theorem blkReserved (final : BitVec 1) : Statement (.blkReserved final) := by
  have := final.isLt
  simp only [Statement, encode, Format.size]
  omega

theorem clLen (v : BitVec 4) : Statement (.clLen v) := by
  have := v.isLt
  simp only [Statement, encode, Format.size]
  omega

theorem clRep : Statement .clRep := (by decide : 16 < 19)

theorem clZero3 : Statement .clZero3 := (by decide : 17 < 19)

theorem clZero11 : Statement .clZero11 := (by decide : 18 < 19)

theorem lit (b : Byte) : Statement (.lit b) := by
  have := b.isLt
  simp only [Statement, encode, Format.size]
  omega

theorem eob : Statement .eob := (by decide : 256 < 288)

theorem len257 : Statement .len257 := (by decide : 257 < 288)

theorem len258 : Statement .len258 := (by decide : 258 < 288)

theorem len259 : Statement .len259 := (by decide : 259 < 288)

theorem len260 : Statement .len260 := (by decide : 260 < 288)

theorem len261 : Statement .len261 := (by decide : 261 < 288)

theorem len262 : Statement .len262 := (by decide : 262 < 288)

theorem len263 : Statement .len263 := (by decide : 263 < 288)

theorem len264 : Statement .len264 := (by decide : 264 < 288)

theorem len265 : Statement .len265 := (by decide : 265 < 288)

theorem len266 : Statement .len266 := (by decide : 266 < 288)

theorem len267 : Statement .len267 := (by decide : 267 < 288)

theorem len268 : Statement .len268 := (by decide : 268 < 288)

theorem len269 : Statement .len269 := (by decide : 269 < 288)

theorem len270 : Statement .len270 := (by decide : 270 < 288)

theorem len271 : Statement .len271 := (by decide : 271 < 288)

theorem len272 : Statement .len272 := (by decide : 272 < 288)

theorem len273 : Statement .len273 := (by decide : 273 < 288)

theorem len274 : Statement .len274 := (by decide : 274 < 288)

theorem len275 : Statement .len275 := (by decide : 275 < 288)

theorem len276 : Statement .len276 := (by decide : 276 < 288)

theorem len277 : Statement .len277 := (by decide : 277 < 288)

theorem len278 : Statement .len278 := (by decide : 278 < 288)

theorem len279 : Statement .len279 := (by decide : 279 < 288)

theorem len280 : Statement .len280 := (by decide : 280 < 288)

theorem len281 : Statement .len281 := (by decide : 281 < 288)

theorem len282 : Statement .len282 := (by decide : 282 < 288)

theorem len283 : Statement .len283 := (by decide : 283 < 288)

theorem len284 : Statement .len284 := (by decide : 284 < 288)

theorem len285 : Statement .len285 := (by decide : 285 < 288)

theorem litRsv286 : Statement .litRsv286 := (by decide : 286 < 288)

theorem litRsv287 : Statement .litRsv287 := (by decide : 287 < 288)

theorem dist0 : Statement .dist0 := (by decide : 0 < 32)

theorem dist1 : Statement .dist1 := (by decide : 1 < 32)

theorem dist2 : Statement .dist2 := (by decide : 2 < 32)

theorem dist3 : Statement .dist3 := (by decide : 3 < 32)

theorem dist4 : Statement .dist4 := (by decide : 4 < 32)

theorem dist5 : Statement .dist5 := (by decide : 5 < 32)

theorem dist6 : Statement .dist6 := (by decide : 6 < 32)

theorem dist7 : Statement .dist7 := (by decide : 7 < 32)

theorem dist8 : Statement .dist8 := (by decide : 8 < 32)

theorem dist9 : Statement .dist9 := (by decide : 9 < 32)

theorem dist10 : Statement .dist10 := (by decide : 10 < 32)

theorem dist11 : Statement .dist11 := (by decide : 11 < 32)

theorem dist12 : Statement .dist12 := (by decide : 12 < 32)

theorem dist13 : Statement .dist13 := (by decide : 13 < 32)

theorem dist14 : Statement .dist14 := (by decide : 14 < 32)

theorem dist15 : Statement .dist15 := (by decide : 15 < 32)

theorem dist16 : Statement .dist16 := (by decide : 16 < 32)

theorem dist17 : Statement .dist17 := (by decide : 17 < 32)

theorem dist18 : Statement .dist18 := (by decide : 18 < 32)

theorem dist19 : Statement .dist19 := (by decide : 19 < 32)

theorem dist20 : Statement .dist20 := (by decide : 20 < 32)

theorem dist21 : Statement .dist21 := (by decide : 21 < 32)

theorem dist22 : Statement .dist22 := (by decide : 22 < 32)

theorem dist23 : Statement .dist23 := (by decide : 23 < 32)

theorem dist24 : Statement .dist24 := (by decide : 24 < 32)

theorem dist25 : Statement .dist25 := (by decide : 25 < 32)

theorem dist26 : Statement .dist26 := (by decide : 26 < 32)

theorem dist27 : Statement .dist27 := (by decide : 27 < 32)

theorem dist28 : Statement .dist28 := (by decide : 28 < 32)

theorem dist29 : Statement .dist29 := (by decide : 29 < 32)

theorem distRsv30 : Statement .distRsv30 := (by decide : 30 < 32)

theorem distRsv31 : Statement .distRsv31 := (by decide : 31 < 32)

theorem filtNone : Statement .filtNone := (by decide : 0 < 256)

theorem filtSub : Statement .filtSub := (by decide : 1 < 256)

theorem filtUp : Statement .filtUp := (by decide : 2 < 256)

theorem filtAvg : Statement .filtAvg := (by decide : 3 < 256)

theorem filtPaeth : Statement .filtPaeth := (by decide : 4 < 256)

theorem filtReserved (ft : Byte) : Statement (.filtReserved ft) := by
  have := ft.isLt
  simp only [Statement, encode, Format.size]
  omega

theorem cmdNone : Statement .cmdNone := (by decide : 0 < 4)

theorem cmdInflate : Statement .cmdInflate := (by decide : 1 < 4)

theorem cmdDefilter : Statement .cmdDefilter := (by decide : 2 < 4)

theorem cmdReserved : Statement .cmdReserved := (by decide : 3 < 4)

end Sys2Proof.Laws.EncodeInRange
end

