-- ==== Sys2Proof/Tests/Slice0.lean ====
section
/-! SUPPORT. The model's own tests: the WellFormed smoke test, every constructor's decoding by a word written out from
the spec's encoding, one-step tests on the vectors of 95_test_vectors.md, and for every statement of
Certificates/Slice0/Obligations.lean with hypotheses a state and operands that meet them. -/

namespace Sys2Proof.Tests

set_option Elab.async false

open Sys2Proof Sys2Proof.Machine

/-! ## Helpers -/

/-- The decoder answers i. -/
def reads (f : Format) (w : Nat) (i : Instr) : Bool :=
  match decode f w with
  | .ok j => decide (j = i)
  | .error _ => false

/-- The outcome is a next state of which p holds. -/
def nextIs (p : State → Bool) (o : Host.Outcome State Fault Refusal) : Bool :=
  match o with
  | .next s => p s
  | _ => false

/-- A running command in phase ph whose input is the listed bytes, the cursor at its first bit. -/
def engine (ph : Phase) (bytes : List Byte) : State :=
  { State.reset with status := .busy, phase := ph, inMem := Memory.writeBytes [] 0 bytes, inLen := bytes.length }

/-- A DEFILTER command at a row y of a 2-pixel RGB image of height h, below the row up. -/
def row (y h : BitVec 32) (up bytes : List Byte) : State :=
  { engine .dfRow bytes with
    dfWidth := 2, dfHeight := h, dfPixelSize := 3, rowY := y, prevRow := Memory.writeBytes [] 0 up }

/-- STATUS is ERROR with this class and code, and there is no output (60_exceptions.md rule R528, rule R530). -/
def failed (c : ErrClass) (k : BitVec 8) (s : State) : Bool :=
  decide (s.status = .error ∧ s.phase = .error ∧ s.errClass = c ∧ s.errCode = k ∧ s.out = [] ∧ s.outLen = 0)

theorem next_of (p : State → Bool) (o : Host.Outcome State Fault Refusal) (h : nextIs p o = true) :
    ∃ t, o = .next t ∧ p t = true := by
  cases o with
  | next t => exact ⟨t, rfl, h⟩
  | fault f => cases h
  | refused r => cases h

/-- Without a bound there is always room. -/
theorem room (n : Nat) (s : State) (h : s.outCapacity = none) : s.hasRoom n := by
  intro c hc
  rw [h] at hc
  cases hc

/-! ## Syntax and decoding -/

/-- FILT_RESERVED is the filter types 5..255 (30_encoding.md rule R136): 4 is refused. -/
theorem test_wellformed :
    Instr.WellFormed (.filtReserved 4) = false ∧ Instr.WellFormed (.filtReserved 0) = false ∧
    Instr.WellFormed (.filtReserved 5) = true ∧ Instr.WellFormed (.lit 255) = true := by decide

/-- 30_encoding.md rule R132: the words are BTYPE[1] BTYPE[0] BFINAL. -/
theorem test_decode_hdr :
    [(0b000, Instr.blkStored 0), (0b001, .blkStored 1), (0b010, .blkStatic 0), (0b011, .blkStatic 1),
      (0b100, .blkDynamic 0), (0b101, .blkDynamic 1), (0b110, .blkReserved 0), (0b111, .blkReserved 1)].all
      (fun p => reads .hdr p.1 p.2) = true := by decide

/-- 30_encoding.md rule R133. -/
theorem test_decode_clsym :
    [(0b00000, Instr.clLen 0), (0b00001, .clLen 1), (0b01111, .clLen 15), (0b10000, .clRep), (0b10001, .clZero3),
      (0b10010, .clZero11)].all (fun p => reads .clsym p.1 p.2) = true := by decide

/-- 30_encoding.md rule R134. -/
theorem test_decode_litsym :
    ([(0b000000000, Instr.lit 0x00), (0b011111111, .lit 0xFF), (0b100000000, .eob), (0b100000001, .len257),
      (0b100000010, .len258), (0b100000011, .len259), (0b100000100, .len260), (0b100000101, .len261),
      (0b100000110, .len262), (0b100000111, .len263), (0b100001000, .len264), (0b100001001, .len265),
      (0b100001010, .len266), (0b100001011, .len267), (0b100001100, .len268), (0b100001101, .len269)] ++
     [(0b100001110, Instr.len270), (0b100001111, .len271), (0b100010000, .len272), (0b100010001, .len273),
      (0b100010010, .len274), (0b100010011, .len275), (0b100010100, .len276), (0b100010101, .len277),
      (0b100010110, .len278), (0b100010111, .len279), (0b100011000, .len280), (0b100011001, .len281),
      (0b100011010, .len282), (0b100011011, .len283), (0b100011100, .len284), (0b100011101, .len285),
      (0b100011110, .litRsv286), (0b100011111, .litRsv287)]).all (fun p => reads .litsym p.1 p.2) = true := by decide

/-- 30_encoding.md rule R135. -/
theorem test_decode_distsym :
    ([(0b00000, Instr.dist0), (0b00001, .dist1), (0b00010, .dist2), (0b00011, .dist3), (0b00100, .dist4),
      (0b00101, .dist5), (0b00110, .dist6), (0b00111, .dist7), (0b01000, .dist8), (0b01001, .dist9),
      (0b01010, .dist10), (0b01011, .dist11), (0b01100, .dist12), (0b01101, .dist13), (0b01110, .dist14),
      (0b01111, .dist15)] ++
     [(0b10000, Instr.dist16), (0b10001, .dist17), (0b10010, .dist18), (0b10011, .dist19), (0b10100, .dist20),
      (0b10101, .dist21), (0b10110, .dist22), (0b10111, .dist23), (0b11000, .dist24), (0b11001, .dist25),
      (0b11010, .dist26), (0b11011, .dist27), (0b11100, .dist28), (0b11101, .dist29), (0b11110, .distRsv30),
      (0b11111, .distRsv31)]).all (fun p => reads .distsym p.1 p.2) = true := by decide

/-- 30_encoding.md rule R136, rule R137. -/
theorem test_decode_row_cmd :
    [(0x00, Instr.filtNone), (0x01, .filtSub), (0x02, .filtUp), (0x03, .filtAvg), (0x04, .filtPaeth),
      (0x05, .filtReserved 5), (0xFF, .filtReserved 255)].all (fun p => reads .row p.1 p.2) = true ∧
    [(0b00, Instr.cmdNone), (0b01, .cmdInflate), (0b10, .cmdDefilter), (0b11, .cmdReserved)].all
      (fun p => reads .cmd p.1 p.2) = true := by decide

/-- A value past a field or an alphabet is refused by name. -/
theorem test_decode_refuses :
    decodeHdr 8 = .error .fieldWidth ∧ decodeClsym 19 = .error .symbolRange ∧
    decodeLitsym 288 = .error .symbolRange ∧ decodeDistsym 32 = .error .symbolRange ∧
    decodeRow 256 = .error .fieldWidth ∧ decodeCmd 4 = .error .fieldWidth := ⟨rfl, rfl, rfl, rfl, rfl, rfl⟩

/-- 95_test_vectors.md V23: the static codes, as stream bits. -/
theorem test_static_codes :
    staticLitBits 0 = [false, false, true, true, false, false, false, false] ∧
    staticLitBits 143 = [true, false, true, true, true, true, true, true] ∧
    staticLitBits 144 = [true, true, false, false, true, false, false, false, false] ∧
    staticLitBits 255 = [true, true, true, true, true, true, true, true, true] ∧
    staticLitBits 256 = [false, false, false, false, false, false, false] ∧
    staticLitBits 279 = [false, false, true, false, true, true, true] ∧
    staticLitBits 280 = [true, true, false, false, false, false, false, false] ∧
    staticLitBits 287 = [true, true, false, false, false, true, true, true] ∧
    staticDistBits 29 = [true, true, true, false, true] := by decide

/-- 95_test_vectors.md V23: the ROM trees hold those codes. -/
theorem test_static_trees :
    staticLitTree.symbolAt [true, true, false, false, true, false, false, false, false] = some 144 ∧
    staticLitTree.symbolAt [false, false, true, false, true, true, true] = some 279 ∧
    staticLitTree.symbolAt [true, true, false, false, false, true, true, true] = some 287 ∧
    staticDistTree.symbolAt [true, true, true, false, true] = some 29 := by decide +kernel

/-- 30_encoding.md rule R142 with 43_symbol_loop.md rule R330: length 258 is LEN285; 95_test_vectors.md P2. -/
theorem test_expand_match :
    expandMatch 6 3 = (260, 0, 2, 0) ∧ expandMatch 258 32768 = (285, 0, 29, 8191) := by decide +kernel

/-- The table's word and the word placed for a fetch: the step of every format runs it. -/
theorem test_table_words :
    decodeTableWord 3 0b001 = some (.blkStored 1) ∧ decodeTableWord 8 17 = some .clZero3 ∧
    decodeTableWord 16 0x102 = some .len258 ∧ decodeTableWord 8 29 = some .dist29 := by decide

theorem test_fetch_word :
    nextIs (fun t => decide (t.phase = .symbols ∧ t.btype = 1)) (step (State.reset.withFetchWord 8 2)) = true ∧
    nextIs (fun t => decide (t.out = [0x61])) (step (State.reset.withFetchWord 16 0x61)) = true ∧
    nextIs (fun t => decide (t.phase = .hdr ∧ t.cmd = 1)) (step (State.reset.withFetchWord 2 1)) = true := by
  decide +kernel

/-! ## The cursor -/

/-- V21: IN = B5. -/
theorem test_get_bits :
    (match getBits 3 (engine .hdr [0xB5]) with
      | .ok v s => decide (v = 5 ∧ s.bytePos = 0 ∧ s.bitPos = 3) | _ => false) = true ∧
    (match getBits 5 { engine .hdr [0xB5] with bitPos := 3 } with
      | .ok v s => decide (v = 22 ∧ s.bytePos = 1 ∧ s.bitPos = 0) | _ => false) = true ∧
    (match readBit { engine .hdr [0xB5] with bytePos := 1 } with
      | .raise e _ => decide (e = .inputExhausted) | _ => false) = true := by decide +kernel

/-- AlignToByte of section 2. -/
theorem test_align :
    (alignToByte { engine .hdr [0x01] with bitPos := 3 }).bytePos = 1 ∧
    (alignToByte { engine .hdr [0x01] with bytePos := 1 }).bytePos = 1 := by decide +kernel

/-! ## Blocks -/

/-- V1: the one step of a stored block. -/
theorem test_stored_hello :
    nextIs (fun t => decide (t.out = [0x48, 0x65, 0x6C, 0x6C, 0x6F] ∧ t.outLen = 5 ∧ t.bytePos = 10 ∧ t.bitPos = 0 ∧
        t.winCur = 5 ∧ t.winWrapped = 0 ∧ t.bfinal = 1 ∧ t.phase = .blockEnd))
      (step (engine .hdr [0x01, 0x05, 0x00, 0xFA, 0xFF, 0x48, 0x65, 0x6C, 0x6C, 0x6F])) = true := by decide +kernel

/-- V9 and V11: the wrong complement, the input that ends in the payload. -/
theorem test_stored_errors :
    nextIs (failed .format 0x02)
      (step (engine .hdr [0x01, 0x05, 0x00, 0xFA, 0xFE, 0x48, 0x65, 0x6C, 0x6C, 0x6F])) = true ∧
    nextIs (failed .format 0x0C) (step (engine .hdr [0x01, 0x05, 0x00, 0xFA, 0xFF, 0x48, 0x65])) = true := by
  decide +kernel

/-- V5 and V6: a static header, a reserved one. -/
theorem test_static_reserved :
    nextIs (fun t => decide (t.phase = .symbols ∧ t.bfinal = 1 ∧ t.bitPos = 3)) (step (engine .hdr [0x03, 0x00])) = true ∧
    nextIs (failed .format 0x01) (step (engine .hdr [0x07])) = true := by decide +kernel

/-- P4's dynamic header: HLIT 258, HDIST 1, HCLEN 18, the code-length codes 2 = 0, 1 = 10, 18 = 11, pc = 71. -/
theorem test_dynamic_header :
    nextIs (fun t => decide (t.hlit = 258 ∧ t.hdist = 1 ∧ t.hclen = 18 ∧ t.phase = .dynLens ∧ t.pc = 71 ∧
        t.clenTree = .node (.leaf 2) (.node (.leaf 1) (.leaf 18))))
      (step (engine .hdr [0x0D, 0xC0, 0x01, 0x01, 0x00, 0x00, 0x00, 0x40, 0xA0, 0xAD, 0xFC, 0x1F, 0x41, 0xB8, 0x00]))
      = true := by decide +kernel

/-- V17 and V17b: an over-subscribed and an incomplete code-length code. -/
theorem test_dynamic_errors :
    nextIs (failed .format 0x03) (step (engine .hdr [0x05, 0x00, 0x92, 0x00])) = true ∧
    nextIs (failed .format 0x03) (step (engine .hdr [0x05, 0x00, 0x00, 0x01])) = true := by decide +kernel

/-- V10. -/
theorem test_canonical_example :
    nextCodes [3, 3, 3, 3, 3, 2, 4, 4] 4 = [0, 0, 2, 14] ∧
    (match buildTree [3, 3, 3, 3, 3, 2, 4, 4] 15 with
      | .ok t => decide (t.symbolAt [true, true, true, false] = some 6 ∧ t.symbolAt [false, false] = some 5)
      | .error _ => false) = true := by decide +kernel

/-! ## Code lengths -/

/-- A dynamic block with LENS_COUNT = c and its LENS entry k set to v. -/
def lensAt (c : BitVec 9) (k : Nat) (v : BitVec 4) (bytes : List Byte) : State :=
  { engine .dynLens bytes with hlit := 257, hdist := 1, lensCount := c, lens := State.reset.lens.setIfInBounds k v }

/-- CL_LEN; CL_REP with extra 11 gives 6 copies (section 2, extra-bit operands). -/
theorem test_cl_len_rep :
    nextIs (fun t => decide (t.lensCount = 1 ∧ t.lens[0] = 5)) (exec (.clLen 5) (lensAt 0 0 0 [])) = true ∧
    nextIs (fun t => decide (t.lensCount = 8 ∧ t.lens[1] = 9 ∧ t.lens[2] = 9 ∧ t.lens[7] = 9 ∧ t.lens[8] = 0))
      (exec .clRep (lensAt 2 1 9 [0b11])) = true := by decide +kernel

/-- V16: CL_REP with nothing before it. A previous entry that is a zero is copied (rule R291). -/
theorem test_cl_rep_edges :
    nextIs (fun t => failed .format 0x06 t && decide (t.pc = 0)) (exec .clRep (lensAt 0 0 0 [0b11])) = true ∧
    nextIs (fun t => decide (t.lensCount = 7 ∧ t.lens[0] = 5 ∧ t.lens[4] = 0 ∧ t.lens[6] = 0))
      (exec .clRep (lensAt 4 0 5 [0b00])) = true := by decide +kernel

/-- CL_ZERO3 with extra 111 gives 10 zeros, CL_ZERO11 with extra 127 gives 138 and with extra 0 gives 11. -/
theorem test_cl_zeros :
    nextIs (fun t => decide (t.lensCount = 10 ∧ t.bitPos = 3)) (exec .clZero3 (lensAt 0 0 0 [0b111])) = true ∧
    nextIs (fun t => decide (t.lensCount = 138 ∧ t.bitPos = 7)) (exec .clZero11 (lensAt 0 0 0 [127])) = true ∧
    nextIs (fun t => decide (t.lensCount = 11)) (exec .clZero11 (lensAt 0 0 0 [0])) = true := by decide +kernel

/-- V7a: the second run of 138 would take LENS_COUNT to 276 > 258; raised after the extra bits. -/
theorem test_cl_overflow :
    nextIs (fun t => failed .format 0x07 t && decide (t.pc = 7)) (exec .clZero11 (lensAt 138 0 0 [127])) = true := by
  decide +kernel

/-! ## Symbols -/

/-- P2's first symbol, at stream bit 3: LIT 0x61; a literal at slot 32767 wraps the window (44_window.md rule R402). -/
theorem test_lit :
    nextIs (fun t => decide (t.out = [0x61] ∧ t.pc = 11 ∧ t.winCur = 1))
      (step { engine .symbols [0x4B, 0x4C, 0x4A, 0x86, 0x20, 0x00] with litTree := staticLitTree, bitPos := 3 }) = true ∧
    nextIs (fun t => decide (t.winCur = 0 ∧ t.winWrapped = 1 ∧ Memory.read t.win 32767 = 0x61))
      (exec (.lit 0x61) { engine .symbols [] with winCur := 32767 }) = true := by decide +kernel

/-- H3: the byte past OUT_CAPACITY raises OUTPUT_OVERFLOW. P2's EOB, at stream bit 39. -/
theorem test_lit_overflow_eob :
    nextIs (failed .resource 0x01)
      (exec (.lit 0x6F) { engine .symbols [] with out := [1, 2, 3, 4], outLen := 4, outCapacity := some 4 }) = true ∧
    nextIs (fun t => decide (t.phase = .blockEnd ∧ t.pc = 46))
      (step { engine .symbols [0x4B, 0x4C, 0x4A, 0x86, 0x20, 0x00] with
        litTree := staticLitTree, bytePos := 4, bitPos := 7 }) = true := by decide +kernel

/-- Every length instruction with extra bits all 1: the top of its range (43_symbol_loop.md rule R340 to rule R368;
V24, V20a, V20b). -/
theorem test_lengths_top :
    ([(Instr.len257, 3), (.len258, 4), (.len259, 5), (.len260, 6), (.len261, 7), (.len262, 8), (.len263, 9),
      (.len264, 10), (.len265, 12), (.len266, 14), (.len267, 16), (.len268, 18), (.len269, 22), (.len270, 26)] ++
     [(Instr.len271, 30), (.len272, 34), (.len273, 42), (.len274, 50), (.len275, 58), (.len276, 66), (.len277, 82),
      (.len278, 98), (.len279, 114), (.len280, 130), (.len281, 162), (.len282, 194), (.len283, 226), (.len284, 258),
      (.len285, 258)]).all (fun p =>
        nextIs (fun t => decide (t.matchLen.toNat = p.2 ∧ t.distNext = true))
          (exec p.1 { engine .symbols [0xFF] with distTree := .leaf 0 })) = true := by decide +kernel

/-- Every length instruction with extra bits all 0: its base. -/
theorem test_lengths_base :
    lengthRows.all (fun p => nextIs (fun t => decide (t.matchLen.toNat = p.2.2.2 ∧ t.pc = p.2.2.1))
      (exec p.1 { engine .symbols [0x00] with distTree := .leaf 0 })) = true := by decide +kernel

/-- Every distance instruction with extra bits all 1: the top of its range (43_symbol_loop.md rule R370 to rule R399;
V24). -/
theorem test_distances_top :
    ([(Instr.dist0, 1), (.dist1, 2), (.dist2, 3), (.dist3, 4), (.dist4, 6), (.dist5, 8), (.dist6, 12), (.dist7, 16),
      (.dist8, 24), (.dist9, 32), (.dist10, 48), (.dist11, 64), (.dist12, 96), (.dist13, 128), (.dist14, 192)] ++
     [(Instr.dist15, 256), (.dist16, 384), (.dist17, 512), (.dist18, 768), (.dist19, 1024), (.dist20, 1536),
      (.dist21, 2048), (.dist22, 3072), (.dist23, 4096), (.dist24, 6144), (.dist25, 8192), (.dist26, 12288),
      (.dist27, 16384), (.dist28, 24576), (.dist29, 32768)]).all (fun p =>
        nextIs (fun t => decide (t.matchDist.toNat = p.2 ∧ t.outLen = 3))
          (exec p.1 { engine .symbols [0xFF, 0xFF] with winWrapped := 1, matchLen := 3 })) = true := by decide +kernel

/-- Every distance instruction with extra bits all 0, just too far: the window holds one byte less than its base
(44_window.md rule R405). -/
theorem test_distances_too_far :
    distRows.all (fun p => nextIs (fun t => failed .format 0x0B t && decide (t.matchDist.toNat = p.2.2.2))
      (exec p.1 { engine .symbols [0x00, 0x00] with winCur := BitVec.ofNat 15 (p.2.2.2 - 1), matchLen := 3 }))
      = true := by decide +kernel

/-- V3: after 0xAB, WriteToObject(1, 5) gives AB AB AB AB AB; P2: "abc", distance 3, length 6. -/
theorem test_copies :
    nextIs (fun t => decide (t.out = [0xAB, 0xAB, 0xAB, 0xAB, 0xAB, 0xAB] ∧ t.winCur = 6))
      (exec .dist0 { engine .symbols [] with
        win := [(0, 0xAB)], winCur := 1, out := [0xAB], outLen := 1, matchLen := 5 }) = true ∧
    nextIs (fun t => decide (t.out = [0x61, 0x62, 0x63, 0x61, 0x62, 0x63] ∧ t.winCur = 9 ∧ t.matchDist = 3))
      (exec .dist2 { engine .symbols [] with
        win := [(0, 0x61), (1, 0x62), (2, 0x63)], winCur := 3, matchLen := 6 }) = true := by decide +kernel

/-- V14, V14b, V15, V15b: the reserved symbols; V18: a length symbol with no distance tree. -/
theorem test_reserved_symbols :
    nextIs (failed .format 0x09) (exec .litRsv286 (engine .symbols [])) = true ∧
    nextIs (failed .format 0x09) (exec .litRsv287 (engine .symbols [])) = true ∧
    nextIs (failed .format 0x0A) (exec .distRsv30 (engine .symbols [])) = true ∧
    nextIs (failed .format 0x0A) (exec .distRsv31 (engine .symbols [])) = true ∧
    nextIs (failed .format 0x08) (exec .len257 (engine .symbols [])) = true := by decide +kernel

/-- V2: a degenerate tree takes one bit of either value. -/
theorem test_degenerate :
    [[0x00], [0x01]].all (fun bs => match decodeSymbol (.leaf 7) (engine .symbols bs) with
      | .ok v s => decide (v = 7 ∧ s.pc = 1) | _ => false) = true := by decide +kernel

/-! ## Rows -/

/-- P5, row by row: types 0, 1 and 2. -/
theorem test_rows_none_sub_up :
    nextIs (fun t => decide (t.out = [0x0A, 0x14, 0x1E, 0x28, 0x32, 0x3C] ∧ t.rowY = 1))
      (step (row 0 5 [] [0x00, 0x0A, 0x14, 0x1E, 0x28, 0x32, 0x3C])) = true ∧
    nextIs (fun t => decide (t.out = [0xC8, 0x64, 0x00, 0xD2, 0x6E, 0x05] ∧ t.rowY = 2))
      (step (row 1 5 [0x0A, 0x14, 0x1E, 0x28, 0x32, 0x3C] [0x01, 0xC8, 0x64, 0x00, 0x0A, 0x0A, 0x05])) = true ∧
    nextIs (fun t => decide (t.out = [0xFF, 0xFF, 0xFF, 0x01, 0x02, 0x03] ∧ t.ft = 2))
      (step (row 2 5 [0xC8, 0x64, 0x00, 0xD2, 0x6E, 0x05] [0x02, 0x37, 0x9B, 0xFF, 0x2F, 0x94, 0xFE])) = true := by
  decide +kernel

/-- P5, types 3 and 4; the last row completes the command with ROW_Y = 4. -/
theorem test_rows_avg_paeth :
    nextIs (fun t => decide (t.out = [0x80, 0x40, 0x20, 0xFA, 0xFA, 0xFA] ∧ t.status = .busy))
      (step (row 3 5 [0xFF, 0xFF, 0xFF, 0x01, 0x02, 0x03] [0x03, 0x01, 0xC1, 0xA1, 0xBA, 0xD9, 0xE9])) = true ∧
    nextIs (fun t => decide (t.out = [0x07, 0x08, 0x09, 0x11, 0x1C, 0x27] ∧ t.status = .done ∧ t.rowY = 4 ∧
        Memory.readBytes t.prevRow 0 6 = [0x07, 0x08, 0x09, 0x11, 0x1C, 0x27]))
      (step (row 4 5 [0x80, 0x40, 0x20, 0xFA, 0xFA, 0xFA] [0x04, 0x87, 0xC8, 0xE9, 0x91, 0x22, 0x2D])) = true := by
  decide +kernel

/-- DF1's second row (the sum of Average is not reduced), DF6's wrap, DF14's reserved type. -/
theorem test_rows_edges :
    nextIs (fun t => decide (t.out = [0xFF, 0xFF, 0xFF, 0xFF, 0xFF, 0xFF]))
      (step (row 1 2 [0xFF, 0xFF, 0xFF, 0xFF, 0xFF, 0xFF] [0x03, 0x80, 0x80, 0x80, 0x00, 0x00, 0x00])) = true ∧
    nextIs (fun t => decide (t.out = [0x00, 0x00, 0x00]))
      (step { row 1 2 [0xFF, 0xFF, 0xFF] [0x02, 0x01, 0x01, 0x01] with dfWidth := 1 }) = true ∧
    nextIs (failed .format 0x0D) (step (row 0 1 [] [0x05, 0x00, 0x00, 0x00])) = true := by decide +kernel

/-- The table of 45_defilter.md rule R432: (a, b, c, result). -/
theorem test_paeth_ties :
    [((0 : Byte), (0 : Byte), (0 : Byte), (0 : Byte)), (1, 2, 3, 1), (6, 0, 2, 6), (0, 6, 2, 6), (10, 20, 15, 15),
      (100, 50, 200, 50), (255, 0, 0, 255), (0, 255, 255, 0)].all
      (fun p => decide (paethPredictor p.1 p.2.1 p.2.2.1 = p.2.2.2)) = true := by decide +kernel

/-! ## Commands and the host -/

/-- A block in ERROR with class FORMAT and code 0x01, and the host's next moves. -/
def afterV6 (moves : List HostMove) : State :=
  { State.reset with status := .error, phase := .error, errClass := .format, errCode := 0x01, host := moves }

/-- H1: CMD = 3 after an error changes nothing but CMD; H2: CMD = 1 clears the error fields. -/
theorem test_commands :
    nextIs (fun t => decide (t.status = .error ∧ t.errCode = 0x01 ∧ t.cmd = 3)) (step (afterV6 [.writeCmd 3])) = true ∧
    nextIs (fun t => decide (t.status = .error ∧ t.cmd = 0)) (step (afterV6 [.writeCmd 0])) = true ∧
    nextIs (fun t => decide (t.status = .busy ∧ t.phase = .hdr ∧ t.errClass = .none ∧ t.errCode = 0))
      (step (afterV6 [.writeCmd 1])) = true := by decide +kernel

/-- 46_host_interface.md rule R479: a write of a read-only field while a command runs is ignored and the engine goes on,
so that the reset after it acts in the middle of the command. -/
theorem test_read_only_write_while_busy :
    nextIs (fun t => decide (t.status = .busy ∧ t.phase = .symbols ∧ t.outLen = 0 ∧ t.host = [.reset]))
      (step { engine .hdr [0x03, 0x00] with host := [.writeReadOnly .outLen 7, .reset] }) = true ∧
    nextIs (fun t => decide (t.status = .idle ∧ t.phase = .idle))
      (step { engine .symbols [0x03, 0x00] with host := [.reset] }) = true := by decide +kernel

/-- 46_host_interface.md rule R486: IN is loaded with OUT at DONE. -/
theorem test_load_out :
    nextIs (fun t => decide (t.inLen = 2 ∧ Memory.readBytes t.inMem 0 2 = [0x48, 0x00]))
      (step { State.reset with
        status := .done, out := [0x48, 0x00], outLen := 2, inMem := [(1, 0x65)], inLen := 2, host := [.loadOut] }) = true := by decide +kernel

/-- DF10 and DF11: the checks before the first row; DF9: a height of 0. -/
theorem test_defilter_checks :
    nextIs (failed .format 0x0E) (exec .cmdDefilter { State.reset with
      dfWidth := 1, dfHeight := 1, dfPixelSize := 3, inLen := 3 }) = true ∧
    nextIs (failed .unsupported 0x07) (exec .cmdDefilter { State.reset with
      dfWidth := 1, dfHeight := 1, dfPixelSize := 5, inLen := 4 }) = true ∧
    nextIs (fun t => decide (t.phase = .dfRow ∧ t.status = .busy)) (exec .cmdDefilter { State.reset with
      dfWidth := 5, dfHeight := 0, dfPixelSize := 3 }) = true := by decide +kernel

/-- H4. -/
theorem test_zlib :
    zlibHeader [0x78, 0x9C, 0x4B] = .ok [0x4B] ∧ zlibHeader [0x78, 0x9D] = .error .zlibHeader ∧
    zlibHeader [0x79, 0x9C] = .error .compressionMethod ∧ zlibHeader [0x79, 0x18] = .error .compressionMethod ∧
    zlibHeader [0x78, 0xBB] = .error .presetDictionary ∧ zlibHeader [0x88, 0x98] = .error .zlibHeader := by
  refine ⟨?_, ?_, ?_, ?_, ?_, ?_⟩ <;> rfl

/-! ## Witnesses: for each statement with hypotheses, a state and operands that meet them -/

/-- A running command's witness premises: STATUS BUSY, no reset waiting. -/
theorem witness_busy (ph : Phase) (bs : List Byte) :
    (engine ph bs).status = .busy ∧ (engine ph bs).host.head? ≠ some .reset := by
  refine ⟨rfl, ?_⟩
  intro h
  cases h

/-- StaticCodesDecode, first clause: symbols 0 and 287; 00110000 is the byte 0x0C, 11000111 is 0xE3. -/
theorem witness_StaticCodesDecode_lit :
    [(0, (0x0C : Byte)), (287, 0xE3)].all (fun p =>
      let s := engine .symbols [p.2]
      decide (p.1 < 288 ∧ s.hasBits (staticLitBits p.1).length ∧
        s.bitsAt s.pc (staticLitBits p.1).length = staticLitBits p.1)) = true := by decide +kernel

/-- StaticCodesDecode, second clause: symbols 0 and 31. -/
theorem witness_StaticCodesDecode_dist :
    [(0, (0x00 : Byte)), (31, 0x1F)].all (fun p =>
      let s := engine .symbols [p.2]
      decide (p.1 < 32 ∧ s.hasBits 5 ∧ s.bitsAt s.pc 5 = staticDistBits p.1)) = true := by decide +kernel

/-- StepRunsDecodedInstruction, first clause: a host that waits, and a header. -/
theorem witness_StepRunsDecodedInstruction_hdr :
    let s : State := { engine .hdr [0x03] with host := [.wait] }
    let t := s.afterPassiveMove
    s.status = .busy ∧ s.host.head? ≠ some .reset ∧ t.phase = .hdr ∧ t.hasBits 3 ∧
      ∃ i, decode .hdr (t.fieldAt t.pc 3) = .ok i :=
  ⟨by decide +kernel, by decide +kernel, by decide +kernel, by decide +kernel, .blkStatic 1, by rfl⟩

theorem witness_StepRunsDecodedInstruction_clsym :
    let s : State := { lensAt 257 0 0 [0x00] with clenTree := .leaf 18 }
    s.status = .busy ∧ s.host.head? ≠ some .reset ∧ s.phase = .dynLens ∧ s.lensCount.toNat < s.lensTotal ∧
      ∃ sym u i, decodeSymbol s.clenTree s = .ok sym u ∧ decode .clsym sym = .ok i :=
  ⟨by decide +kernel, by decide +kernel, by decide +kernel, by decide +kernel, 18, _, .clZero11, rfl, rfl⟩

theorem witness_StepRunsDecodedInstruction_litsym :
    let s : State := { engine .symbols [0x00] with litTree := .leaf 287 }
    s.status = .busy ∧ s.host.head? ≠ some .reset ∧ s.phase = .symbols ∧ s.distNext = false ∧
      ∃ sym u i, decodeSymbol s.litTree s = .ok sym u ∧ decode .litsym sym = .ok i :=
  ⟨by decide +kernel, by decide +kernel, by decide +kernel, by decide +kernel, 287, _, .litRsv287, rfl, rfl⟩

theorem witness_StepRunsDecodedInstruction_distsym :
    let s : State := { engine .symbols [0x00] with distTree := .leaf 31, distNext := true }
    s.status = .busy ∧ s.host.head? ≠ some .reset ∧ s.phase = .symbols ∧ s.distNext = true ∧
      ∃ sym u i, decodeSymbol s.distTree s = .ok sym u ∧ decode .distsym sym = .ok i :=
  ⟨by decide +kernel, by decide +kernel, by decide +kernel, by decide +kernel, 31, _, .distRsv31, rfl, rfl⟩

theorem witness_StepRunsDecodedInstruction_row :
    let s := row 0 1 [] [0xFF]
    s.status = .busy ∧ s.host.head? ≠ some .reset ∧ s.phase = .dfRow ∧ s.rowY.toNat < s.dfHeight.toNat ∧
      s.bytePos < s.inLen ∧ ∃ i, decode .row (Memory.read s.inMem s.bytePos).toNat = .ok i :=
  ⟨by decide +kernel, by decide +kernel, by decide +kernel, by decide +kernel, by decide +kernel,
    .filtReserved 255, by rfl⟩

theorem witness_StepRunsDecodedInstruction_cmd :
    let s := afterV6 [.writeCmd 3]
    s.status ≠ .busy ∧ s.host = .writeCmd 3 :: [] ∧ decode .cmd (3 : BitVec 2).toNat = .ok .cmdReserved :=
  ⟨by decide +kernel, rfl, rfl⟩

/-- FetchErrorsAbort: 2 bits of input left for a header; in each loop a NULL tree and a code of two bits of which the
input holds one; a missing child; a row without its filter type. -/
theorem witness_FetchErrorsAbort :
    (let t := State.afterPassiveMove { engine .hdr [0x00] with bitPos := 6 };
      t.status = .busy ∧ t.host.head? ≠ some .reset ∧ t.phase = .hdr ∧ ¬ t.hasBits 3) ∧
    [Machine.Tree.null, .node (.leaf 0) (.node (.leaf 1) (.leaf 2)), .node (.leaf 0) .null].all (fun c =>
      let raises : Machine.Tree → State → Bool := fun c t =>
        match decodeSymbol c t with | .raise _ _ => true | _ => false
      let l : State := { lensAt 257 0 0 [0x80] with bitPos := 7, clenTree := c }
      let s : State := { engine .symbols [0x80] with bitPos := 7, litTree := c }
      let d : State := { engine .symbols [0x80] with bitPos := 7, distTree := c, distNext := true }
      decide (l.status = .busy ∧ l.host.head? ≠ some .reset ∧ l.phase = .dynLens ∧ l.lensCount.toNat < l.lensTotal ∧
        s.status = .busy ∧ s.host.head? ≠ some .reset ∧ s.phase = .symbols ∧ s.distNext = false ∧
        d.status = .busy ∧ d.host.head? ≠ some .reset ∧ d.phase = .symbols ∧ d.distNext = true ∧
        raises l.clenTree l = true ∧ raises s.litTree s = true ∧ raises d.distTree d = true)) = true ∧
    (let s := row 0 1 [] [];
      s.status = .busy ∧ s.host.head? ≠ some .reset ∧ s.phase = .dfRow ∧ s.rowY.toNat < s.dfHeight.toNat ∧
        s.inLen ≤ s.bytePos) := by decide +kernel

/-- GetBitsReadsField: fields of 0 and 13 bits, and a field of 1 bit where none is left. -/
theorem witness_GetBitsReadsField :
    (0 ≤ 13 ∧ (0 = 0 ∨ (engine .hdr []).hasBits 0)) ∧ (13 ≤ 13 ∧ (engine .hdr [0xFF, 0x1F]).hasBits 13) ∧
    (0 < 1 ∧ ¬ (engine .hdr []).hasBits 1) ∧ (0 < 13 ∧ ¬ (engine .hdr [0xFF]).hasBits 13) := by decide +kernel

/-- AlignThenLittleEndian: on a boundary, with exactly two bytes left. -/
theorem witness_AlignThenLittleEndian :
    let s : State := { engine .stored [0x00, 0x05, 0x00] with bytePos := 1 }
    s.bitPos = 0 ∧ s.pc = 8 * 1 ∧ 1 + 2 ≤ s.inLen := by decide +kernel

/-- OutAppendAppendsOrOverflows: the last free place, and none. -/
theorem witness_OutAppendAppendsOrOverflows :
    (let s : State := { State.reset with outCapacity := some 1 };
      s.outCapacity ≠ some s.outLen) ∧
    (let s : State := { State.reset with outCapacity := some 0 };
      s.outCapacity = some s.outLen) := by decide +kernel

/-- EmittedRunStandsInOutAndWindow: two bytes from slot 32767 on; the second stands at slot 0; slot 1 is not reached. -/
theorem witness_EmittedRunStandsInOutAndWindow :
    let s : State := { engine .symbols [] with winCur := 32767 }
    let bs : List Byte := [1, 2]
    Memory.wf s.win ∧ (1 < bs.length ∧ bs.length ≤ 1 + 32768) ∧
    (∀ i, i < bs.length → 1 ≠ (s.winCur.toNat + i) % 32768) := by
  refine ⟨by decide +kernel, by decide +kernel, ?_⟩
  intro i hi
  have : i < 2 := hi
  change 1 ≠ (32767 + i) % 32768
  omega

/-- BuildTreeSpecialAlphabets: no symbol, one of length 1, one of length 2. -/
theorem witness_BuildTreeSpecialAlphabets :
    (∀ l ∈ [0, 0], l = 0) ∧
    [([0, 1], 1), ([0, 2], 2)].all (fun p => decide (1 < p.1.length ∧
      (∀ j, j < p.1.length → j ≠ 1 → p.1.getD j 0 = 0) ∧ p.1.getD 1 0 = p.2)) = true := by decide +kernel

/-- CompletenessIsKraftEquality and BuiltTreesAreFull: two codes of one bit each. -/
theorem witness_BuiltTreesAreFull :
    (∀ l ∈ [1, 1], l ≤ 1) ∧ checkComplete [1, 1] 1 = true ∧
    buildTree [1, 1] 1 = .ok (.node (.leaf 0) (.leaf 1)) := by
  refine ⟨by decide, by decide, rfl⟩

/-- DecodeSymbolFollowsInput: the last bit of the input, and none, for a degenerate tree; a code of two bits; a child
missing after one bit and after two; the input's end after no bit and after one of a longer code. -/
theorem witness_DecodeSymbolFollowsInput :
    let s (k : BitVec 3) : State := { engine .symbols [0xC0] with bitPos := k }
    let none : State := { engine .symbols [] with bytePos := 0 }
    let l : Machine.Tree := .leaf 4
    let r : Machine.Tree := .node .null (.leaf 5)
    (s 7).hasBits 1 ∧ ¬ none.hasBits 1 ∧
    ((s 6).bitsAt (s 6).pc 2 = [true, true] ∧ (s 6).hasBits 2 ∧
      (Machine.Tree.node l r).symbolAt [true, true] = some 5) ∧
    ((s 6).bitsAt (s 6).pc 1 = [true] ∧ (s 6).hasBits 1 ∧ (Machine.Tree.node l .null).subtree [true] = some .null) ∧
    ((s 6).bitsAt (s 6).pc 2 = [true, true] ∧ (s 6).hasBits 2 ∧
      (Machine.Tree.node l (.node l .null)).subtree [true, true] = some .null) ∧
    (none.bitsAt none.pc 0 = [] ∧ none.pc + 0 = 8 * none.inLen ∧
      (Machine.Tree.node l r).subtree [] = some (.node l r)) ∧
    ((s 7).bitsAt (s 7).pc 1 = [true] ∧ (s 7).pc + 1 = 8 * (s 7).inLen ∧
      (Machine.Tree.node l r).subtree [true] = some (.node .null (.leaf 5))) := by decide +kernel

/-- StoredBlockCopies: "Hello" after a header of 3 bits, and a block of length 0. -/
theorem witness_StoredBlockCopies :
    ∀ p ∈ [([(0x01 : Byte), 0x05, 0x00, 0xFA, 0xFF, 0x48, 0x65, 0x6C, 0x6C, 0x6F], 5),
        ([0x01, 0x00, 0x00, 0xFF, 0xFF], 0)],
      let s : State := { engine .hdr p.1 with bitPos := 3 }
      let k := s.alignedByte
      (k + 4 + p.2 ≤ s.inLen ∧
        (Memory.read s.inMem k).toNat + 256 * (Memory.read s.inMem (k + 1)).toNat = p.2 ∧
        (Memory.read s.inMem (k + 2)).toNat + 256 * (Memory.read s.inMem (k + 3)).toNat = 65535 - p.2) ∧
      s.hasRoom p.2 := by
  intro p hp
  refine ⟨?_, room _ _ rfl⟩
  revert hp p
  decide +kernel

/-- StoredLengthMismatchRaises: V9. -/
theorem witness_StoredLengthMismatchRaises :
    let s : State := { engine .hdr [0x01, 0x05, 0x00, 0xFA, 0xFE] with bitPos := 3 }
    let k := s.alignedByte
    k + 4 ≤ s.inLen ∧ (Memory.read s.inMem k).toNat + 256 * (Memory.read s.inMem (k + 1)).toNat = 5 ∧
      (Memory.read s.inMem (k + 2)).toNat + 256 * (Memory.read s.inMem (k + 3)).toNat = 65274 ∧ 5 + 65274 ≠ 65535 := by
  decide +kernel

/-- DynamicHeaderBuildsCodeLengthTree: V7a's header, and V17's, whose code lengths are malformed. -/
theorem witness_DynamicHeaderBuildsCodeLengthTree :
    [([(0x05 : Byte), 0x00, 0x80, 0xE4, 0xFF, 0x1F], true), ([0x05, 0x00, 0x92, 0x00], false)].all (fun p =>
      let s : State := { engine .hdr p.1 with bitPos := 3 }
      let hclen := s.fieldAt (s.pc + 10) 4 + 4
      decide (s.hasBits 14 ∧ s.hasBits (14 + 3 * hclen)) &&
      match buildTree ((s.sentClenLens (s.pc + 14) hclen).toList.map BitVec.toNat) 7 with
      | .ok _ => p.2
      | .error _ => !p.2) = true := by decide +kernel

/-- TreesAreBuiltAfterCodeLengths: all lengths 0; LENS[0] = 2, malformed; LENS[257] = 2, a malformed distance set. -/
theorem witness_TreesAreBuiltAfterCodeLengths :
    [((0 : Nat), (0 : BitVec 4), true, true), (0, 2, false, true), (257, 2, true, false)].all (fun p =>
      let s := lensAt 258 p.1 p.2.1 []
      let ls := s.lens.toList.map BitVec.toNat
      let isOk : Except Err Machine.Tree → Bool := fun r => match r with | .ok _ => true | .error _ => false
      decide (s.status = .busy ∧ s.host = [] ∧ s.phase = .dynLens ∧ s.lensTotal ≤ s.lensCount.toNat ∧
        s.hlit.toNat ≤ 288 ∧ s.hdist.toNat ≤ 32 ∧
        isOk (buildTree (ls.take s.hlit.toNat) 15) = p.2.2.1 ∧
        isOk (buildTree ((ls.drop s.hlit.toNat).take s.hdist.toNat) 15) = p.2.2.2)) = true := by decide +kernel

/-- BlockEndTestsFinalFlag: either flag. -/
theorem witness_BlockEndTestsFinalFlag :
    [(0 : BitVec 1), 1].all (fun f =>
      let s : State := { engine .blockEnd [] with bfinal := f }
      decide (s.status = .busy ∧ s.host = [] ∧ s.phase = .blockEnd ∧ s.bfinal = f)) = true := by decide +kernel

/-- CodeLengthLiteralAppends: the last entry. -/
theorem witness_CodeLengthLiteralAppends : (lensAt 319 0 0 []).lensCount.toNat < 320 := by decide +kernel

/-- RepeatCopiesPreviousLength: 6 copies from entry 1 on, and 3 up to the total, entries 255..257. -/
theorem witness_RepeatCopiesPreviousLength :
    [((1 : BitVec 9), (0b11 : Byte)), (255, 0)].all (fun p =>
      let s := lensAt p.1 0 7 [p.2]
      decide (0 < s.lensCount.toNat ∧ s.hasBits 2 ∧ s.lensCount.toNat + (3 + s.fieldAt s.pc 2) ≤ s.lensTotal ∧
        s.lensTotal ≤ 320)) = true := by decide +kernel

/-- ZeroRunsAppendZeros: each of the two as the first entry, with all extra bits 1. -/
theorem witness_ZeroRunsAppendZeros :
    [(Instr.clZero3, 3, 3), (Instr.clZero11, 11, 7)].all (fun p =>
      let s := lensAt 0 0 0 [0xFF]
      decide (s.hasBits p.2.2 ∧ s.lensCount.toNat + (p.2.1 + s.fieldAt s.pc p.2.2) ≤ s.lensTotal ∧
        s.lensTotal ≤ 320)) = true := by decide +kernel

/-- RunsPastTheTotalRaise: nothing before CL_REP; each run one past the total. -/
theorem witness_RunsPastTheTotalRaise :
    (lensAt 0 0 0 []).lensCount = 0 ∧
    [(Instr.clRep, 3, 2, (256 : BitVec 9)), (.clZero3, 3, 3, 256), (.clZero11, 11, 7, 248)].all (fun p =>
      let s := lensAt p.2.2.2 0 0 [0x00]
      decide ((s.lensCount ≠ 0 ∨ p.1 ≠ .clRep) ∧ s.hasBits p.2.2.1 ∧
        s.lensTotal < s.lensCount.toNat + (p.2.1 + s.fieldAt s.pc p.2.2.1))) = true := by decide +kernel

/-- LiteralAndEndOfBlock: the last free place of OUT. -/
theorem witness_LiteralAndEndOfBlock :
    let s : State := { engine .symbols [] with outCapacity := some 1 }
    s.outCapacity ≠ some s.outLen := by decide +kernel

/-- LengthInstructionsWriteMatchLen and NullDistanceTreeRaises: no extra bits with the input at its end, 5 extra bits,
and a NULL distance tree. -/
theorem witness_LengthInstructionsWriteMatchLen :
    (Instr.len285, 285, 0, 258) ∈ lengthRows ∧ (Instr.len284, 284, 5, 227) ∈ lengthRows ∧
    (let s : State := { engine .symbols [0x1F] with distTree := .leaf 0 };
      s.distTree ≠ .null ∧ s.hasBits 5) ∧ (engine .symbols []).distTree = .null := by decide +kernel

/-- DistanceInstructionsCopy: distance 1 with one byte in the window, and distance 32768 once it wrapped. -/
theorem witness_DistanceInstructionsCopy :
    (Instr.dist0, 0, 0, 1) ∈ distRows ∧ (Instr.dist29, 29, 13, 24577) ∈ distRows ∧
    (let s : State := { engine .symbols [] with winCur := 1, matchLen := 3 };
      (Memory.wf s.win ∧ (0 = 0 ∨ s.hasBits 0) ∧ (s.winWrapped = 1 ∨ 1 + s.fieldAt s.pc 0 ≤ s.winCur.toNat)) ∧
        s.hasRoom s.matchLen.toNat) ∧
    (let s : State := { engine .symbols [0xFF, 0x1F] with winWrapped := 1, matchLen := 258 };
      (Memory.wf s.win ∧ s.hasBits 13 ∧ s.winWrapped = 1 ∧ s.fieldAt s.pc 13 = 8191) ∧
        s.hasRoom s.matchLen.toNat) :=
  ⟨by decide +kernel, by decide +kernel, ⟨by decide +kernel, room _ _ rfl⟩, by decide +kernel, room _ _ rfl⟩

/-- DistanceTooFarRaises: distance 32768 with 32767 bytes in the window (V13b). -/
theorem witness_DistanceTooFarRaises :
    let s : State := { engine .symbols [0xFF, 0x1F] with winCur := 32767 }
    (13 = 0 ∨ s.hasBits 13) ∧ ¬(s.winWrapped = 1 ∨ 24577 + s.fieldAt s.pc 13 ≤ s.winCur.toNat) := by decide +kernel

/-- WholeWindowCopyKeepsWindow: a window that wrapped, and one that did not. -/
theorem witness_WholeWindowCopyKeepsWindow :
    (let s : State := { engine .symbols [0xFF, 0x1F] with winWrapped := 1, matchLen := 258 };
      (s.hasBits 13 ∧ s.fieldAt s.pc 13 = 8191 ∧ Memory.wf s.win ∧ s.winWrapped = 1) ∧
        s.hasRoom s.matchLen.toNat) ∧
    (let s : State := { engine .symbols [0xFF, 0x1F] with winCur := 32767 };
      s.hasBits 13 ∧ s.fieldAt s.pc 13 = 8191 ∧ s.winWrapped ≠ 1) :=
  ⟨⟨by decide +kernel, room _ _ rfl⟩, by decide +kernel⟩

/-- BoundedOutputOverflows: a bound of no byte, and bounds one byte short. -/
theorem witness_BoundedOutputOverflows :
    (let s : State := { engine .symbols [] with outCapacity := some 0 };
      s.outCapacity = some s.outLen) ∧
    (let s : State := { engine .symbols [] with winCur := 1, matchLen := 3, outCapacity := some 2 };
      (0 = 0 ∨ s.hasBits 0) ∧ (s.winWrapped = 1 ∨ 1 + s.fieldAt s.pc 0 ≤ s.winCur.toNat) ∧
        s.outCapacity = some 2 ∧ s.outLen ≤ 2 ∧ 2 < s.outLen + s.matchLen.toNat) ∧
    (let s : State := { engine .hdr [0x01, 0x05, 0x00, 0xFA, 0xFF, 0x48, 0x65, 0x6C, 0x6C, 0x6F] with
        bitPos := 3, outCapacity := some 4 };
      s.alignedByte = 1 ∧ 1 + 4 + 5 ≤ s.inLen ∧
        (Memory.read s.inMem 1).toNat + 256 * (Memory.read s.inMem 2).toNat = 5 ∧
        (Memory.read s.inMem 3).toNat + 256 * (Memory.read s.inMem 4).toNat = 65535 - 5 ∧
        s.outCapacity = some 4 ∧ s.outLen ≤ 4 ∧ 4 < s.outLen + 5) ∧
    (let s : State := { row 0 1 [] [0x0A, 0x14, 0x1E, 0x28, 0x32, 0x3C] with outCapacity := some 5 };
      let rb := s.dfWidth.toNat * s.dfPixelSize.toNat;
      s.bytePos + rb ≤ s.inLen ∧ s.outCapacity = some 5 ∧ s.outLen ≤ 5 ∧ 5 < s.outLen + rb) := by decide +kernel

/-- InputEndRaises, clause by clause: less than each needs; a dynamic header cut in its counts and in its lengths. -/
theorem witness_InputEndRaises :
    (let s : State := { engine .symbols [0x00] with distTree := .leaf 0, bitPos := 4 };
      s.distTree ≠ .null ∧ 0 < 5 ∧ ¬ s.hasBits 5) ∧
    (let s : State := { engine .symbols [0x00, 0x00] with bitPos := 4 };
      0 < 13 ∧ ¬ s.hasBits 13) ∧
    (let s : State := { lensAt 1 0 0 [0x00] with bitPos := 7 };
      s.lensCount ≠ 0 ∧ ¬ s.hasBits 2) ∧
    [[(0x05 : Byte), 0x00], [0x05, 0x00, 0x80]].all (fun bs =>
      let s : State := { engine .hdr bs with bitPos := 3 }
      decide (¬ s.hasBits (14 + 3 * (s.fieldAt (s.pc + 10) 4 + 4)))) = true ∧
    (let s : State := { engine .hdr [0x01, 0x05, 0x00, 0xFA] with bitPos := 3 };
      s.inLen < s.alignedByte + 4) ∧
    (let s : State := { engine .hdr [0x01, 0x05, 0x00, 0xFA, 0xFF, 0x48, 0x65, 0x6C, 0x6C] with bitPos := 3 };
      s.alignedByte = 1 ∧ 1 + 4 ≤ s.inLen ∧ s.inLen < 1 + 4 + 5 ∧
        (Memory.read s.inMem 1).toNat + 256 * (Memory.read s.inMem 2).toNat = 5 ∧
        (Memory.read s.inMem 3).toNat + 256 * (Memory.read s.inMem 4).toNat = 65535 - 5) ∧
    (let s := row 0 1 [] [0x0A, 0x14, 0x1E, 0x28, 0x32];
      let rb := s.dfWidth.toNat * s.dfPixelSize.toNat;
      0 < rb ∧ s.inLen < s.bytePos + rb) := by decide +kernel

/-- TwoStepsAreOneBackReference. -/
theorem witness_TwoStepsAreOneBackReference :
    let s : State := { engine .symbols [0x00] with distTree := .leaf 31 }
    (Instr.len257, 257, 0, 3) ∈ lengthRows ∧ s.status = .busy ∧ s.phase = .symbols ∧ s.host = [] ∧
      s.distNext = false ∧ s.distTree.symsBelow 32 = true := by decide +kernel

/-- FilterInstructionsReconstructRows: a row that is not the last, and an empty last one (DF7). -/
theorem witness_FilterInstructionsReconstructRows :
    (let s := row 0 2 [] [0x0A, 0x14, 0x1E, 0x28, 0x32, 0x3C];
      Memory.wf s.curRow ∧ s.bytePos + s.dfWidth.toNat * s.dfPixelSize.toNat ≤ s.inLen ∧
        s.rowY.toNat + 1 < s.dfHeight.toNat) ∧
    (let s : State := { row 2 3 [] [] with dfWidth := 0 };
      Memory.wf s.curRow ∧ s.bytePos + s.dfWidth.toNat * s.dfPixelSize.toNat ≤ s.inLen ∧
        ¬ s.rowY.toNat + 1 < s.dfHeight.toNat) ∧
    (row 0 2 [] [0x0A, 0x14, 0x1E, 0x28, 0x32, 0x3C]).hasRoom 6 ∧ State.hasRoom { row 2 3 [] [] with dfWidth := 0 } 0 :=
  ⟨by decide +kernel, by decide +kernel, room _ _ rfl, room _ _ rfl⟩

/-- NoRowsLeftCompletes: a height of 0 (DF9). -/
theorem witness_NoRowsLeftCompletes :
    let s := row 0 0 [] []
    s.status = .busy ∧ s.host = [] ∧ s.phase = .dfRow ∧ s.dfHeight.toNat ≤ s.rowY.toNat := by decide +kernel

/-- FilterInstructionsInvertForwardFilter: the rows of P5, one of each filter instruction: (row, the row above, the
filtered bytes, the original bytes). -/
theorem witness_FilterInstructionsInvertForwardFilter :
    let rows : List (BitVec 32 × List Byte × List Byte × List Byte) :=
      [(0, [], [0x0A, 0x14, 0x1E, 0x28, 0x32, 0x3C], [0x0A, 0x14, 0x1E, 0x28, 0x32, 0x3C]),
       (1, [0x0A, 0x14, 0x1E, 0x28, 0x32, 0x3C], [0xC8, 0x64, 0x00, 0x0A, 0x0A, 0x05],
         [0xC8, 0x64, 0x00, 0xD2, 0x6E, 0x05]),
       (2, [0xC8, 0x64, 0x00, 0xD2, 0x6E, 0x05], [0x37, 0x9B, 0xFF, 0x2F, 0x94, 0xFE],
         [0xFF, 0xFF, 0xFF, 0x01, 0x02, 0x03]),
       (3, [0xFF, 0xFF, 0xFF, 0x01, 0x02, 0x03], [0x01, 0xC1, 0xA1, 0xBA, 0xD9, 0xE9],
         [0x80, 0x40, 0x20, 0xFA, 0xFA, 0xFA]),
       (4, [0x80, 0x40, 0x20, 0xFA, 0xFA, 0xFA], [0x87, 0xC8, 0xE9, 0x91, 0x22, 0x2D],
         [0x07, 0x08, 0x09, 0x11, 0x1C, 0x27])]
    rows.length = filterRows.length ∧
    ∀ p ∈ filterRows.zip rows,
      let s := row p.2.1 5 p.2.2.1 p.2.2.2.1
      let x := p.2.2.2.2
      (Memory.wf s.curRow ∧ x.length = s.dfWidth.toNat * s.dfPixelSize.toNat ∧ s.bytePos + x.length ≤ s.inLen ∧
        Memory.readBytes s.inMem s.bytePos x.length = forwardRow p.1.2.2 s.dfPixelSize.toNat s.rowAbove x) ∧
      s.hasRoom x.length := by
  refine ⟨by decide, fun p hp => ⟨?_, room _ _ rfl⟩⟩
  fin_cases hp <;> decide +kernel

/-- InflateCommandStarts, DefilterCommandStartsOrRaises, OtherCommandWrites: an idle block for each clause, with the
input one byte short, exactly long enough, and of an illegal pixel size; and a running command. -/
theorem witness_commands :
    State.reset.status ≠ .busy ∧ (engine .hdr []).status = .busy ∧
    (let s : State := { State.reset with dfWidth := 1, dfHeight := 1, dfPixelSize := 5 };
      ¬ (s.dfPixelSize = 3 ∨ s.dfPixelSize = 4)) ∧
    [(3, true), (4, false)].all (fun p =>
      let s : State := { State.reset with dfWidth := 1, dfHeight := 1, dfPixelSize := 3, inLen := p.1 }
      decide ((s.dfPixelSize = 3 ∨ s.dfPixelSize = 4) ∧
        (s.inLen < s.dfHeight.toNat * (1 + s.dfWidth.toNat * s.dfPixelSize.toNat)) = p.2)) = true := by decide +kernel

/-- HostMovesAct: each host move on an idle block, a reset and an ignored write while a command runs, and loading IN
from OUT at DONE. -/
theorem witness_HostMovesAct :
    State.reset.status ≠ .busy ∧ State.reset.host = [] ∧ Memory.wf State.reset.inMem ∧
    (let s : State := { engine .hdr [] with host := [.reset] };
      s.host = .reset :: []) ∧
    (let s : State := { engine .hdr [] with host := [.writeReadOnly .outLen 7, .reset] };
      s.status = .busy ∧ s.host = .writeReadOnly .outLen 7 :: [.reset]) ∧
    (let s : State := { State.reset with status := .done, out := [0x48], outLen := 1, host := [.loadOut] };
      s.status ≠ .busy ∧ s.host = .loadOut :: [] ∧ s.status = .done ∧ 0 < s.out.length) ∧
    [HostMove.writeInLen 3, .writeWidth 1, .writeHeight 1, .writePixelSize 3, .writeReadOnly .status 2, .wait,
      .writeIn 0 [1, 0]].all (fun m =>
        let s : State := { State.reset with host := [m] }
        decide (s.status ≠ .busy ∧ s.host = m :: [])) = true := by decide +kernel

/-- ResultsStayUntilNextCommand: H1. -/
theorem witness_ResultsStayUntilNextCommand :
    let s := afterV6 [.writeCmd 3]
    s.status ≠ .busy ∧ s.host.head? ≠ some .reset ∧ s.host.head? ≠ some (.writeCmd 1) ∧
      s.host.head? ≠ some (.writeCmd 2) ∧ nextIs (fun _ => true) (step s) = true := by decide +kernel

/-- BoundaryChecks: a list of one byte. -/
theorem witness_BoundaryChecks : [(0x78 : Byte)].length < 2 := by decide

/-- MatchExpandsToItsCodes: the least and the greatest length and distance. -/
theorem witness_MatchExpandsToItsCodes : 3 ≤ 3 ∧ 258 ≤ 258 ∧ 1 ≤ 1 ∧ 32768 ≤ 32768 := by decide

/-- A literal 0xAB already emitted, and the next literal's code in the input: StepKeepsMemoriesCanonical,
StepKeepsCursorWithinInput, StepKeepsOutputCounted, StepKeepsErrorFields, StepNeverStops, RunningStepsLowerRemaining,
PhaseFollowsTable, CursorOnlyMovesForward. -/
def midway : State :=
  { engine .symbols [0x00] with
    litTree := .leaf 0x61, out := [0xAB], outLen := 1, outCapacity := some 2, win := [(0, 0xAB)], winCur := 1 }

theorem witness_midway_invariants :
    MemoriesCanonical midway ∧ CursorWithinInput midway ∧ OutputCounted midway ∧ ErrorFieldsMatchStatus midway ∧
    NothingStops midway := by
  refine ⟨?_, ?_, ⟨rfl, ?_⟩, ?_, ?_⟩
  · unfold MemoriesCanonical; decide +kernel
  · unfold CursorWithinInput; decide +kernel
  · intro c hc
    cases hc
    decide
  · unfold ErrorFieldsMatchStatus; decide +kernel
  · unfold NothingStops; decide +kernel

/-- StepKeepsWindowHoldsOutput. -/
theorem witness_midway_window : WindowHoldsOutput midway := by
  intro _ _
  refine ⟨by decide +kernel, by decide +kernel, ?_⟩
  intro k h1 h2 _
  have : k ≤ 1 := h2
  have : k = 1 := by omega
  subst this
  decide +kernel

theorem witness_midway_step :
    midway.status = .busy ∧ midway.host.head? ≠ some .reset ∧
    ∃ t, step midway = .next t ∧ decide (t.status = .busy ∧ t.phase = .symbols) = true :=
  ⟨by decide +kernel, by decide +kernel, next_of _ _ (by decide +kernel)⟩

/-- EveryCommandEnds: V1 from its header. -/
theorem witness_EveryCommandEnds :
    let s := engine .hdr [0x01, 0x05, 0x00, 0xFA, 0xFF, 0x48, 0x65, 0x6C, 0x6C, 0x6F]
    NothingStops s ∧ CursorWithinInput s ∧ s.status = .busy ∧ s.host = [] := by
  refine ⟨?_, ?_, by decide +kernel, by decide +kernel⟩
  · unfold NothingStops; decide +kernel
  · unfold CursorWithinInput; decide +kernel

/-- InstructionsNeverWriteParameters: LIT. -/
theorem witness_InstructionsNeverWriteParameters : ∃ t, exec (.lit 0x61) midway = .next t ∧ true = true :=
  next_of (fun _ => true) _ (by decide +kernel)

/-- WrappedFlagStaysSet: a step with the flag set. -/
theorem witness_WrappedFlagStaysSet :
    let s : State := { midway with winWrapped := 1 }
    s.winWrapped = 1 ∧ ∃ t, step s = .next t ∧ decide (t.winWrapped = 1) = true :=
  ⟨by decide +kernel, next_of _ _ (by decide +kernel)⟩

end Sys2Proof.Tests
end

section
/-! What a run of emitted bytes leaves, from the laws of the append (Sys2Proof/Laws/Output.lean). -/

namespace Sys2Proof.Machine

/-- The frame of an emission: OUT, OUT_LEN and the window's registers alone are written (00_scope.md rule R13). -/
theorem emitted_frame (bs : List Byte) (s : State) :
    emitted bs s = { s with
      out := s.out ++ bs, outLen := s.outLen + bs.length, win := (emitted bs s).win,
      winCur := (emitted bs s).winCur, winWrapped := (emitted bs s).winWrapped } := by
  rw [emitted_win, emitted_winCur, emitted_winWrapped]
  exact emitted_eq bs s

/-- Settles O10: the window after an emission is the window after the append, which writes the i-th byte of the run at
slot WIN_CUR + i modulo 32768. -/
theorem emittedRunStandsInOutAndWindow : Obligations.EmittedRunStandsInOutAndWindow := by
  unfold Obligations.EmittedRunStandsInOutAndWindow
  intro bs s hwf t
  have hwin : t.win = (winAppendData bs s).win := emitted_win bs s
  have hcur : t.winCur = (winAppendData bs s).winCur := emitted_winCur bs s
  have hwrapped : t.winWrapped = (winAppendData bs s).winWrapped := emitted_winWrapped bs s
  refine ⟨emitted_frame bs s, ?cursor, ?wrapped, ?reached, ?unreached⟩
  case cursor => rw [hcur, winAppendData_cur]
  case wrapped => rw [hwrapped, winAppendData_wrapped]
  case reached =>
    intro i hi hlast
    rw [hwin, winAppendData_read bs hwf i hi (by omega)]
  case unreached =>
    intro a ha
    rw [hwin, winAppendData_read_other bs hwf a ha]

end Sys2Proof.Machine
end

section
/-! The canonical codes of BuildTree (40_huffman.md rule R202): which code each symbol gets, that no complete code
begins another and that the codes cover every bit string, so that the tree they are inserted into is full. -/

namespace Sys2Proof.Machine

/-! ## Bits of a code -/

@[simp] theorem msbBits_length (n c : Nat) : (msbBits n c).length = n := by
  induction n with
  | zero => rfl
  | succ n ih => simp [msbBits, ih]

/-- The first n bits of a longer code are the code without its last r bits. -/
theorem msbBits_take (n r c : Nat) : (msbBits (n + r) c).take n = msbBits n (c / 2 ^ r) := by
  induction n with
  | zero => simp [msbBits]
  | succ n ih => simp [show n + 1 + r = n + r + 1 by omega, msbBits, ih, Nat.testBit_div_two_pow]

theorem msbBits_testBit {n a b : Nat} (h : msbBits n a = msbBits n b) (i : Nat) (hi : i < n) :
    a.testBit i = b.testBit i := by
  induction n with
  | zero => omega
  | succ n ih =>
    simp only [msbBits, List.cons.injEq] at h
    obtain ⟨hhead, htail⟩ := h
    rcases Nat.lt_succ_iff_lt_or_eq.mp hi with hlt | rfl
    · exact ih htail hlt
    · exact hhead

theorem msbBits_injective {n a b : Nat} (ha : a < 2 ^ n) (hb : b < 2 ^ n) (h : msbBits n a = msbBits n b) : a = b := by
  refine Nat.eq_of_testBit_eq fun i => ?_
  by_cases hi : i < n
  · exact msbBits_testBit h i hi
  · have hle : 2 ^ n ≤ 2 ^ i := Nat.pow_le_pow_right (by omega) (by omega)
    rw [Nat.testBit_lt_two_pow (ha.trans_le hle), Nat.testBit_lt_two_pow (hb.trans_le hle)]

theorem msbBits_congr {n a b : Nat} (h : ∀ i < n, a.testBit i = b.testBit i) : msbBits n a = msbBits n b := by
  induction n with
  | zero => rfl
  | succ n ih => rw [msbBits, msbBits, h n (by omega), ih fun i hi => h i (by omega)]

/-- Every bit string is the bits of a number. -/
theorem exists_msbBits (bs : Bits) : ∃ x < 2 ^ bs.length, msbBits bs.length x = bs := by
  induction bs with
  | nil => exact ⟨0, by simp, rfl⟩
  | cons b bs ih =>
    obtain ⟨x, hx, hbits⟩ := ih
    have hb := b.toNat_le
    refine ⟨2 ^ bs.length * b.toNat + x, ?_, ?_⟩
    · rw [List.length_cons, Nat.pow_succ]
      have : 2 ^ bs.length * b.toNat ≤ 2 ^ bs.length * 1 := Nat.mul_le_mul_left _ hb
      omega
    · rw [List.length_cons, msbBits]
      congr 1
      · rw [Nat.testBit_two_pow_mul_add _ hx]
        cases b <;> simp
      · rw [← hbits, msbBits_length]
        refine msbBits_congr fun i hi => ?_
        rw [Nat.testBit_two_pow_mul_add _ hx, if_pos hi]

/-- The bits of one code begin those of another only if it is the other without its last bits. -/
theorem eq_div_of_msbBits_prefix {n m a b : Nat} (ha : a < 2 ^ n) (hb : b < 2 ^ m)
    (h : msbBits n a <+: msbBits m b) : n ≤ m ∧ a = b / 2 ^ (m - n) := by
  have hnm : n ≤ m := by simpa using h.length_le
  refine ⟨hnm, msbBits_injective ha ?_ ?_⟩
  · rw [Nat.div_lt_iff_lt_mul (Nat.two_pow_pos _), ← Nat.pow_add, Nat.add_sub_cancel' hnm]
    exact hb
  · have htake := List.prefix_iff_eq_take.mp h
    rw [msbBits_length] at htake
    rw [htake, ← msbBits_take, Nat.add_sub_cancel' hnm]

/-! ## Insertion -/

/-- A path's first bit chooses a child; an absent child leads nowhere. -/
theorem symbolAt_cons (t : Tree) (b : Bool) (bs : Bits) :
    t.symbolAt (b :: bs) = (if b then t.right else t.left).symbolAt bs := by
  cases t <;> cases b <;> simp [Tree.symbolAt, Tree.left, Tree.right]

theorem symbolAt_insert_same (sym code n : Nat) (t : Tree) :
    (Tree.insert sym code n t).symbolAt (msbBits n code) = some sym := by
  induction n generalizing t with
  | zero => rfl
  | succ n ih =>
    rw [msbBits, Tree.insert]
    cases hb : code.testBit n <;> simp [Tree.symbolAt, ih]

/-- An insertion changes no path that is neither a part nor an extension of its own. -/
theorem symbolAt_insert_other (sym code n : Nat) (t : Tree) (bs : Bits)
    (h1 : ¬ msbBits n code <+: bs) (h2 : ¬ bs <+: msbBits n code) :
    (Tree.insert sym code n t).symbolAt bs = t.symbolAt bs := by
  induction n generalizing t bs with
  | zero => exact absurd (List.nil_prefix) h1
  | succ n ih =>
    cases bs with
    | nil => exact absurd (List.nil_prefix) h2
    | cons b bs =>
      rw [msbBits, List.cons_prefix_cons] at h1 h2
      rw [Tree.insert, symbolAt_cons t]
      by_cases hb : b = code.testBit n
      · have step : ∀ u, (Tree.insert sym code n u).symbolAt bs = u.symbolAt bs := fun u =>
          ih u bs (fun h => h1 ⟨hb.symm, h⟩) fun h => h2 ⟨hb, h⟩
        cases hc : code.testBit n <;> simp [hb, hc, Tree.symbolAt, step]
      · cases hc : code.testBit n <;> simp_all [Tree.symbolAt]

/-- A tree in which every string of m bits begins with the path of a symbol is full. -/
theorem isFull_of_covered (m : Nat) (t : Tree)
    (h : ∀ bs : Bits, bs.length = m → ∃ n, (t.symbolAt (bs.take n)).isSome) : t.isFull = true := by
  induction t generalizing m with
  | null =>
    obtain ⟨n, hn⟩ := h (List.replicate m false) (by simp)
    simp [Tree.symbolAt] at hn
  | leaf sym => rfl
  | node l r ihl ihr =>
    cases m with
    | zero =>
      obtain ⟨n, hn⟩ := h [] rfl
      simp [Tree.symbolAt] at hn
    | succ m =>
      have child : ∀ (b : Bool) (bs : Bits), bs.length = m →
          ∃ n, ((if b then r else l).symbolAt (bs.take n)).isSome := by
        intro b bs hbs
        obtain ⟨n, hn⟩ := h (b :: bs) (by simp [hbs])
        cases n with
        | zero => simp [Tree.symbolAt] at hn
        | succ n =>
          rw [List.take_succ_cons, symbolAt_cons] at hn
          exact ⟨n, hn⟩
      simp only [Tree.isFull, Bool.and_eq_true]
      exact ⟨ihl m (child false), ihr m (child true)⟩

/-! ## The first code of each length -/

/-- The first code of length k + 1 (40_huffman.md rule R202). -/
def firstCode (lens : List Nat) : Nat → Nat
  | 0 => 0
  | k + 1 => 2 * (firstCode lens k + lens.count (k + 1))

theorem nextCodesFrom_getElem? (lens : List Nat) (n k i : Nat) (hi : i < n) :
    (nextCodesFrom lens n (k + 2) (firstCode lens k))[i]? = some (firstCode lens (k + 1 + i)) := by
  induction n generalizing k i with
  | zero => omega
  | succ n ih =>
    have hnext : 2 * (firstCode lens k + blCount lens (k + 2 - 1)) = firstCode lens (k + 1) := rfl
    simp only [nextCodesFrom, hnext]
    cases i with
    | zero => rfl
    | succ i =>
      rw [List.getElem?_cons_succ, ih (k + 1) i (by omega)]
      congr 2
      omega

/-- next_code holds the first code of each length. -/
theorem nextCodes_getElem? (lens : List Nat) {m k : Nat} (hk : k < m) :
    (nextCodes lens m)[k]? = some (firstCode lens k) := by
  unfold nextCodes
  cases k with
  | zero => rfl
  | succ k =>
    rw [List.getElem?_cons_succ]
    have := nextCodesFrom_getElem? lens (m - 1) 0 k (by omega)
    rwa [Nat.zero_add, Nat.add_comm 1 k] at this

/-- Codes of a greater length begin after all codes of a smaller one. -/
theorem mul_le_firstCode (lens : List Nat) (k d : Nat) :
    2 ^ (d + 1) * (firstCode lens k + lens.count (k + 1)) ≤ firstCode lens (k + (d + 1)) := by
  induction d with
  | zero => exact le_of_eq (by simp [firstCode])
  | succ d ih =>
    calc 2 ^ (d + 1 + 1) * (firstCode lens k + lens.count (k + 1))
        = 2 * (2 ^ (d + 1) * (firstCode lens k + lens.count (k + 1))) := by rw [Nat.pow_succ 2 (d + 1)]; ring
      _ ≤ 2 * (firstCode lens (k + (d + 1)) + lens.count (k + (d + 1) + 1)) := by omega
      _ = firstCode lens (k + (d + 1 + 1)) := rfl

theorem checkCompleteFrom_firstCode (lens : List Nat) (n k left : Nat)
    (hleft : 2 * left + firstCode lens k = 2 ^ (k + 1)) (h : checkCompleteFrom lens n (k + 1) left = true) :
    firstCode lens (k + n) = 2 ^ (k + n + 1) := by
  induction n generalizing k left with
  | zero =>
    have : left = 0 := by simpa [checkCompleteFrom] using h
    simpa [this] using hleft
  | succ n ih =>
    rw [checkCompleteFrom, blCount] at h
    split at h
    · cases h
    · have hnext : 2 * (2 * left - lens.count (k + 1)) + firstCode lens (k + 1) = 2 ^ (k + 1 + 1) := by
        rw [firstCode, Nat.pow_succ 2 (k + 1)]
        omega
      have := ih (k + 1) _ hnext h
      rwa [Nat.add_right_comm k 1 n] at this

/-- Complete codes use all of the code space (40_huffman.md rule R203). -/
theorem firstCode_of_checkComplete {lens : List Nat} {m : Nat} (h : checkComplete lens m = true) :
    firstCode lens m = 2 ^ (m + 1) := by
  simpa using checkCompleteFrom_firstCode lens m 0 1 rfl h

/-- Complete codes fit their lengths. -/
theorem codes_fit {lens : List Nat} {m k : Nat} (h : checkComplete lens m = true) (hk : k < m) :
    firstCode lens k + lens.count (k + 1) ≤ 2 ^ (k + 1) := by
  have hle := mul_le_firstCode lens k (m - k - 1)
  rw [show k + (m - k - 1 + 1) = m by omega, firstCode_of_checkComplete h,
    show m + 1 = (m - k - 1 + 1) + (k + 1) by omega, Nat.pow_add 2 (m - k - 1 + 1)] at hle
  exact Nat.le_of_mul_le_mul_left hle (Nat.two_pow_pos _)

/-! ## The code of each symbol -/

/-- The code of symbol sym, of length len: the symbols of a length get its codes in order (40_huffman.md rule R202). -/
def symbolCode (lens : List Nat) (sym len : Nat) : Nat := firstCode lens (len - 1) + lens.countBefore len sym

theorem symbolCode_lt {lens : List Nat} {sym len : Nat} (h : lens[sym]? = some len) :
    symbolCode lens sym len < firstCode lens (len - 1) + lens.count len := by
  obtain ⟨hlt, heq⟩ := List.getElem?_eq_some_iff.mp h
  have := List.countBefore_lt_count_of_lt_length_of_beq (beq_iff_eq.mpr heq)
  unfold symbolCode
  omega

theorem symbolCode_lt_two_pow {lens : List Nat} {m sym len : Nat} (hc : checkComplete lens m = true)
    (h : lens[sym]? = some len) (h0 : len ≠ 0) (hm : len ≤ m) : symbolCode lens sym len < 2 ^ len := by
  obtain ⟨k, rfl⟩ := Nat.exists_eq_succ_of_ne_zero h0
  exact (symbolCode_lt h).trans_le (codes_fit hc (by omega))

/-- Two symbols of one length have two codes. -/
theorem symbolCode_injective {lens : List Nat} {i j len : Nat} (hi : lens[i]? = some len) (hj : lens[j]? = some len)
    (h : symbolCode lens i len = symbolCode lens j len) : i = j := by
  obtain ⟨hilt, hieq⟩ := List.getElem?_eq_some_iff.mp hi
  obtain ⟨hjlt, hjeq⟩ := List.getElem?_eq_some_iff.mp hj
  have hcount : lens.countBefore len i = lens.countBefore len j := Nat.add_left_cancel h
  calc i = lens.idxOfNth len (lens.countBefore len i) :=
        (List.idxOfNth_countBefore_of_lt_length_of_beq (beq_iff_eq.mpr hieq)).symm
    _ = j := by rw [hcount, List.idxOfNth_countBefore_of_lt_length_of_beq (beq_iff_eq.mpr hjeq)]

/-- A longer code without its last bits comes after every shorter one. -/
theorem symbolCode_lt_div {lens : List Nat} {i j k l : Nat} (hi : lens[i]? = some k) (h0 : k ≠ 0) (hkl : k < l) :
    symbolCode lens i k < symbolCode lens j l / 2 ^ (l - k) := by
  refine (symbolCode_lt hi).trans_le ?_
  rw [Nat.le_div_iff_mul_le (Nat.two_pow_pos _), Nat.mul_comm]
  have hle := mul_le_firstCode lens (k - 1) (l - k - 1)
  rw [show l - k - 1 + 1 = l - k by omega, show k - 1 + 1 = k by omega,
    show k - 1 + (l - k) = l - 1 by omega] at hle
  exact hle.trans (Nat.le_add_right _ _)

/-- The bits of a symbol's code. -/
def symbolBits (lens : List Nat) (sym len : Nat) : Bits := msbBits len (symbolCode lens sym len)

/-- No complete code begins another. -/
theorem symbolBits_not_prefix {lens : List Nat} {m i j k l : Nat} (hc : checkComplete lens m = true)
    (hm : ∀ len ∈ lens, len ≤ m) (hi : lens[i]? = some k) (hj : lens[j]? = some l) (hk : k ≠ 0) (hl : l ≠ 0)
    (hij : i ≠ j) : ¬ symbolBits lens i k <+: symbolBits lens j l := by
  intro hprefix
  obtain ⟨hkl, heq⟩ := eq_div_of_msbBits_prefix
    (symbolCode_lt_two_pow hc hi hk (hm k (List.mem_of_getElem? hi)))
    (symbolCode_lt_two_pow hc hj hl (hm l (List.mem_of_getElem? hj))) hprefix
  rcases Nat.eq_or_lt_of_le hkl with rfl | hlt
  · exact hij (symbolCode_injective hi hj (by simpa using heq))
  · exact absurd heq (symbolCode_lt_div hi hk hlt).ne

/-- A sequence that begins at or below y and ends above it crosses it. -/
theorem exists_crossing (f : Nat → Nat) (y m : Nat) (h0 : f 0 ≤ y) (hm : y < f m) :
    ∃ k < m, f k ≤ y ∧ y < f (k + 1) := by
  induction m with
  | zero => omega
  | succ m ih =>
    by_cases h : y < f m
    · obtain ⟨k, hk, hcross⟩ := ih h
      exact ⟨k, by omega, hcross⟩
    · exact ⟨m, by omega, by omega, hm⟩

/-- Complete codes cover the code space: every number of m bits begins with a code. -/
theorem exists_code_div {lens : List Nat} {m x : Nat} (hc : checkComplete lens m = true) (hx : x < 2 ^ m) :
    ∃ k < m, firstCode lens k ≤ x / 2 ^ (m - (k + 1)) ∧
      x / 2 ^ (m - (k + 1)) < firstCode lens k + lens.count (k + 1) := by
  obtain ⟨k, hk, hlo, hhi⟩ := exists_crossing (fun k => 2 ^ (m - k) * firstCode lens k) (2 * x) m
    (by simp [firstCode]) (by
      simp only [Nat.sub_self, firstCode_of_checkComplete hc, Nat.pow_succ]
      omega)
  refine ⟨k, hk, ?_, ?_⟩
  · rw [Nat.le_div_iff_mul_le (Nat.two_pow_pos _)]
    have hpow : 2 ^ (m - k) = 2 ^ (m - (k + 1)) * 2 := by
      rw [← Nat.pow_succ, show (m - (k + 1)).succ = m - k by omega]
    rw [hpow, Nat.mul_right_comm] at hlo
    rw [Nat.mul_comm]
    omega
  · rw [Nat.div_lt_iff_lt_mul (Nat.two_pow_pos _), Nat.mul_comm]
    rw [firstCode, Nat.mul_left_comm] at hhi
    omega

/-- Every string of m bits begins with the code of a symbol. -/
theorem exists_symbolBits {lens : List Nat} {m : Nat} (hc : checkComplete lens m = true) {bs : Bits}
    (hbs : bs.length = m) :
    ∃ sym len, lens[sym]? = some len ∧ len ≠ 0 ∧ symbolBits lens sym len = bs.take len := by
  obtain ⟨x, hx, hbits⟩ := exists_msbBits bs
  rw [hbs] at hx hbits
  obtain ⟨k, hk, hlo, hhi⟩ := exists_code_div hc hx
  have hn : x / 2 ^ (m - (k + 1)) - firstCode lens k < lens.count (k + 1) := by omega
  refine ⟨lens.idxOfNth (k + 1) (x / 2 ^ (m - (k + 1)) - firstCode lens k), k + 1, ?_, by omega, ?_⟩
  · rw [List.getElem?_eq_getElem (List.idxOfNth_lt_length_of_lt_count hn), List.getElem_idxOfNth_eq]
  · rw [symbolBits, symbolCode, List.countBefore_idxOfNth_of_lt_count hn, Nat.add_sub_cancel,
      Nat.add_sub_cancel' hlo, ← msbBits_take, Nat.add_sub_cancel' hk, hbits]

/-! ## The tree of complete codes -/

/-- The symbols below n stand in t at the ends of their codes. -/
def HoldsCodes (lens : List Nat) (n : Nat) (t : Tree) : Prop :=
  ∀ sym len, sym < n → lens[sym]? = some len → len ≠ 0 → t.symbolAt (symbolBits lens sym len) = some sym

/-- next holds, for each length, its first code not given to a symbol below n. -/
def NextAfter (lens : List Nat) (m n : Nat) (next : List Nat) : Prop :=
  ∀ k < m, next[k]? = some (firstCode lens k + lens.countBefore (k + 1) n)

theorem holdsCodes_insert {lens : List Nat} {m n len : Nat} {t : Tree} (hc : checkComplete lens m = true)
    (hm : ∀ l ∈ lens, l ≤ m) (hn : lens[n]? = some len) (h0 : len ≠ 0) (h : HoldsCodes lens n t) :
    HoldsCodes lens (n + 1) (Tree.insert n (symbolCode lens n len) len t) := by
  intro sym l hsym hl hl0
  rcases Nat.lt_succ_iff_lt_or_eq.mp hsym with hlt | rfl
  · rw [symbolAt_insert_other]
    · exact h sym l hlt hl hl0
    · exact symbolBits_not_prefix hc hm hn hl h0 hl0 hlt.ne'
    · exact symbolBits_not_prefix hc hm hl hn hl0 h0 hlt.ne
  · obtain rfl : len = l := by rw [hn] at hl; exact Option.some.inj hl
    exact symbolAt_insert_same sym _ _ t

theorem countBefore_succ {lens : List Nat} {n len : Nat} (hn : lens[n]? = some len) (l : Nat) :
    lens.countBefore l (n + 1) = lens.countBefore l n + if len = l then 1 else 0 := by
  simp [List.countBefore_eq_count_take, List.take_add_one, hn, List.count_singleton]

/-- BuildTree's loop gives every symbol its code, and the tree it makes holds them all. -/
theorem assignCodes_holdsCodes {lens : List Nat} {m : Nat} (hc : checkComplete lens m = true)
    (hm : ∀ l ∈ lens, l ≤ m) (rest next : List Nat) (n : Nat) (t : Tree) (hrest : rest = lens.drop n)
    (hnext : NextAfter lens m n next) (h : HoldsCodes lens n t) :
    HoldsCodes lens lens.length (assignCodes rest next n t) := by
  induction rest generalizing next n t with
  | nil =>
    have hlen : lens.length ≤ n := List.drop_eq_nil_iff.mp hrest.symm
    exact fun sym len hsym => h sym len (by omega)
  | cons len rest ih =>
    have hn : lens[n]? = some len := by
      rw [← List.head?_drop, ← hrest, List.head?_cons]
    have htail : rest = lens.drop (n + 1) := by
      rw [← List.tail_drop, ← hrest, List.tail_cons]
    have hlen := hm len (List.mem_of_getElem? hn)
    unfold assignCodes
    split
    · rename_i hzero
      refine ih next (n + 1) t htail (fun k hk => ?_) fun sym l hsym hl hl0 => ?_
      · rw [countBefore_succ hn, if_neg (by omega)]
        exact hnext k hk
      · have hne : sym ≠ n := by
          rintro rfl
          rw [hn] at hl
          exact hl0 (by rw [← Option.some.inj hl, hzero])
        exact h sym l (by omega) hl hl0
    · rename_i h0
      have hcode : (next[len - 1]?).getD 0 = symbolCode lens n len := by
        rw [hnext (len - 1) (by omega), show len - 1 + 1 = len by omega]
        rfl
      dsimp only
      rw [hcode]
      refine ih _ (n + 1) _ htail (fun k hk => ?_) (holdsCodes_insert hc hm hn h0 h)
      rw [countBefore_succ hn, List.getElem?_set]
      have hk' := hnext k hk
      by_cases hlk : len - 1 = k
      · obtain rfl : len = k + 1 := by omega
        rw [if_pos hlk, if_pos rfl, if_pos (by rw [hlk]; exact (List.getElem?_eq_some_iff.mp hk').1)]
        rfl
      · rw [if_neg hlk, if_neg (by omega)]
        exact hk'

/-- The tree of complete codes holds every symbol at the end of its code (40_huffman.md rule R202, rule R206). -/
theorem assignCodes_symbolAt {lens : List Nat} {m : Nat} (hc : checkComplete lens m = true)
    (hm : ∀ l ∈ lens, l ≤ m) :
    HoldsCodes lens lens.length (assignCodes lens (nextCodes lens m) 0 (.node .null .null)) := by
  have hnone : HoldsCodes lens 0 (.node .null .null) := fun sym _ hsym => absurd hsym (Nat.not_lt_zero sym)
  refine assignCodes_holdsCodes hc hm lens _ 0 _ rfl (fun k hk => ?_) hnone
  simpa using nextCodes_getElem? lens hk

theorem assignCodes_isFull {lens : List Nat} {m : Nat} (hc : checkComplete lens m = true) (hm : ∀ l ∈ lens, l ≤ m) :
    (assignCodes lens (nextCodes lens m) 0 (.node .null .null)).isFull = true := by
  refine isFull_of_covered m _ fun bs hbs => ?_
  obtain ⟨sym, len, hsym, h0, hbits⟩ := exists_symbolBits hc hbs
  refine ⟨len, ?_⟩
  rw [← hbits, assignCodes_symbolAt hc hm sym len (List.getElem?_eq_some_iff.mp hsym).1 hsym h0]
  rfl

/-- Settles O14: no complete code begins another, so that no insertion spoils an earlier one, and every string of
MAXLEN bits begins with a code, so that no child is left absent. -/
theorem builtTreesAreFull : Obligations.BuiltTreesAreFull := by
  unfold Obligations.BuiltTreesAreFull
  intro lens m t hm h
  refine ⟨?_, buildTree_symsBelow h⟩
  unfold buildTree at h
  split at h
  · cases h; exact .inl rfl
  · cases h; exact .inr rfl
  · split at h
    · rename_i hc
      cases h
      exact .inr (assignCodes_isFull hc hm)
    · cases h

end Sys2Proof.Machine
end

section
/-! What a step can do, said once for every state, and the invariants that follow: the cursor, the output's count, the
error fields, the parameters, the wrapped flag (10_state.md rule R32 to rule R46). -/

namespace Sys2Proof.Machine

/-! ## The cases of a step -/

/-- All an engine step can do: that of its command. -/
def EngineStep (s t : State) : Prop := (s.phase ≠ .dfRow ∧ InflateStep s t) ∨ (s.phase = .dfRow ∧ RowStep s t)

/-- All a step can do: nothing, a move of the host, which while a command runs is a reset, or a step of the engine. -/
inductive StepCase (s t : State) : Prop where
  | idle (ht : t = s)
  | host (m : HostMove) (rest : List HostMove) (hh : s.host = m :: rest) (hb : s.status = .busy → m = .reset)
      (h : HostStep m { s with host := rest } t)
  | engine (hb : s.status = .busy) (hr : s.host.head? ≠ some .reset) (h : EngineStep s.afterPassiveMove t)

@[simp] theorem afterPassiveMove_phase (s : State) : s.afterPassiveMove.phase = s.phase := by rw [afterPassiveMove_eq]

@[simp] theorem afterPassiveMove_status (s : State) : s.afterPassiveMove.status = s.status := by
  rw [afterPassiveMove_eq]

@[simp] theorem afterPassiveMove_winWrapped (s : State) : s.afterPassiveMove.winWrapped = s.winWrapped := by
  rw [afterPassiveMove_eq]

@[simp] theorem afterPassiveMove_pc (s : State) : s.afterPassiveMove.pc = s.pc := by
  rw [afterPassiveMove_eq]; rfl

theorem running_engineStep {s t : State} (hb : s.status = .busy) (hr : s.host.head? ≠ some .reset)
    (h : step s = .next t) : EngineStep s.afterPassiveMove t := by
  simpa only [EngineStep, afterPassiveMove_phase] using running_step hb hr h

theorem step_cases {s t : State} (h : step s = .next t) : StepCase s t := by
  by_cases hb : s.status = .busy
  · by_cases hr : s.host.head? = some .reset
    · obtain ⟨rest, hh, ht⟩ := reset_step hr h
      exact .host .reset rest hh (fun _ => rfl) (.reset rfl ht)
    · exact .engine hb hr (running_engineStep hb hr h)
  · rcases idle_step_cases hb h with ⟨_, ht⟩ | ⟨m, rest, hh, hm⟩
    · exact .idle ht
    · exact .host m rest hh (fun hb' => absurd hb' hb) hm

/-- A property that does not depend on the host's moves, kept by the host's moves and by the engine, is kept by every
step. -/
theorem step_keeps {P : State → Prop} (hmoves : ∀ s host, P s → P { s with host := host })
    (hhost : ∀ m s t, (s.status = .busy → m = .reset) → HostStep m s t → P s → P t)
    (hengine : ∀ s t, s.status = .busy → EngineStep s t → P s → P t)
    (s t : State) (hs : P s) (h : step s = .next t) : P t := by
  cases step_cases h with
  | idle ht => exact ht ▸ hs
  | host m rest hh hb hm => exact hhost m { s with host := rest } t hb hm (hmoves s rest hs)
  | engine hb hr he =>
    refine hengine _ t (by simpa using hb) he ?_
    rw [afterPassiveMove_eq]
    exact hmoves s _ hs

/-! ## The frame of an engine step -/

/-- The end of a row writes PREV_ROW and either ROW_Y or the command's end. -/
theorem rowEnd_cases (s : State) :
    rowEnd s = { s with prevRow := s.curRow, rowY := s.rowY + 1 } ∨
      rowEnd s = complete { s with prevRow := s.curRow } := by
  unfold rowEnd
  dsimp only
  split
  · exact .inl rfl
  · exact .inr rfl

@[simp] theorem rowEnd_pc (s : State) : (rowEnd s).pc = s.pc := by
  rcases rowEnd_cases s with h | h <;> (rw [h]; rfl)

@[simp] theorem rowEnd_inLen (s : State) : (rowEnd s).inLen = s.inLen := by
  rcases rowEnd_cases s with h | h <;> simp [h]

@[simp] theorem rowEnd_bitPos (s : State) : (rowEnd s).bitPos = s.bitPos := by
  rcases rowEnd_cases s with h | h <;> simp [h]

theorem keeps_rows (s : State) (y : BitVec 32) : Keeps s { s with prevRow := s.curRow, rowY := y } :=
  ⟨rfl, rfl, rfl, rfl, rfl, rfl, rfl, rfl, rfl, rfl, rfl, le_rfl, id, fun _ _ h => h, id,
    fun ⟨hin, hwin, _, hcur⟩ => ⟨hin, hwin, hcur, hcur⟩, id⟩

/-- All a running command's step can do, as far as its frame goes: it goes on, completes or takes an error. -/
inductive FrameStep (s t : State) : Prop where
  | goes (h : Keeps s t)
  | completes (u : State) (h : Keeps s u) (ht : t = complete u)
  | error (e : Err) (u : State) (h : Keeps s u) (ht : t = errorEntry e u)

theorem EngineStep.frame {s t : State} (h : EngineStep s t) : FrameStep s t := by
  rcases h with ⟨_, h⟩ | ⟨_, h⟩
  · cases h with
    | error e u h ht => exact .error e u h.keeps ht
    | goes h _ _ => exact .goes h.keeps
    | ends _ ht => exact .completes s (.refl s) ht
  · cases h with
    | error e u h ht => exact .error e u h.keeps ht
    | row u h _ ht =>
      rcases rowEnd_cases u with hu | hu
      · exact .goes (ht.trans hu ▸ h.keeps.trans (keeps_rows u _))
      · exact .completes _ (h.keeps.trans (keeps_rows u u.rowY)) (ht.trans hu)
    | ends ht => exact .completes s (.refl s) ht

/-! ## The cursor -/

theorem phaseMoves_ne_dfRow {p q : Phase} (h : (p, q) ∈ phaseMoves) : q ≠ .dfRow := by
  rintro rfl
  simp [phaseMoves] at h

theorem cursorWithinInput_of_not_busy {s : State} (h : s.status ≠ .busy) : CursorWithinInput s :=
  fun hb => absurd hb h

theorem host_keeps_cursorWithinInput (m : HostMove) (s t : State) (hb : s.status = .busy → m = .reset)
    (h : HostStep m s t) (hs : CursorWithinInput s) : CursorWithinInput t := by
  cases h with
  | reset _ ht => subst ht; exact cursorWithinInput_of_not_busy nofun
  | command v _ _ ht => subst ht; exact hs
  | inflate _ ht => subst ht; exact fun _ => ⟨Nat.zero_le _, fun _ => rfl⟩
  | defilter _ ht => subst ht; exact fun _ => ⟨Nat.zero_le _, fun _ => rfl⟩
  | illegal _ e ht => subst ht; exact cursorWithinInput_of_not_busy nofun
  | parameters _ hr _ ht =>
    rw [ht]
    exact cursorWithinInput_of_not_busy fun hbusy => hr (hb hbusy)

theorem engine_keeps_cursorWithinInput (s t : State) (hb : s.status = .busy) (h : EngineStep s t)
    (hs : CursorWithinInput s) : CursorWithinInput t := by
  obtain ⟨hpc, hrow⟩ := hs hb
  rcases h with ⟨_, h⟩ | ⟨hp, h⟩
  · cases h with
    | error e u _ ht => subst ht; exact cursorWithinInput_of_not_busy nofun
    | goes h hmove _ => exact fun _ => ⟨h.within.2 hpc, fun hrow => absurd hrow (phaseMoves_ne_dfRow hmove)⟩
    | ends _ ht => subst ht; exact cursorWithinInput_of_not_busy nofun
  · cases h with
    | error e u _ ht => subst ht; exact cursorWithinInput_of_not_busy nofun
    | row u h _ ht =>
      subst ht
      intro _
      rw [rowEnd_pc, rowEnd_inLen, rowEnd_bitPos]
      exact ⟨h.within (hrow hp) hpc, fun _ => h.bitPos.trans (hrow hp)⟩
    | ends ht => subst ht; exact cursorWithinInput_of_not_busy nofun

/-- Settles O50: a start puts the cursor at 0, the engine's reads stop at the input's end, and only a running command
is spoken of. -/
theorem stepKeepsCursorWithinInput : Obligations.StepKeepsCursorWithinInput := by
  unfold Obligations.StepKeepsCursorWithinInput
  exact step_keeps (fun _ _ h => h) host_keeps_cursorWithinInput engine_keeps_cursorWithinInput

/-- Settles O60: a running command's step keeps the frame of the engine's operations, whose cursor only moves
forward. -/
theorem cursorOnlyMovesForward : Obligations.CursorOnlyMovesForward := by
  unfold Obligations.CursorOnlyMovesForward
  intro s t hb hr h
  rw [← afterPassiveMove_pc s]
  cases (running_engineStep hb hr h).frame with
  | goes hk => exact hk.pc
  | completes u hk ht => subst ht; exact hk.pc
  | error e u hk ht => subst ht; exact hk.pc

/-! ## The output's count -/

theorem outputCounted_of_empty {s : State} (hout : s.out = []) (hlen : s.outLen = 0) : OutputCounted s := by
  refine ⟨by rw [hout, hlen]; rfl, fun c _ => ?_⟩
  rw [hlen]
  exact Nat.zero_le c

theorem Keeps.outputCounted {s t : State} (h : Keeps s t) (hs : OutputCounted s) : OutputCounted t := by
  obtain ⟨hlen, hroom⟩ := hs
  refine ⟨h.out hlen, fun c hc => ?_⟩
  rw [h.outCapacity] at hc
  exact h.room c hc (hroom c hc)

theorem host_keeps_outputCounted (m : HostMove) (s t : State) (_ : s.status = .busy → m = .reset)
    (h : HostStep m s t) (hs : OutputCounted s) : OutputCounted t := by
  cases h with
  | reset _ ht => subst ht; exact outputCounted_of_empty rfl rfl
  | command v _ _ ht => subst ht; exact hs
  | inflate _ ht => subst ht; exact outputCounted_of_empty rfl rfl
  | defilter _ ht => subst ht; exact outputCounted_of_empty rfl rfl
  | illegal _ e ht => subst ht; exact outputCounted_of_empty rfl rfl
  | parameters _ _ _ ht => rw [ht]; exact hs

theorem engine_keeps_outputCounted (s t : State) (_ : s.status = .busy) (h : EngineStep s t)
    (hs : OutputCounted s) : OutputCounted t := by
  cases h.frame with
  | goes hk => exact hk.outputCounted hs
  | completes u hk ht => subst ht; exact hk.outputCounted hs
  | error e u _ ht => subst ht; exact outputCounted_of_empty rfl rfl

/-- Settles O51: OUT is emptied with OUT_LEN, and grows with it where OUT_CAPACITY leaves room. -/
theorem stepKeepsOutputCounted : Obligations.StepKeepsOutputCounted := by
  unfold Obligations.StepKeepsOutputCounted
  exact step_keeps (fun _ _ h => h) host_keeps_outputCounted engine_keeps_outputCounted

/-! ## The error fields -/

/-- Every error has a class and a code (60_exceptions.md rule R521 to rule R523). -/
theorem err_named (e : Err) : e.errClass ≠ .none ∧ e.code ≠ 0 := by cases e <;> decide

theorem errorFieldsMatchStatus_errorEntry (e : Err) (s : State) : ErrorFieldsMatchStatus (errorEntry e s) :=
  ⟨fun h => absurd rfl h, fun _ => ⟨(err_named e).1, (err_named e).2, rfl, rfl⟩⟩

theorem errorFieldsMatchStatus_of_zero {s : State} (hstatus : s.status ≠ .error) (hclass : s.errClass = .none)
    (hcode : s.errCode = 0) : ErrorFieldsMatchStatus s :=
  ⟨fun _ => ⟨hclass, hcode⟩, fun h => absurd h hstatus⟩

theorem host_keeps_errorFields (m : HostMove) (s t : State) (_ : s.status = .busy → m = .reset)
    (h : HostStep m s t) (hs : ErrorFieldsMatchStatus s) : ErrorFieldsMatchStatus t := by
  cases h with
  | reset _ ht => subst ht; exact errorFieldsMatchStatus_of_zero nofun rfl rfl
  | command v _ _ ht => subst ht; exact hs
  | inflate _ ht => subst ht; exact errorFieldsMatchStatus_of_zero nofun rfl rfl
  | defilter _ ht => subst ht; exact errorFieldsMatchStatus_of_zero nofun rfl rfl
  | illegal _ e ht => subst ht; exact errorFieldsMatchStatus_errorEntry e _
  | parameters _ _ _ ht => rw [ht]; exact hs

theorem engine_keeps_errorFields (s t : State) (hb : s.status = .busy) (h : EngineStep s t)
    (hs : ErrorFieldsMatchStatus s) : ErrorFieldsMatchStatus t := by
  obtain ⟨hclass, hcode⟩ := hs.1 (by rw [hb]; decide)
  cases h.frame with
  | goes hk =>
    exact errorFieldsMatchStatus_of_zero (by rw [hk.status, hb]; decide) (hk.errClass.trans hclass)
      (hk.errCode.trans hcode)
  | completes u hk ht =>
    subst ht
    exact errorFieldsMatchStatus_of_zero nofun (hk.errClass.trans hclass) (hk.errCode.trans hcode)
  | error e u _ ht => subst ht; exact errorFieldsMatchStatus_errorEntry e u

/-- Settles O53: a command runs with zero error fields, and the error entry alone writes others, with STATUS. -/
theorem stepKeepsErrorFields : Obligations.StepKeepsErrorFields := by
  unfold Obligations.StepKeepsErrorFields
  exact step_keeps (fun _ _ h => h) host_keeps_errorFields engine_keeps_errorFields

/-! ## The wrapped flag -/

theorem EngineStep.wrapped {s t : State} (h : EngineStep s t) (hs : s.winWrapped = 1) : t.winWrapped = 1 := by
  cases h.frame with
  | goes hk => exact hk.wrapped hs
  | completes u hk ht => subst ht; exact hk.wrapped hs
  | error e u hk ht => subst ht; exact hk.wrapped hs

theorem HostStep.wrapped {m : HostMove} {s t : State} (h : HostStep m s t) (hs : s.winWrapped = 1) :
    t.winWrapped = 1 ∨ m = .reset ∨ m = .writeCmd 1 ∨ m = .writeCmd 2 := by
  cases h with
  | reset hm _ => exact .inr (.inl hm)
  | command v _ _ ht => subst ht; exact .inl hs
  | inflate hm _ => exact .inr (.inr (.inl hm))
  | defilter hm _ => exact .inr (.inr (.inr hm))
  | illegal hm _ _ => exact .inr (.inr (.inr hm))
  | parameters _ _ _ ht => rw [ht]; exact .inl hs

/-- Settles O59: the engine's writes only set the flag, and of the host's moves a reset and the two starts clear it. -/
theorem wrappedFlagStaysSet : Obligations.WrappedFlagStaysSet := by
  unfold Obligations.WrappedFlagStaysSet
  intro s t hs h
  cases step_cases h with
  | idle ht => subst ht; exact .inl hs
  | engine _ _ he => exact .inl (he.wrapped (by simpa using hs))
  | host m rest hh hb hm =>
    rw [hh, List.head?_cons]
    have notBusy : ∀ v, m = .writeCmd v → s.status ≠ .busy := by
      rintro v rfl hbusy
      cases hb hbusy
    rcases hm.wrapped hs with hw | hm | hm | hm
    · exact .inl hw
    · exact .inr (.inl (congrArg some hm))
    · exact .inr (.inr ⟨notBusy 1 hm, .inl (congrArg some hm)⟩)
    · exact .inr (.inr ⟨notBusy 2 hm, .inr (congrArg some hm)⟩)

/-! ## The parameters -/

/-- t has the input, the DF fields, the capacity and the host's moves of s. -/
def SameParameters (s t : State) : Prop :=
  t.inMem = s.inMem ∧ t.inLen = s.inLen ∧ t.dfWidth = s.dfWidth ∧ t.dfHeight = s.dfHeight ∧
    t.dfPixelSize = s.dfPixelSize ∧ t.outCapacity = s.outCapacity ∧ t.host = s.host

theorem Keeps.sameParameters {s t : State} (h : Keeps s t) : SameParameters s t :=
  ⟨h.inMem, h.inLen, h.dfWidth, h.dfHeight, h.dfPixelSize, h.outCapacity, h.host⟩

theorem Inflates.sameParameters {f : Format} {s t : State} (h : Inflates f s (.next t)) : SameParameters s t := by
  obtain ⟨r, hr, hleads, _⟩ := h
  cases r with
  | ok a u => cases hr; exact hleads.keeps.sameParameters
  | raise e u => cases hr; exact hleads.keeps.sameParameters
  | stop x => cases hr

theorem RowEnds.sameParameters {s t : State} (h : RowEnds s (.next t)) : SameParameters s t := by
  rcases h with ⟨e, u, ht, hu⟩ | ⟨u, ht, hu⟩
  · cases ht
    exact hu.keeps.sameParameters
  · cases ht
    rcases rowEnd_cases u with he | he <;> rw [he] <;> exact hu.keeps.sameParameters

theorem setCmd_sameParameters (v : BitVec 2) (s : State) : SameParameters s (setCmd v s) :=
  ⟨rfl, rfl, rfl, rfl, rfl, rfl, rfl⟩

theorem startInflate_sameParameters (s : State) : SameParameters s (startInflate s) :=
  ⟨rfl, rfl, rfl, rfl, rfl, rfl, rfl⟩

theorem startDefilter_sameParameters (s : State) : SameParameters s (startDefilter s) :=
  ⟨rfl, rfl, rfl, rfl, rfl, rfl, rfl⟩

/-- A part of a command instruction that keeps the parameters, as a host write of CMD. -/
theorem hostWriteCmd_sameParameters {r : Res Unit} {s t : State} (hr : r.Leads (SameParameters s))
    (h : hostWriteCmd r s = .next t) : SameParameters s t := by
  unfold hostWriteCmd at h
  split at h
  · cases h
  · cases r with
    | ok a u => cases h; exact hr
    | raise e u => cases h; exact hr
    | stop x => cases h

theorem defilterChecks_sameParameters (s : State) : (defilterChecks (startDefilter s)).Leads (SameParameters s) := by
  have hstart := startDefilter_sameParameters s
  unfold defilterChecks
  split
  · exact hstart
  · split
    · exact hstart
    · exact hstart

theorem exec_cmd_sameParameters {i : Instr} {s t : State} (hi : (encode i).1 = .cmd) (h : exec i s = .next t) :
    SameParameters s t := by
  cases i
  case cmdNone => exact hostWriteCmd_sameParameters (r := .ok () _) (setCmd_sameParameters 0 s) h
  case cmdInflate => exact hostWriteCmd_sameParameters (r := .ok () _) (startInflate_sameParameters s) h
  case cmdDefilter => exact hostWriteCmd_sameParameters (defilterChecks_sameParameters s) h
  case cmdReserved => exact hostWriteCmd_sameParameters (r := .ok () _) (setCmd_sameParameters 3 s) h
  all_goals cases hi

/-- Settles O58, by the format of the instruction: each format's meanings keep the parameters. -/
theorem instructionsNeverWriteParameters : Obligations.InstructionsNeverWriteParameters := by
  unfold Obligations.InstructionsNeverWriteParameters
  intro i s t h
  by_cases hcmd : (encode i).1 = .cmd
  · exact exec_cmd_sameParameters hcmd h
  · by_cases hrow : (encode i).1 = .row
    · exact RowEnds.sameParameters (h ▸ exec_row_ends i s hrow)
    · exact Inflates.sameParameters (h ▸ exec_inflates i s hrow hcmd)

/-! ## Reset -/

/-- A tree of complete lengths is the one the ROM holds. -/
theorem buildTree_romTree {lens : List Nat} (h : checkComplete lens Config.maxLenLitDist = true) :
    buildTree lens Config.maxLenLitDist = .ok (romTree lens) := by
  unfold romTree
  cases hb : buildTree lens Config.maxLenLitDist with
  | ok t => rfl
  | error e =>
    unfold buildTree at hb
    split at hb
    · cases hb
    · cases hb
    · rw [if_pos h] at hb
      cases hb

theorem buildTree_staticLit : buildTree staticLitLens Config.maxLenLitDist = .ok staticLitTree := by
  unfold staticLitTree
  exact buildTree_romTree (by decide +kernel)

theorem buildTree_staticDist : buildTree staticDistLens Config.maxLenLitDist = .ok staticDistTree := by
  unfold staticDistTree
  exact buildTree_romTree (by decide +kernel)

/-- Settles O1: the table's values are those of State.reset, an empty memory reads 0 everywhere, and the ROM trees are
built of complete lengths. -/
theorem powerOnResetValues : Obligations.PowerOnResetValues := by
  unfold Obligations.PowerOnResetValues
  have hclen : ∀ j (h : j < 19), State.reset.clenLens[j] = 0 := fun j h => Vector.getElem_replicate h
  have hlens : ∀ j (h : j < 320), State.reset.lens[j] = 0 := fun j h => Vector.getElem_replicate h
  have hmem : ∀ a, Memory.read [] a = 0 := read_nil
  refine ⟨rfl, rfl, rfl, rfl, rfl, rfl, rfl, rfl, rfl, rfl, rfl, rfl, rfl, rfl, rfl, rfl, rfl, rfl, rfl, rfl, rfl,
    hclen, hlens, rfl, rfl, rfl, hmem, rfl, rfl, rfl, rfl, rfl, rfl, hmem, hmem, buildTree_staticLit,
    buildTree_staticDist⟩

theorem windowHoldsOutput_of_not_busy {s : State} (h : s.status ≠ .busy) : WindowHoldsOutput s :=
  fun hb => absurd hb h

theorem nothingStops_reset : NothingStops State.reset :=
  ⟨nofun, by decide, by decide, rfl, rfl, rfl, nofun⟩

/-- Settles O48: no command runs, the memories and the output are empty, the trees are NULL. -/
theorem resetMeetsInvariants : Obligations.ResetMeetsInvariants := by
  unfold Obligations.ResetMeetsInvariants
  have hidle : State.reset.status ≠ .busy := by decide
  exact ⟨⟨wf_nil, wf_nil, wf_nil, wf_nil⟩, cursorWithinInput_of_not_busy hidle, outputCounted_of_empty rfl rfl,
    windowHoldsOutput_of_not_busy hidle, errorFieldsMatchStatus_of_zero nofun rfl rfl, nothingStops_reset⟩

end Sys2Proof.Machine
end

section
/-! The invariants of the memories and of the window (20_memory.md rule R95, rule R104), from the cases of a step. -/

namespace Sys2Proof.Machine

/-! ## The canonical form -/

theorem host_keeps_memoriesCanonical (m : HostMove) (s t : State) (_ : s.status = .busy → m = .reset)
    (h : HostStep m s t) (hs : MemoriesCanonical s) : MemoriesCanonical t := by
  obtain ⟨hin, hwin, hprev, hcur⟩ := hs
  cases h with
  | reset _ ht => subst ht; exact ⟨wf_nil, wf_nil, wf_nil, wf_nil⟩
  | command v _ _ ht => subst ht; exact ⟨hin, hwin, hprev, hcur⟩
  | inflate _ ht => subst ht; exact ⟨hin, wf_nil, hprev, hcur⟩
  | defilter _ ht => subst ht; exact ⟨hin, wf_nil, hprev, hcur⟩
  | illegal _ e ht => subst ht; exact ⟨hin, wf_nil, hprev, hcur⟩
  | parameters _ _ hm ht => rw [ht]; exact ⟨hm hin, hwin, hprev, hcur⟩

theorem engine_keeps_memoriesCanonical (s t : State) (_ : s.status = .busy) (h : EngineStep s t)
    (hs : MemoriesCanonical s) : MemoriesCanonical t := by
  cases h.frame with
  | goes hk => exact hk.memories hs
  | completes u hk ht => subst ht; exact hk.memories hs
  | error e u hk ht => subst ht; exact hk.memories hs

/-- Settles O49: a host move empties a memory or writes IN by the canonical store, and the engine's frame keeps all
four. -/
theorem stepKeepsMemoriesCanonical : Obligations.StepKeepsMemoriesCanonical := by
  unfold Obligations.StepKeepsMemoriesCanonical
  exact step_keeps (fun _ _ h => h) host_keeps_memoriesCanonical engine_keeps_memoriesCanonical

/-! ## The window -/

/-- The window's registers agree with OUT: what WindowHoldsOutput says while INFLATE runs (20_memory.md rule R104). -/
def WindowMatchesOut (s : State) : Prop :=
  s.winCur.toNat = s.out.length % 32768 ∧
  (s.winWrapped = 1 ↔ 32768 ≤ s.out.length) ∧
  ∀ k, 1 ≤ k → k ≤ s.out.length → k ≤ 32768 →
    Memory.read s.win ((s.winCur.toNat + 32768 - k) % 32768) = s.out.getD (s.out.length - k) 0

theorem windowHoldsOutput_iff (s : State) :
    WindowHoldsOutput s ↔ (s.status = .busy → s.phase ≠ .dfRow → WindowMatchesOut s) := Iff.rfl

theorem windowHoldsOutput_of_dfRow {s : State} (h : s.phase = .dfRow) : WindowHoldsOutput s :=
  fun _ hp => absurd h hp

/-- Where nothing was emitted, as at the start of a command (10_state.md rule R52). -/
theorem windowMatchesOut_of_empty {s : State} (hout : s.out = []) (hcur : s.winCur = 0) (hwrapped : s.winWrapped = 0) :
    WindowMatchesOut s := by
  refine ⟨by simp [hout, hcur], by simp [hout, hwrapped], fun k hk hlen _ => ?_⟩
  rw [hout, List.length_nil] at hlen
  omega

/-- The k-th last byte of OUT is one of the run emitted last, or an older one whose slot the run does not reach. -/
theorem Emits.windowMatchesOut {s t : State} (h : Emits s t) (hwf : Memory.wf s.win) (hs : WindowMatchesOut s) :
    WindowMatchesOut t := by
  obtain ⟨bs, hout, hwin, hcur, hwrapped⟩ := h
  obtain ⟨scur, swrapped, sread⟩ := hs
  have tcur : t.winCur.toNat = (s.winCur.toNat + bs.length) % 32768 := by rw [hcur, winAppendData_cur]
  have tlen : t.out.length = s.out.length + bs.length := by rw [hout, List.length_append]
  refine ⟨by omega, ?flag, fun k hk hlen hsize => ?byte⟩
  case flag =>
    rw [hwrapped, winAppendData_wrapped, swrapped, tlen]
    omega
  case byte =>
    rw [hwin, hout]
    by_cases hnew : k ≤ bs.length
    · have hslot : (t.winCur.toNat + 32768 - k) % 32768 = (s.winCur.toNat + (bs.length - k)) % 32768 := by omega
      have hindex : (s.out ++ bs).length - k = s.out.length + (bs.length - k) := by
        rw [List.length_append]; omega
      rw [hslot, winAppendData_read bs hwf _ (by omega) (by omega), hindex,
        List.getD_append_right _ _ _ _ (by omega), Nat.add_sub_cancel_left]
    · have hslot : (t.winCur.toNat + 32768 - k) % 32768 =
          (s.winCur.toNat + 32768 - (k - bs.length)) % 32768 := by omega
      have hindex : (s.out ++ bs).length - k = s.out.length - (k - bs.length) := by
        rw [List.length_append]; omega
      rw [hslot, winAppendData_read_other bs hwf _ (fun i hi => by omega),
        sread (k - bs.length) (by omega) (by omega) (by omega), hindex, List.getD_append _ _ _ _ (by omega)]

theorem host_keeps_windowHoldsOutput (m : HostMove) (s t : State) (hb : s.status = .busy → m = .reset)
    (h : HostStep m s t) (hs : WindowHoldsOutput s) : WindowHoldsOutput t := by
  cases h with
  | reset _ ht => subst ht; exact windowHoldsOutput_of_not_busy nofun
  | command v _ _ ht => subst ht; exact hs
  | inflate _ ht => subst ht; exact fun _ _ => windowMatchesOut_of_empty rfl rfl rfl
  | defilter _ ht => subst ht; exact windowHoldsOutput_of_dfRow rfl
  | illegal _ e ht => subst ht; exact windowHoldsOutput_of_not_busy nofun
  | parameters _ hr _ ht =>
    rw [ht]
    exact windowHoldsOutput_of_not_busy fun hbusy => hr (hb hbusy)

theorem engine_keeps_windowHoldsOutput (s t : State) (hb : s.status = .busy) (h : EngineStep s t)
    (hm : MemoriesCanonical s) (hs : WindowHoldsOutput s) : WindowHoldsOutput t := by
  obtain ⟨_, hwin, _, _⟩ := hm
  rcases h with ⟨hp, h⟩ | ⟨hp, h⟩
  · cases h with
    | error e u _ ht => subst ht; exact windowHoldsOutput_of_not_busy nofun
    | goes h _ _ => exact fun _ _ => h.emits.windowMatchesOut hwin (hs hb hp)
    | ends _ ht => subst ht; exact windowHoldsOutput_of_not_busy nofun
  · cases h with
    | error e u _ ht => subst ht; exact windowHoldsOutput_of_not_busy nofun
    | row u h _ ht =>
      rcases rowEnd_cases u with hu | hu
      · rw [ht, hu]; exact windowHoldsOutput_of_dfRow (h.phase.trans hp)
      · rw [ht, hu]; exact windowHoldsOutput_of_not_busy nofun
    | ends ht => subst ht; exact windowHoldsOutput_of_not_busy nofun

/-- Settles O52, as one invariant with the canonical form of the memories, which a read after a write needs. -/
theorem stepKeepsWindowHoldsOutput : Obligations.StepKeepsWindowHoldsOutput := by
  unfold Obligations.StepKeepsWindowHoldsOutput
  intro s t hm hw h
  refine (step_keeps (P := fun u => MemoriesCanonical u ∧ WindowHoldsOutput u) (fun _ _ h => h) ?host ?engine s t
    ⟨hm, hw⟩ h).2
  case host =>
    exact fun m u v hb hstep ⟨um, uw⟩ =>
      ⟨host_keeps_memoriesCanonical m u v hb hstep um, host_keeps_windowHoldsOutput m u v hb hstep uw⟩
  case engine =>
    exact fun u v hb hstep ⟨um, uw⟩ =>
      ⟨engine_keeps_memoriesCanonical u v hb hstep um, engine_keeps_windowHoldsOutput u v hb hstep um uw⟩

end Sys2Proof.Machine
end

section
/-! The operations of the cursor and of OUT (20_memory.md rule R84 to rule R92), from their laws. -/

namespace Sys2Proof.Machine

/-- Settles O7: both outcomes are laws of GetBits, for every n. -/
theorem getBitsReadsField : Obligations.GetBitsReadsField := by
  unfold Obligations.GetBitsReadsField
  intro s n _
  exact ⟨getBits_ok, fun hn h => ⟨_, getBits_exhausted hn h⟩⟩

theorem alignToByte_of_aligned {s : State} (h : s.bitPos = 0) : alignToByte s = s := by
  rw [alignToByte, if_pos h]

/-- Two bytes as a little-endian 16-bit field (20_memory.md rule R90). -/
theorem toNat_le16 (hi lo : Byte) : (hi ++ lo).toNat = lo.toNat + 256 * hi.toNat := by
  rw [BitVec.toNat_append, Nat.shiftLeft_eq, Nat.mul_comm, ← Nat.two_pow_add_eq_or_of_lt lo.isLt, Nat.add_comm]

/-- Settles O8. -/
theorem alignThenLittleEndian : Obligations.AlignThenLittleEndian := by
  unfold Obligations.AlignThenLittleEndian
  exact ⟨fun s => ⟨alignToByte_eq s, alignToByte_of_aligned⟩,
    fun s k hk h => ⟨_, readLe16_ok hk h, toNat_le16 _ _⟩⟩

/-- OutAppend below the bound (20_memory.md rule R91). -/
theorem outAppend_below {s : State} (b : Byte) (h : s.outCapacity ≠ some s.outLen) :
    outAppend b s = .ok () { s with out := s.out ++ [b], outLen := s.outLen + 1 } := by
  rw [outAppend, if_neg h]

/-- Settles O9, by the two branches of OutAppend. -/
theorem outAppendAppendsOrOverflows : Obligations.OutAppendAppendsOrOverflows := by
  unfold Obligations.OutAppendAppendsOrOverflows
  exact fun b _ => ⟨outAppend_below b, outAppend_overflow b⟩

end Sys2Proof.Machine
end

section
/-! Where the input or OUT's room ends inside an instruction (20_memory.md rule R87, rule R92): the operands after its
word, and the loops that move bytes from IN to OUT. -/

namespace Sys2Proof.Machine

/-! ## Raising -/

/-- A part that raises e. -/
def Res.Raises {α : Type} (e : Err) (r : Res α) : Prop := ∃ u, r = .raise e u

theorem raises_raise {α : Type} (e : Err) (s : State) : (Res.raise e s : Res α).Raises e := ⟨s, rfl⟩

/-- Nothing runs after a raise (60_exceptions.md rule R520). -/
theorem Res.Raises.bind {α β : Type} {e : Err} {r : Res α} (h : r.Raises e) (f : α → State → Res β) :
    (r.bind f).Raises e := by
  obtain ⟨u, rfl⟩ := h
  exact raises_raise e u

theorem Res.Raises.finish {e : Err} {r : Res Unit} (h : r.Raises e) : ∃ u, r.finish = .next (errorEntry e u) := by
  obtain ⟨u, rfl⟩ := h
  exact ⟨u, rfl⟩

theorem getBits_raises {n : Nat} {s : State} (hn : 0 < n) (h : ¬ s.hasBits n) :
    (getBits n s).Raises .inputExhausted := ⟨_, getBits_exhausted hn h⟩

theorem readByte_raises {s : State} (h : s.inLen ≤ s.bytePos) : (readByte s).Raises .inputExhausted := by
  rw [readByte, if_pos h]
  exact raises_raise _ _

/-- s with the cursor one byte on. -/
def State.skipByte (s : State) : State := { s with bytePos := s.bytePos + 1 }

theorem readByte_ok {s : State} (h : s.bytePos < s.inLen) :
    readByte s = .ok (Memory.read s.inMem s.bytePos) s.skipByte := by
  rw [readByte, if_neg (by omega)]
  rfl

/-- Emit below the bound (00_scope.md rule R13). -/
theorem emit_below {s : State} (b : Byte) (h : s.outCapacity ≠ some s.outLen) :
    emit b s = .ok () (emitted [b] s) := by
  rw [emit, outAppend_below b h]
  rfl

/-- A 16-bit field that the input's end cuts. -/
theorem readLe16_raises {s : State} (h : s.inLen < s.bytePos + 2) : (readLe16 s).Raises .inputExhausted := by
  unfold readLe16
  by_cases h1 : s.inLen ≤ s.bytePos
  · exact (readByte_raises h1).bind _
  · rw [readByte_ok (by omega), bind_ok]
    exact (readByte_raises (by show s.inLen ≤ s.bytePos + 1; omega)).bind _

/-! ## The rows of the tables -/

theorem exec_lengthRow : ∀ p ∈ lengthRows, ∀ s, exec p.1 s = (backRefLength p.2.1 s).finish := by
  intro p hp s
  fin_cases hp <;> rfl

theorem lext_lengthRow : ∀ p ∈ lengthRows, lext p.2.1 = p.2.2.1 := by decide

theorem exec_distRow : ∀ p ∈ distRows, ∀ s, exec p.1 s = (backRefDistance p.2.1 s).finish := by
  intro p hp s
  fin_cases hp <;> rfl

theorem dext_distRow : ∀ p ∈ distRows, dext p.2.1 = p.2.2.1 := by decide

theorem dbase_distRow : ∀ p ∈ distRows, dbase p.2.1 = p.2.2.2 := by decide

/-- The largest distance of a row is at most the window's size (43_symbol_loop.md rule R328). -/
theorem distance_le_distRow : ∀ p ∈ distRows, p.2.2.2 + 2 ^ p.2.2.1 ≤ 32769 := by decide

theorem exec_filterRow : ∀ p ∈ filterRows, ∀ s, exec p.1 s = (filterRow p.2.1 p.2.2 s).finish := by
  intro p hp s
  fin_cases hp <;> rfl

/-! ## Back-references -/

/-- MATCH_DIST where the extra bits are left (43_symbol_loop.md rule R327). -/
theorem readMatchDist_ok {sym : Nat} {s : State} (h : dext sym = 0 ∨ s.hasBits (dext sym)) :
    readMatchDist sym s = .ok () { s.atBit (s.pc + dext sym) with
      matchDist := BitVec.ofNat 16 (dbase sym + s.fieldAt s.pc (dext sym)) } := by
  rw [readMatchDist, getBits_ok h, bind_ok]

/-- A distance instruction whose extra bits are left is a copy from its distance (43_symbol_loop.md rule R329). -/
theorem backRefDistance_eq {sym : Nat} {s : State} (h : dext sym = 0 ∨ s.hasBits (dext sym)) :
    backRefDistance sym s =
      writeToObject (BitVec.ofNat 16 (dbase sym + s.fieldAt s.pc (dext sym))) s.matchLen.toNat
        { s.atBit (s.pc + dext sym) with
          matchDist := BitVec.ofNat 16 (dbase sym + s.fieldAt s.pc (dext sym)), distNext := false } := by
  rw [backRefDistance, readMatchDist_ok (s := { s with distNext := false }) h, bind_ok,
    fieldAt_congr (s := s) (t := { s with distNext := false }) rfl]
  rfl

theorem backRefLength_exhausted {sym : Nat} {s : State} (htree : s.distTree ≠ .null) (hpos : 0 < lext sym)
    (h : ¬ s.hasBits (lext sym)) :
    backRefLength sym s = .raise .inputExhausted (s.atBit (max s.pc (8 * s.inLen))) := by
  rw [backRefLength, if_neg htree, readMatchLen, getBits_exhausted hpos h]
  rfl

theorem backRefDistance_exhausted {sym : Nat} {s : State} (hpos : 0 < dext sym) (h : ¬ s.hasBits (dext sym)) :
    backRefDistance sym s =
      .raise .inputExhausted { s.atBit (max s.pc (8 * s.inLen)) with distNext := false } := by
  rw [backRefDistance, readMatchDist, getBits_exhausted (s := { s with distNext := false }) hpos h]
  rfl

theorem copyBytes_overflow (d : BitVec 16) {n c : Nat} {s : State} (hc : s.outCapacity = some c) (hle : s.outLen ≤ c)
    (hlt : c < s.outLen + n) : (copyBytes d n s).Raises .outputOverflow := by
  rcases copyBytes_cases d n s with ⟨bs, hlen, h⟩ | ⟨bs, h⟩
  · have hgrows := copyBytes_grows d n s
    rw [h] at hgrows
    have hroom := hgrows.keeps.room c hc hle
    rw [emitted_outLen] at hroom
    omega
  · exact ⟨_, h⟩

/-- A valid back-reference that OUT has no room for (44_window.md rule R406). -/
theorem writeToObject_overflow {d : BitVec 16} {n c : Nat} {s : State}
    (hv : s.winWrapped = 1 ∨ d.toNat ≤ s.winCur.toNat) (hc : s.outCapacity = some c) (hle : s.outLen ≤ c)
    (hlt : c < s.outLen + n) : (writeToObject d n s).Raises .outputOverflow := by
  rw [writeToObject, if_pos (by simpa [winValid] using hv)]
  exact copyBytes_overflow d hc hle hlt

/-! ## Loops from IN to OUT -/

/-- How r ends where it moves n bytes from IN to OUT, one after the other from s on, and one of the two is too short. -/
def EndsShort (n : Nat) (s : State) (r : Res Unit) : Prop :=
  (0 < n → s.inLen < s.bytePos + n → s.hasRoom n → r.Raises .inputExhausted) ∧
  (∀ c, s.bytePos + n ≤ s.inLen → s.outCapacity = some c → s.outLen ≤ c → c < s.outLen + n →
    r.Raises .outputOverflow)

theorem endsShort_zero (s : State) (r : Res Unit) : EndsShort 0 s r :=
  ⟨fun h => absurd h (Nat.lt_irrefl 0), fun _ _ _ _ _ => by omega⟩

/-- One round of such a loop: the byte is missing, or has no room, or the loop goes on from a state t after it. -/
theorem endsShort_succ {n : Nat} {s t : State} {r r' : Res Unit}
    (hin : s.inLen ≤ s.bytePos → r.Raises .inputExhausted)
    (hout : s.bytePos < s.inLen → s.outCapacity = some s.outLen → r.Raises .outputOverflow)
    (hrest : s.bytePos < s.inLen → s.outCapacity ≠ some s.outLen → r = r')
    (hinLen : t.inLen = s.inLen) (hbytePos : t.bytePos = s.bytePos + 1) (hcap : t.outCapacity = s.outCapacity)
    (houtLen : t.outLen = s.outLen + 1) (ht : EndsShort n t r') : EndsShort (n + 1) s r := by
  obtain ⟨tin, tout⟩ := ht
  constructor
  · intro _ hshort hroom
    by_cases hend : s.inLen ≤ s.bytePos
    · exact hin hend
    · have hnotFull : s.outCapacity ≠ some s.outLen := fun hc => by have := hroom _ hc; omega
      rw [hrest (by omega) hnotFull]
      refine tin (by omega) (by omega) fun c hc => ?_
      have := hroom c (hcap ▸ hc)
      omega
  · intro c hlong hc hle hlt
    by_cases hfull : s.outCapacity = some s.outLen
    · exact hout (by omega) hfull
    · have hne : s.outLen ≠ c := fun h => hfull (h ▸ hc)
      rw [hrest (by omega) hfull]
      exact tout c (by omega) (hcap.trans hc) (by omega) (by omega)

theorem copyStored_succ {n : Nat} {s : State} (h : s.bytePos < s.inLen) :
    copyStored (n + 1) s = (emit (Memory.read s.inMem s.bytePos) s.skipByte).bind fun _ s =>
      copyStored n { s with storedRemain := s.storedRemain - 1 } := by
  rw [copyStored, readByte_ok h, bind_ok]

/-- The state after one stored byte was moved (41_block_dispatch.md rule R247). -/
def storedByteDone (s : State) : State :=
  { emitted [Memory.read s.inMem s.bytePos] s.skipByte with storedRemain := s.storedRemain - 1 }

theorem copyStored_endsShort (n : Nat) (s : State) : EndsShort n s (copyStored n s) := by
  induction n generalizing s with
  | zero => exact endsShort_zero s _
  | succ n ih =>
    refine endsShort_succ (t := storedByteDone s) (fun h => (readByte_raises h).bind _) (fun h hfull => ?full)
      (fun h hroom => ?room) rfl rfl rfl rfl (ih (storedByteDone s))
    case full =>
      rw [copyStored_succ h, emit_overflow (s := s.skipByte) _ hfull]
      exact raises_raise _ _
    case room =>
      rw [copyStored_succ h, emit_below (s := s.skipByte) _ hroom]
      rfl

/-- Byte i of a row, reconstructed (45_defilter.md rule R420). -/
def rowByte (pred : Byte → Byte → Byte → Byte) (i : Nat) (s : State) : Byte :=
  Memory.read s.inMem s.bytePos + pred (neighbourA i s) (neighbourB i s) (neighbourC i s)

/-- The state before byte i of a row is appended to OUT (45_defilter.md rule R420). -/
def rowByteStored (pred : Byte → Byte → Byte → Byte) (i : Nat) (s : State) : State :=
  { s.skipByte with colI := i, curRow := Memory.write s.curRow i (rowByte pred i s) }

theorem filterBytes_succ {pred : Byte → Byte → Byte → Byte} {n i : Nat} {s : State} (h : s.bytePos < s.inLen) :
    filterBytes pred (n + 1) i s =
      (outAppend (rowByte pred i s) (rowByteStored pred i s)).bind fun _ s => filterBytes pred n (i + 1) s := by
  rw [filterBytes, readByte_ok (s := { s with colI := i }) h]
  rfl

/-- The state after byte i of a row was moved. -/
def rowByteDone (pred : Byte → Byte → Byte → Byte) (i : Nat) (s : State) : State :=
  { rowByteStored pred i s with out := s.out ++ [rowByte pred i s], outLen := s.outLen + 1 }

theorem filterBytes_endsShort (pred : Byte → Byte → Byte → Byte) (n i : Nat) (s : State) :
    EndsShort n s (filterBytes pred n i s) := by
  induction n generalizing i s with
  | zero => exact endsShort_zero s _
  | succ n ih =>
    refine endsShort_succ (t := rowByteDone pred i s)
      (fun h => (readByte_raises (s := { s with colI := i }) h).bind _) (fun h hfull => ?full) (fun h hroom => ?room)
      rfl rfl rfl rfl (ih (i + 1) (rowByteDone pred i s))
    case full =>
      rw [filterBytes_succ h, outAppend_overflow (s := rowByteStored pred i s) _ hfull]
      exact raises_raise _ _
    case room =>
      rw [filterBytes_succ h, outAppend_below (s := rowByteStored pred i s) _ hroom]
      rfl

/-! ## Stored blocks -/

theorem le16_eq_ofNat {lo hi : Byte} {n : Nat} (h : lo.toNat + 256 * hi.toNat = n) :
    hi ++ lo = BitVec.ofNat 16 n := by
  rw [← h, ← toNat_le16, BitVec.ofNat_toNat, BitVec.setWidth_eq]

/-- NLEN as the complement of LEN (41_block_dispatch.md rule R246). -/
theorem ofNat_complement {n : Nat} (h : n ≤ 65535) : BitVec.ofNat 16 (65535 - n) = BitVec.ofNat 16 n ^^^ 0xFFFF := by
  rw [show (0xFFFF : BitVec 16) = BitVec.allOnes 16 from rfl, BitVec.xor_allOnes]
  apply BitVec.eq_of_toNat_eq
  rw [BitVec.toNat_not, BitVec.toNat_ofNat, BitVec.toNat_ofNat]
  omega

theorem alignToByte_bytePos (s : State) : (alignToByte s).bytePos = s.alignedByte := by
  rw [alignToByte_eq, atBit_bytePos]
  omega

/-- LEN of a stored block where its two bytes are left (41_block_dispatch.md rule R246). -/
theorem readLe16_aligned {s : State} (h : s.alignedByte + 2 ≤ s.inLen) :
    readLe16 (alignToByte s) =
      .ok (Memory.read s.inMem (s.alignedByte + 1) ++ Memory.read s.inMem s.alignedByte)
        (s.atBit (8 * (s.alignedByte + 2))) := by
  rw [alignToByte_eq, readLe16_ok (atBit_pc s _) h]
  rfl

/-- The stored block at the next byte boundary has LEN len and the NLEN that agrees (41_block_dispatch.md rule R246). -/
def StoredLength (len : Nat) (s : State) : Prop :=
  (Memory.read s.inMem s.alignedByte).toNat + 256 * (Memory.read s.inMem (s.alignedByte + 1)).toNat = len ∧
  (Memory.read s.inMem (s.alignedByte + 2)).toNat + 256 * (Memory.read s.inMem (s.alignedByte + 3)).toNat =
    65535 - len

/-- The state before the data of a stored block of len bytes: on the byte after LEN and NLEN. -/
def storedDataStart (len : Nat) (s : State) : State :=
  { s.atBit (8 * (s.alignedByte + 4)) with storedRemain := BitVec.ofNat 16 len }

theorem storedDataStart_bytePos (len : Nat) (s : State) : (storedDataStart len s).bytePos = s.alignedByte + 4 := by
  rw [storedDataStart, atBit_bytePos]
  omega

/-- A stored block whose LEN and NLEN agree copies LEN bytes from the byte after them (41_block_dispatch.md
rule R245). -/
theorem storedBlock_agreeing {s : State} {len : Nat} (hin : s.alignedByte + 4 ≤ s.inLen)
    (hlen : StoredLength len s) :
    storedBlock s =
      (copyStored len (storedDataStart len s)).bind fun _ s => .ok () { s with phase := .blockEnd } := by
  obtain ⟨hlo, hcomplement⟩ := hlen
  have hle : len ≤ 65535 := by
    have := (Memory.read s.inMem s.alignedByte).isLt
    have := (Memory.read s.inMem (s.alignedByte + 1)).isLt
    omega
  have hnat : (BitVec.ofNat 16 len).toNat = len := by rw [BitVec.toNat_ofNat]; omega
  rw [storedBlock, readLe16_aligned (by omega), bind_ok, readLe16_ok (atBit_pc s _) hin, bind_ok, le16_eq_ofNat hlo]
  rw [atBit_inMem, le16_eq_ofNat hcomplement, if_neg (not_not.mpr (ofNat_complement hle)), hnat]
  rfl

/-- A stored block whose LEN or NLEN the input's end cuts. -/
theorem storedBlock_headerShort {s : State} (h : s.inLen < s.alignedByte + 4) :
    (storedBlock s).Raises .inputExhausted := by
  unfold storedBlock
  by_cases hlen : s.inLen < s.alignedByte + 2
  · exact (readLe16_raises (by rw [alignToByte_bytePos, alignToByte_eq]; exact hlen)).bind _
  · rw [readLe16_aligned (by omega), bind_ok]
    exact (readLe16_raises (by rw [atBit_bytePos, atBit_inLen]; omega)).bind _

theorem storedBlock_overflow {s : State} {len c : Nat} (hin : s.alignedByte + 4 + len ≤ s.inLen)
    (hlen : StoredLength len s) (hc : s.outCapacity = some c) (hle : s.outLen ≤ c) (hlt : c < s.outLen + len) :
    (storedBlock s).Raises .outputOverflow := by
  rw [storedBlock_agreeing (by omega) hlen]
  have hloop := copyStored_endsShort len (storedDataStart len s)
  exact (hloop.2 c (by rw [storedDataStart_bytePos]; exact hin) hc hle hlt).bind _

theorem storedBlock_dataShort {s : State} {len : Nat} (hin : s.alignedByte + 4 ≤ s.inLen)
    (hshort : s.inLen < s.alignedByte + 4 + len) (hroom : s.hasRoom len)
    (hlen : StoredLength len s) :
    (storedBlock s).Raises .inputExhausted := by
  rw [storedBlock_agreeing hin hlen]
  have hloop := copyStored_endsShort len (storedDataStart len s)
  exact (hloop.1 (by omega) (by rw [storedDataStart_bytePos]; exact hshort) hroom).bind _

/-! ## Dynamic headers -/

/-- The state after HLIT was read (42_dynamic_header.md rule R281). -/
def hlitRead (s : State) : State := { s.atBit (s.pc + 5) with hlit := BitVec.ofNat 9 (s.fieldAt s.pc 5 + 257) }

/-- The state after HDIST was read. -/
def hdistRead (s : State) : State :=
  { s.atBit (s.pc + 10) with
    hlit := BitVec.ofNat 9 (s.fieldAt s.pc 5 + 257), hdist := BitVec.ofNat 6 (s.fieldAt (s.pc + 5) 5 + 1) }

/-- The state after HCLEN was read. -/
def hclenRead (s : State) : State :=
  { s.atBit (s.pc + 14) with
    hlit := BitVec.ofNat 9 (s.fieldAt s.pc 5 + 257), hdist := BitVec.ofNat 6 (s.fieldAt (s.pc + 5) 5 + 1),
    hclen := BitVec.ofNat 5 (s.fieldAt (s.pc + 10) 4 + 4) }

/-- Only BYTE_POS and BIT_POS matter for the cursor. -/
theorem pc_congr {s t : State} (hbyte : t.bytePos = s.bytePos) (hbit : t.bitPos = s.bitPos) : t.pc = s.pc := by
  rw [State.pc, State.pc, hbyte, hbit]

@[simp] theorem hlitRead_pc (s : State) : (hlitRead s).pc = s.pc + 5 := by
  rw [pc_congr (s := s.atBit (s.pc + 5)) (by rw [hlitRead]) (by rw [hlitRead]), atBit_pc]

@[simp] theorem hdistRead_pc (s : State) : (hdistRead s).pc = s.pc + 10 := by
  rw [pc_congr (s := s.atBit (s.pc + 10)) (by rw [hdistRead]) (by rw [hdistRead]), atBit_pc]

@[simp] theorem hclenRead_pc (s : State) : (hclenRead s).pc = s.pc + 14 := by
  rw [pc_congr (s := s.atBit (s.pc + 14)) (by rw [hclenRead]) (by rw [hclenRead]), atBit_pc]

theorem hlitRead_inLen (s : State) : (hlitRead s).inLen = s.inLen := by rw [hlitRead, atBit_inLen]

theorem hdistRead_inLen (s : State) : (hdistRead s).inLen = s.inLen := by rw [hdistRead, atBit_inLen]

/-- A read of n bits, then f: it raises if f does where the bits are left. -/
theorem getBits_bind_raises {α : Type} {n : Nat} {s : State} {f : Nat → State → Res α} (hn : 0 < n)
    (hf : s.hasBits n → (f (s.fieldAt s.pc n) (s.atBit (s.pc + n))).Raises .inputExhausted) :
    ((getBits n s).bind f).Raises .inputExhausted := by
  by_cases h : s.hasBits n
  · rw [getBits_ok (.inr h)]
    exact hf h
  · exact (getBits_raises hn h).bind f

/-- The three counts where their bits are left (42_dynamic_header.md rule R281). -/
theorem readCounts_ok {s : State} (h : s.hasBits 14) : readCounts s = .ok () (hclenRead s) := by
  have hlit : s.hasBits 5 := Nat.le_trans (by omega) h
  have hdist : (hlitRead s).hasBits 5 := by
    rw [State.hasBits, hlitRead_pc, hlitRead_inLen]
    exact Nat.le_trans (by omega) h
  have hclen : (hdistRead s).hasBits 4 := by
    rwa [State.hasBits, hdistRead_pc, hdistRead_inLen]
  rw [readCounts, getBits_ok (.inr hlit), bind_ok]
  change (getBits 5 (hlitRead s)).bind _ = _
  rw [getBits_ok (.inr hdist), bind_ok, hlitRead_pc, fieldAt_congr (s := s) (t := hlitRead s) rfl]
  change (getBits 4 (hdistRead s)).bind _ = _
  rw [getBits_ok (.inr hclen), bind_ok, hdistRead_pc, fieldAt_congr (s := s) (t := hdistRead s) rfl]
  rfl

theorem readCounts_raises {s : State} (h : ¬ s.hasBits 14) : (readCounts s).Raises .inputExhausted := by
  refine getBits_bind_raises (by omega) fun _ => ?_
  change ((getBits 5 (hlitRead s)).bind _).Raises _
  refine getBits_bind_raises (by omega) fun _ => ?_
  rw [hlitRead_pc, fieldAt_congr (s := s) (t := hlitRead s) rfl]
  change ((getBits 4 (hdistRead s)).bind _).Raises _
  refine (getBits_raises (by omega) ?_).bind _
  rwa [State.hasBits, hdistRead_pc, hdistRead_inLen]

theorem readClenLens_raises {syms : List Nat} {s : State} (hpos : 0 < syms.length)
    (h : ¬ s.hasBits (3 * syms.length)) : (readClenLens syms s).Raises .inputExhausted := by
  induction syms generalizing s with
  | nil => exact absurd hpos (Nat.lt_irrefl 0)
  | cons sym syms ih =>
    simp only [State.hasBits, List.length_cons] at h
    refine getBits_bind_raises (by omega) fun h3 => ih (by simp only [State.hasBits] at h3; omega) ?_
    change ¬ ((s.atBit (s.pc + 3)).pc + 3 * syms.length ≤ 8 * s.inLen)
    rw [atBit_pc]
    omega

/-- The state before the code-length lengths are read (42_dynamic_header.md rule R282). -/
def clenLensCleared (s : State) : State := { hclenRead s with clenLens := Vector.replicate 19 0 }

theorem clenLensCleared_pc (s : State) : (clenLensCleared s).pc = s.pc + 14 := hclenRead_pc s

theorem clenLensCleared_inLen (s : State) : (clenLensCleared s).inLen = s.inLen := rfl

/-- A header that the input's end cuts in its counts, or in the lengths that the third count gives. -/
theorem dynamicHeader_raises {s : State} (h : ¬ s.hasBits (14 + 3 * (s.fieldAt (s.pc + 10) 4 + 4))) :
    (dynamicHeader s).Raises .inputExhausted := by
  unfold dynamicHeader
  by_cases h14 : s.hasBits 14
  · have hfield : s.fieldAt (s.pc + 10) 4 < 16 := fieldAt_lt s _ 4
    have hhclen : (hclenRead s).hclen.toNat = s.fieldAt (s.pc + 10) 4 + 4 := by
      rw [hclenRead, BitVec.toNat_ofNat]; omega
    have hlength : (clenOrder.take (hclenRead s).hclen.toNat).length = s.fieldAt (s.pc + 10) 4 + 4 := by
      rw [List.length_take, hhclen, show clenOrder.length = 19 from rfl]; omega
    rw [readCounts_ok h14, bind_ok]
    change ((readClenLens _ (clenLensCleared s)).bind _).Raises _
    refine (readClenLens_raises (by rw [hlength]; omega) ?_).bind _
    rwa [hlength, State.hasBits, clenLensCleared_pc, clenLensCleared_inLen, Nat.add_assoc]
  · exact (readCounts_raises h14).bind _

/-! ## Runs of code lengths -/

theorem readRepeat_exhausted {base n : Nat} {s : State} (hn : 0 < n) (h : ¬ s.hasBits n) :
    readRepeat base n s = .raise .inputExhausted (s.atBit (max s.pc (8 * s.inLen))) := by
  rw [readRepeat, getBits_exhausted hn h, bind_raise]

/-- A run of code lengths whose extra bits the input's end cuts. -/
theorem runInstruction_exhausted : ∀ p ∈ [(Instr.clRep, 2), (Instr.clZero3, 3), (Instr.clZero11, 7)], ∀ s : State,
    s.lensCount ≠ 0 ∨ p.1 ≠ .clRep → ¬ s.hasBits p.2 →
    exec p.1 s = .next (errorEntry .inputExhausted (s.atBit (max s.pc (8 * s.inLen)))) := by
  simp only [List.forall_mem_cons]
  refine ⟨fun s hcount h => ?rep, fun s _ h => ?zero3, fun s _ h => ?zero11, by simp⟩
  case rep =>
    have hne : s.lensCount ≠ 0 := hcount.resolve_right fun hne => hne rfl
    rw [exec, execClRep, if_neg hne, readRepeat_exhausted (by omega) h, bind_raise, finish_raise]
  case zero3 => rw [exec, execClZero3, readRepeat_exhausted (by omega) h, bind_raise, finish_raise]
  case zero11 => rw [exec, execClZero11, readRepeat_exhausted (by omega) h, bind_raise, finish_raise]

/-! ## Rows -/

theorem filterRow_overflow {ft : BitVec 8} {pred : Byte → Byte → Byte → Byte} {s : State} {c : Nat}
    (hin : s.bytePos + s.rowBytes ≤ s.inLen) (hc : s.outCapacity = some c) (hle : s.outLen ≤ c)
    (hlt : c < s.outLen + s.rowBytes) : (filterRow ft pred s).Raises .outputOverflow :=
  ((filterBytes_endsShort pred s.rowBytes 0 { s with ft := ft }).2 c hin hc hle hlt).bind _

theorem filterRow_dataShort {ft : BitVec 8} {pred : Byte → Byte → Byte → Byte} {s : State} (hpos : 0 < s.rowBytes)
    (hshort : s.inLen < s.bytePos + s.rowBytes) (hroom : s.hasRoom s.rowBytes) :
    (filterRow ft pred s).Raises .inputExhausted :=
  ((filterBytes_endsShort pred s.rowBytes 0 { s with ft := ft }).1 hpos hshort hroom).bind _

/-! ## The obligations -/

theorem exec_lit_overflow (b : Byte) {s : State} (h : s.outCapacity = some s.outLen) :
    exec (.lit b) s = .next (errorEntry .outputOverflow s) := by
  rw [exec, execLit, emit_overflow b h, finish_raise]

theorem distRow_overflow {p : Instr × Nat × Nat × Nat} (hp : p ∈ distRows) {s : State} {c : Nat}
    (hbits : p.2.2.1 = 0 ∨ s.hasBits p.2.2.1)
    (hvalid : s.winWrapped = 1 ∨ p.2.2.2 + s.fieldAt s.pc p.2.2.1 ≤ s.winCur.toNat) (hc : s.outCapacity = some c)
    (hle : s.outLen ≤ c) (hlt : c < s.outLen + s.matchLen.toNat) :
    (backRefDistance p.2.1 s).Raises .outputOverflow := by
  have hext := dext_distRow p hp
  have hbase := dbase_distRow p hp
  have hmax := distance_le_distRow p hp
  have hfield := fieldAt_lt s s.pc p.2.2.1
  rw [backRefDistance_eq (hext ▸ hbits), hext, hbase]
  refine writeToObject_overflow ?_ hc hle hlt
  rw [BitVec.toNat_ofNat, Nat.mod_eq_of_lt (by omega)]
  exact hvalid

/-- Settles O33: where the input holds what is moved, the loop to OUT ends at the bound. -/
theorem boundedOutputOverflows : Obligations.BoundedOutputOverflows := by
  unfold Obligations.BoundedOutputOverflows
  refine ⟨fun b s h => exec_lit_overflow b h, ?copy, ?stored, ?row⟩
  case copy =>
    intro p hp s c hbits hvalid hc hle hlt
    rw [exec_distRow p hp]
    exact (distRow_overflow hp hbits hvalid hc hle hlt).finish
  case stored =>
    intro final s len c k hin hlen hnlen hc hle hlt
    exact (storedBlock_overflow (s := { setHeader final 0 s with phase := .stored }) hin ⟨hlen, hnlen⟩ hc hle
      hlt).finish
  case row =>
    intro p hp s c rb hin hc hle hlt
    rw [exec_filterRow p hp]
    exact (filterRow_overflow hin hc hle hlt).finish

/-- Settles O34: each read of an operand raises at the input's end, and each loop from IN where its data ends. -/
theorem inputEndRaises : Obligations.InputEndRaises := by
  unfold Obligations.InputEndRaises
  refine ⟨?length, ?distance, fun p hp s hcount h => ⟨_, runInstruction_exhausted p hp s hcount h⟩, ?dynamic,
    ?storedHeader, ?storedData, ?row⟩
  case length =>
    intro p hp s htree hpos h
    rw [← lext_lengthRow p hp] at hpos h
    rw [exec_lengthRow p hp, backRefLength_exhausted htree hpos h]
    exact ⟨_, rfl⟩
  case distance =>
    intro p hp s hpos h
    rw [← dext_distRow p hp] at hpos h
    rw [exec_distRow p hp, backRefDistance_exhausted hpos h]
    exact ⟨_, rfl⟩
  case dynamic =>
    intro final s h
    rw [← fieldAt_congr (s := s) (t := { setHeader final 2 s with phase := .dynHdr }) rfl] at h
    exact (dynamicHeader_raises (s := { setHeader final 2 s with phase := .dynHdr }) h).finish
  case storedHeader =>
    intro final s h
    exact (storedBlock_headerShort (s := { setHeader final 0 s with phase := .stored }) h).finish
  case storedData =>
    intro final s len k hin hshort hroom hlen hnlen
    exact (storedBlock_dataShort (s := { setHeader final 0 s with phase := .stored }) hin hshort hroom
      ⟨hlen, hnlen⟩).finish
  case row =>
    intro p hp s rb hpos hshort hroom
    rw [exec_filterRow p hp]
    exact (filterRow_dataShort hpos hshort hroom).finish

end Sys2Proof.Machine
end

section
/-! The encodings (30_encoding.md): decoding and encoding are inverse, and what MATCH expands to. -/

namespace Sys2Proof.Machine

/-! ## The decoder answers well-formed instructions, and their words are the values it read -/

theorem decodeHdr_ok {w : Nat} {i : Instr} (h : decodeHdr w = .ok i) :
    i.WellFormed = true ∧ encode i = (.hdr, w) := by
  unfold decodeHdr at h
  split at h <;> cases h
  all_goals
    refine ⟨rfl, Prod.ext rfl ?_⟩
    simp only [encode, BitVec.toNat_ofNat]
    omega

theorem decodeClsym_ok {w : Nat} {i : Instr} (h : decodeClsym w = .ok i) :
    i.WellFormed = true ∧ encode i = (.clsym, w) := by
  unfold decodeClsym at h
  split at h
  case isTrue hlt =>
    cases h
    exact ⟨rfl, Prod.ext rfl (Nat.mod_eq_of_lt hlt)⟩
  case isFalse hge =>
    split at h <;> cases h
    all_goals
      refine ⟨rfl, Prod.ext rfl ?_⟩
      simp only [encode]
      omega

theorem decodeLitsym_ok {w : Nat} {i : Instr} (h : decodeLitsym w = .ok i) :
    i.WellFormed = true ∧ encode i = (.litsym, w) := by
  unfold decodeLitsym at h
  split at h
  case isTrue hlt =>
    cases h
    exact ⟨rfl, Prod.ext rfl (Nat.mod_eq_of_lt hlt)⟩
  case isFalse hge =>
    split at h <;> cases h
    all_goals
      refine ⟨rfl, Prod.ext rfl ?_⟩
      simp only [encode]
      omega

theorem decodeDistsym_ok {w : Nat} {i : Instr} (h : decodeDistsym w = .ok i) :
    i.WellFormed = true ∧ encode i = (.distsym, w) := by
  unfold decodeDistsym at h
  split at h <;> cases h <;> exact ⟨rfl, rfl⟩

/-- The filter types past the five of the opcode map are FILT_RESERVED (30_encoding.md rule R136). -/
theorem decodeRow_reserved {w : Nat} (h : 5 ≤ w) :
    decodeRow w = if w < 256 then .ok (.filtReserved (BitVec.ofNat 8 w)) else .error .fieldWidth := by
  obtain ⟨n, rfl⟩ := Nat.exists_eq_add_of_le' h
  rfl

theorem decodeRow_ok {w : Nat} {i : Instr} (h : decodeRow w = .ok i) :
    i.WellFormed = true ∧ encode i = (.row, w) := by
  by_cases h5 : 5 ≤ w
  · rw [decodeRow_reserved h5] at h
    split at h <;> cases h
    next hlt =>
      have hnat : (BitVec.ofNat 8 w).toNat = w := Nat.mod_eq_of_lt hlt
      exact ⟨by rwa [Instr.WellFormed, hnat, decide_eq_true_eq], Prod.ext rfl hnat⟩
  · have : w < 5 := by omega
    interval_cases w <;> cases h <;> exact ⟨rfl, rfl⟩

theorem decodeCmd_ok {w : Nat} {i : Instr} (h : decodeCmd w = .ok i) :
    i.WellFormed = true ∧ encode i = (.cmd, w) := by
  unfold decodeCmd at h
  split at h <;> cases h <;> exact ⟨rfl, rfl⟩

theorem encode_of_decode {f : Format} {w : Nat} {i : Instr} (h : decode f w = .ok i) :
    i.WellFormed = true ∧ encode i = (f, w) := by
  cases f with
  | hdr => exact decodeHdr_ok h
  | clsym => exact decodeClsym_ok h
  | litsym => exact decodeLitsym_ok h
  | distsym => exact decodeDistsym_ok h
  | row => exact decodeRow_ok h
  | cmd => exact decodeCmd_ok h

/-! ## The decoder reads a well-formed instruction from its word -/

theorem decodeClsym_length (v : BitVec 4) : decodeClsym v.toNat = .ok (.clLen v) := by
  rw [decodeClsym, if_pos v.isLt, BitVec.ofNat_toNat, BitVec.setWidth_eq]

theorem decodeLitsym_literal (b : Byte) : decodeLitsym b.toNat = .ok (.lit b) := by
  rw [decodeLitsym, if_pos b.isLt, BitVec.ofNat_toNat, BitVec.setWidth_eq]

theorem decodeRow_toNat {ft : Byte} (h : 5 ≤ ft.toNat) : decodeRow ft.toNat = .ok (.filtReserved ft) := by
  rw [decodeRow_reserved h, if_pos ft.isLt, BitVec.ofNat_toNat, BitVec.setWidth_eq]

/-- An instruction with an operand is read by the lemma of its operand; every other has one word, which the decoder's
table lists. -/
theorem decode_encode {i : Instr} (h : i.WellFormed = true) : decode (encode i).1 (encode i).2 = .ok i := by
  cases i
  case blkStored final | blkStatic final | blkDynamic final | blkReserved final =>
    rcases BitVec.eq_zero_or_eq_one final with rfl | rfl <;> rfl
  case clLen v => exact decodeClsym_length v
  case lit b => exact decodeLitsym_literal b
  case filtReserved ft => exact decodeRow_toNat (of_decide_eq_true h)
  all_goals rfl

/-- Settles O3: what the decoder reads encodes to the value read, and what is encoded is read back. -/
theorem decodeInvertsEncode : Obligations.DecodeInvertsEncode := by
  unfold Obligations.DecodeInvertsEncode
  intro f w i
  constructor
  · exact encode_of_decode
  · rintro ⟨hwf, henc⟩
    simpa only [henc] using decode_encode hwf

/-- Settles O2: each word is looked up in its format's table. -/
theorem decoderReadsSpecWords : Obligations.DecoderReadsSpecWords := by
  unfold Obligations.DecoderReadsSpecWords
  decide

/-! ## MATCH -/

/-- Where the values base k .. base k + 2 ^ ext k − 1 of k = lo .. lo + n leave no gap from base lo to x, the last base
at most x is that of the values x is among. -/
theorem largestBase_spec (base ext : Nat → Nat) {x lo n : Nat} (hlo : base lo ≤ x)
    (hgap : ∀ k < n, base (lo + k + 1) ≤ base (lo + k) + 2 ^ ext (lo + k))
    (hhi : x < base (lo + n) + 2 ^ ext (lo + n)) :
    ∃ k ≤ n, largestBase base x lo n = lo + k ∧ base (lo + k) ≤ x ∧ x < base (lo + k) + 2 ^ ext (lo + k) := by
  induction n with
  | zero => exact ⟨0, Nat.le_refl 0, rfl, hlo, hhi⟩
  | succ n ih =>
    rw [largestBase]
    split
    case isTrue hle => exact ⟨n + 1, Nat.le_refl _, rfl, hle, hhi⟩
    case isFalse hlt =>
      have hbelow := (Nat.lt_of_not_le hlt).trans_le (hgap n (Nat.lt_succ_self n))
      obtain ⟨k, hk, hspec⟩ := ih (fun k hk => hgap k (by omega)) hbelow
      exact ⟨k, by omega, hspec⟩

/-- Every symbol 257..285 has a row, with the LEXT and LBASE of the table (43_symbol_loop.md rule R325). -/
theorem exists_lengthRow {k : Nat} (hk : k < 29) :
    ∃ i, (i, 257 + k, lext (257 + k), lbase (257 + k)) ∈ lengthRows := by
  have hrows : ∀ k < 29, (257 + k, lext (257 + k), lbase (257 + k)) ∈ lengthRows.map Prod.snd := by decide
  obtain ⟨⟨i, _⟩, hmem, rfl⟩ := List.mem_map.mp (hrows k hk)
  exact ⟨i, hmem⟩

/-- Every symbol 0..29 has a row, with the DEXT and DBASE of the table (43_symbol_loop.md rule R328). -/
theorem exists_distRow {k : Nat} (hk : k < 30) : ∃ i, (i, k, dext k, dbase k) ∈ distRows := by
  have hrows : ∀ k < 30, (k, dext k, dbase k) ∈ distRows.map Prod.snd := by decide
  obtain ⟨⟨i, _⟩, hmem, rfl⟩ := List.mem_map.mp (hrows k hk)
  exact ⟨i, hmem⟩

/-- The length symbol of a length below 258 (30_encoding.md rule R142). -/
theorem largestBase_length {L : Nat} (h3 : 3 ≤ L) (h258 : L < 258) :
    ∃ k < 29, largestBase lbase L 257 27 = 257 + k ∧ lbase (257 + k) ≤ L ∧
      L < lbase (257 + k) + 2 ^ lext (257 + k) := by
  have hgap : ∀ k < 27, lbase (257 + k + 1) ≤ lbase (257 + k) + 2 ^ lext (257 + k) := by decide
  obtain ⟨k, hk, hspec⟩ := largestBase_spec lbase lext (lo := 257) h3 hgap (show L < 227 + 2 ^ 5 by omega)
  exact ⟨k, by omega, hspec⟩

/-- The distance symbol of a distance (30_encoding.md rule R142). -/
theorem largestBase_distance {D : Nat} (h1 : 1 ≤ D) (h32768 : D ≤ 32768) :
    ∃ k < 30, largestBase dbase D 0 29 = k ∧ dbase k ≤ D ∧ D < dbase k + 2 ^ dext k := by
  have hgap : ∀ k < 29, dbase (0 + k + 1) ≤ dbase (0 + k) + 2 ^ dext (0 + k) := by decide
  obtain ⟨k, hk, hspec⟩ := largestBase_spec dbase dext (lo := 0) h1 hgap (show D < 24577 + 2 ^ 13 by omega)
  rw [Nat.zero_add] at hspec
  exact ⟨k, by omega, hspec⟩

/-- The expansion of a length below 258 uses the symbols of the largest bases. -/
theorem expandMatch_of_ne {L : Nat} (h : L ≠ 258) (D : Nat) :
    expandMatch L D = (largestBase lbase L 257 27, L - lbase (largestBase lbase L 257 27),
      largestBase dbase D 0 29, D - dbase (largestBase dbase D 0 29)) := by
  rw [expandMatch, if_neg h]

/-- Settles O47: the bases and extra bits of the tables leave no gap, so that the largest base at most the length or
the distance leaves a rest that its extra bits hold; length 258 has LEN285 for its own. -/
theorem matchExpandsToItsCodes : Obligations.MatchExpandsToItsCodes := by
  unfold Obligations.MatchExpandsToItsCodes
  intro L D h3 h258 h1 h32768
  obtain ⟨t, ht, htsym, htlo, hthi⟩ := largestBase_distance h1 h32768
  by_cases hL : L = 258
  · subst hL
    exact ⟨285, 0, t, D - dbase t, 0, 258, dext t, dbase t, by rw [← htsym]; rfl,
      exists_lengthRow (k := 28) (by omega), by omega, rfl, exists_distRow ht, by omega, by omega, fun _ => ⟨rfl, rfl⟩⟩
  · obtain ⟨k, hk, hsym, hlo, hhi⟩ := largestBase_length h3 (by omega)
    exact ⟨257 + k, L - lbase (257 + k), t, D - dbase t, lext (257 + k), lbase (257 + k), dext t, dbase t,
      by rw [expandMatch_of_ne hL, hsym, htsym], exists_lengthRow hk, by omega, by omega, exists_distRow ht, by omega,
      by omega, fun h => absurd h hL⟩

end Sys2Proof.Machine
end

section
/-! The static trees (40_huffman.md rule R215 to rule R217) decode the code table of the static blocks
(30_encoding.md rule R140). -/

namespace Sys2Proof.Machine

/-! ## Trees that hold their codes -/

/-- The tree of complete lengths holds every symbol at the end of its code, where two symbols have one. -/
theorem buildTree_holdsCodes {lens : List Nat} {m : Nat} {t : Tree} (hm : ∀ l ∈ lens, l ≤ m)
    (htwo : 2 ≤ (lens.filter fun l => l != 0).length) (h : buildTree lens m = .ok t) :
    HoldsCodes lens lens.length t := by
  unfold buildTree at h
  split at h
  case h_1 hnil => simp [hnil] at htwo
  case h_2 hone => simp [hone] at htwo
  case h_3 =>
    split at h
    case isTrue hc =>
      cases h
      exact assignCodes_symbolAt hc hm
    case isFalse => cases h

theorem countBefore_run {lens : List Nat} {first n len : Nat} (hrun : ∀ i < n, lens[first + i]? = some len) :
    ∀ i ≤ n, lens.countBefore len (first + i) = lens.countBefore len first + i := by
  intro i hi
  induction i with
  | zero => rfl
  | succ i ih => rw [← Nat.add_assoc, countBefore_succ (hrun i hi), if_pos rfl, ih (by omega), Nat.add_assoc]

/-- The codes of a run of symbols of one length rise by one from symbol to symbol (40_huffman.md rule R202). -/
theorem HoldsCodes.symbolAt_run {lens : List Nat} {t : Tree} (h : HoldsCodes lens lens.length t)
    (first n len code : Nat) (hrun : ∀ i < n, lens[first + i]? = some len) (h0 : len ≠ 0)
    (hcode : symbolCode lens first len = code) {sym : Nat} (hlo : first ≤ sym) (hhi : sym < first + n) :
    t.symbolAt (msbBits len (code + (sym - first))) = some sym := by
  obtain ⟨i, rfl⟩ := Nat.exists_eq_add_of_le hlo
  have hi : i < n := Nat.lt_of_add_lt_add_left hhi
  have hsym : symbolCode lens (first + i) len = code + i := by
    rw [← hcode, symbolCode, symbolCode, countBefore_run hrun i hi.le, Nat.add_assoc]
  rw [Nat.add_sub_cancel_left, ← hsym]
  exact h _ len (List.getElem?_eq_some_iff.mp (hrun i hi)).1 (hrun i hi) h0

/-! ## The static trees -/

theorem staticLitTree_holdsCodes : HoldsCodes staticLitLens staticLitLens.length staticLitTree :=
  buildTree_holdsCodes (by decide +kernel) (by decide +kernel) buildTree_staticLit

theorem staticDistTree_holdsCodes : HoldsCodes staticDistLens staticDistLens.length staticDistTree :=
  buildTree_holdsCodes (by decide +kernel) (by decide +kernel) buildTree_staticDist

/-- The static literal/length lengths are four runs (40_huffman.md rule R215), each with its own form of code. -/
theorem staticLitTree_symbolAt {sym : Nat} (h : sym < 288) :
    staticLitTree.symbolAt (staticLitBits sym) = some sym := by
  have hrun := staticLitTree_holdsCodes.symbolAt_run
  unfold staticLitBits
  split_ifs with h144 h256 h280
  · exact hrun 0 144 8 0x30 (by decide +kernel) (by decide) (by decide +kernel) (by omega) (by omega)
  · exact hrun 144 112 9 0x190 (by decide +kernel) (by decide) (by decide +kernel) (by omega) (by omega)
  · rw [← Nat.zero_add (sym - 256)]
    exact hrun 256 24 7 0 (by decide +kernel) (by decide) (by decide +kernel) (by omega) (by omega)
  · exact hrun 280 8 8 0xC0 (by decide +kernel) (by decide) (by decide +kernel) (by omega) (by omega)

/-- The static distance lengths are one run (40_huffman.md rule R215). -/
theorem staticDistTree_symbolAt {sym : Nat} (h : sym < 32) :
    staticDistTree.symbolAt (staticDistBits sym) = some sym := by
  have hrun := staticDistTree_holdsCodes.symbolAt_run 0 32 5 0 (by decide +kernel) (by decide) (by decide +kernel)
    (Nat.zero_le sym) (by omega)
  rwa [Nat.zero_add] at hrun

/-- DecodeSymbol on a code of one bit or more (40_huffman.md rule R210): a tree with such a code is no leaf. -/
theorem decodeSymbol_code {t : Tree} {bs : Bits} {sym : Nat} {s : State} (hp : t.symbolAt bs = some sym)
    (hne : bs ≠ []) (hn : s.hasBits bs.length) (hb : s.bitsAt s.pc bs.length = bs) :
    decodeSymbol t s = .ok sym (s.atBit (s.pc + bs.length)) := by
  refine decodeSymbol_path ?_ hp hb hn
  rintro x rfl
  cases bs with
  | nil => exact hne rfl
  | cons b bs => cases hp

theorem staticLitBits_ne_nil (sym : Nat) : staticLitBits sym ≠ [] := by
  unfold staticLitBits
  split_ifs <;> exact List.cons_ne_nil _ _

/-- Settles O4: the static trees are built of complete lengths, so that each symbol stands at the end of its code,
and the codes of each run of lengths are those of the table. -/
theorem staticCodesDecode : Obligations.StaticCodesDecode := by
  unfold Obligations.StaticCodesDecode
  constructor
  · intro s sym hsym hn hb
    exact decodeSymbol_code (staticLitTree_symbolAt hsym) (staticLitBits_ne_nil sym) hn hb
  · intro s sym hsym hn hb
    exact decodeSymbol_code (bs := staticDistBits sym) (staticDistTree_symbolAt hsym) (List.cons_ne_nil _ _) hn hb

end Sys2Proof.Machine
end

section
/-! BuildTree and DecodeSymbol (40_huffman.md): the completeness check as the codes' shares of the code space, the
alphabets of no and of one used symbol, and what the input's bits lead DecodeSymbol to. -/

namespace Sys2Proof.Machine

/-! ## The code space -/

/-- The share of the code space of 2 ^ m codes that a code of length l takes, where the lengths up to k are left out
and those past m have none (40_huffman.md rule R203). -/
def codeShare (m k l : Nat) : Nat := if k < l ∧ l ≤ m then 2 ^ (m - l) else 0

theorem codeShare_zero (m k : Nat) : codeShare m k 0 = 0 := if_neg (by omega)

theorem codeShare_of_le {m l : Nat} (h0 : l ≠ 0) (h : l ≤ m) : codeShare m 0 l = 2 ^ (m - l) :=
  if_pos ⟨Nat.pos_of_ne_zero h0, h⟩

theorem codeShare_lt_half {m l : Nat} (h : 2 ≤ l) : codeShare m 0 l < 2 ^ m := by
  unfold codeShare
  split
  case isTrue hle => exact Nat.pow_lt_pow_right Nat.one_lt_two (by omega)
  case isFalse => exact Nat.two_pow_pos m

/-- The codes of length k + 1 are the ones that the shares past k + 1 leave out. -/
theorem codeShare_succ {m k : Nat} (hk : k < m) (l : Nat) :
    codeShare m k l = (if l = k + 1 then 2 ^ (m - (k + 1)) else 0) + codeShare m (k + 1) l := by
  unfold codeShare
  by_cases hl : l = k + 1
  · subst hl
    simp [hk]
  · rw [if_neg hl, Nat.zero_add]
    exact if_congr (by omega) rfl rfl

theorem sum_codeShare_succ (lens : List Nat) {m k : Nat} (hk : k < m) :
    (lens.map (codeShare m k)).sum =
      lens.count (k + 1) * 2 ^ (m - (k + 1)) + (lens.map (codeShare m (k + 1))).sum := by
  induction lens with
  | nil => simp
  | cons l lens ih =>
    simp only [List.map_cons, List.sum_cons, ih, codeShare_succ hk l, List.count_cons, beq_iff_eq]
    split <;> ring

theorem sum_codeShare_self (lens : List Nat) (m : Nat) : (lens.map (codeShare m m)).sum = 0 := by
  refine List.sum_eq_zero fun x hx => ?_
  obtain ⟨l, -, rfl⟩ := List.mem_map.mp hx
  exact if_neg (by omega)

/-- An unused symbol takes no share. -/
theorem sum_codeShare_used (lens : List Nat) (m k : Nat) :
    (lens.map (codeShare m k)).sum = ((lens.filter fun l => l != 0).map (codeShare m k)).sum := by
  induction lens with
  | nil => rfl
  | cons l lens ih =>
    by_cases h0 : l = 0
    · simp [h0, codeShare_zero, ih]
    · simp [h0, ih]

/-- From length k + 1 on, the check accepts where the longer codes take all that `left` codes of length k leave. -/
theorem checkCompleteFrom_iff (lens : List Nat) (n k left : Nat) :
    checkCompleteFrom lens n (k + 1) left = true ↔ (lens.map (codeShare (k + n) k)).sum = left * 2 ^ n := by
  induction n generalizing k left with
  | zero =>
    rw [checkCompleteFrom, beq_iff_eq, Nat.add_zero, sum_codeShare_self, Nat.pow_zero, Nat.mul_one]
    exact eq_comm
  | succ n ih =>
    have hspace : left * 2 ^ (n + 1) = 2 * left * 2 ^ n := by ring
    rw [sum_codeShare_succ lens (by omega), hspace, show k + (n + 1) - (k + 1) = n by omega, checkCompleteFrom,
      blCount]
    split
    case isTrue hlt =>
      have hover := Nat.mul_lt_mul_of_pos_right hlt (Nat.two_pow_pos n)
      exact iff_of_false Bool.false_ne_true (by omega)
    case isFalse hge =>
      have hle := Nat.mul_le_mul_right (2 ^ n) (Nat.le_of_not_lt hge)
      rw [ih, Nat.sub_mul, show k + 1 + n = k + (n + 1) by omega]
      omega

/-- CheckComplete accepts where the used symbols of length at most MAXLEN fill the code space
(40_huffman.md rule R203). -/
theorem checkComplete_iff (lens : List Nat) (m : Nat) :
    checkComplete lens m = true ↔ ((lens.filter fun l => l != 0).map (codeShare m 0)).sum = 2 ^ m := by
  rw [checkComplete, checkCompleteFrom_iff, Nat.zero_add, Nat.one_mul, sum_codeShare_used]

/-- Settles O13: each length takes its share from the code space the check has left. -/
theorem completenessIsKraftEquality : Obligations.CompletenessIsKraftEquality := by
  unfold Obligations.CompletenessIsKraftEquality
  intro lens m hm
  have hshare : ∀ l ∈ lens.filter (fun l => l != 0), codeShare m 0 l = 2 ^ (m - l) := by
    intro l hl
    obtain ⟨hmem, h0⟩ := List.mem_filter.mp hl
    exact codeShare_of_le (bne_iff_ne.mp h0) (hm l hmem)
  rw [checkComplete_iff, List.map_congr_left hshare]

/-! ## Alphabets of no and of one used symbol -/

/-- Where symbol sym alone is used, its length is the one the alphabet has. -/
theorem usedLengths_of_single {lens : List Nat} {sym : Nat}
    (hother : ∀ j, j < lens.length → j ≠ sym → lens.getD j 0 = 0) (hused : lens.getD sym 0 ≠ 0) :
    lens.filter (fun l => l != 0) = [lens.getD sym 0] := by
  induction lens generalizing sym with
  | nil => exact absurd rfl hused
  | cons l lens ih =>
    cases sym with
    | zero =>
      have hrest : lens.filter (fun l => l != 0) = [] := by
        refine List.filter_eq_nil_iff.mpr fun x hx => ?_
        obtain ⟨j, hj, rfl⟩ := List.getElem_of_mem hx
        have := hother (j + 1) (by simpa using hj) (by omega)
        simpa [hj] using this
      have hl : l ≠ 0 := hused
      simp [hl, hrest]
    | succ sym =>
      have hl : l = 0 := hother 0 (by simp) (by omega)
      have htail := ih (sym := sym) (fun j hj hne => hother (j + 1) (by simpa using hj) (by omega)) hused
      simpa [hl] using htail

theorem idxOf_of_single {lens : List Nat} {sym : Nat} (hsym : sym < lens.length)
    (hother : ∀ j, j < lens.length → j ≠ sym → lens.getD j 0 = 0) (hone : lens.getD sym 0 = 1) :
    lens.idxOf 1 = sym := by
  have hmem : 1 ∈ lens := by
    rw [← hone, List.getD_eq_getElem _ _ hsym]
    exact List.getElem_mem hsym
  have hlt := List.idxOf_lt_length_of_mem hmem
  by_contra hne
  have hzero := hother _ hlt hne
  rw [List.getD_eq_getElem _ _ hlt, List.getElem_idxOf hlt] at hzero
  exact absurd hzero Nat.one_ne_zero

/-- A single code of two or more bits leaves code space. -/
theorem checkComplete_of_single {lens : List Nat} {m l : Nat} (hused : lens.filter (fun l => l != 0) = [l])
    (h : 2 ≤ l) : checkComplete lens m = false := by
  rw [Bool.eq_false_iff, ne_eq, checkComplete_iff, hused]
  exact (codeShare_lt_half h).ne

theorem buildTree_of_unused {lens : List Nat} (hused : lens.filter (fun l => l != 0) = []) (m : Nat) :
    buildTree lens m = .ok .null := by
  simp only [buildTree, hused]

theorem buildTree_of_degenerate {lens : List Nat} (hused : lens.filter (fun l => l != 0) = [1]) (m : Nat) :
    buildTree lens m = .ok (.leaf (lens.idxOf 1)) := by
  simp only [buildTree, hused]

theorem buildTree_of_single_long {lens : List Nat} {l : Nat} (hused : lens.filter (fun l => l != 0) = [l])
    (h : 2 ≤ l) (m : Nat) : buildTree lens m = .error .badCodeLengths := by
  obtain ⟨k, rfl⟩ := Nat.exists_eq_add_of_le' h
  simp only [buildTree, hused, checkComplete_of_single hused h, Bool.false_eq_true, if_false]

/-- Settles O12: the used lengths are none, the degenerate one, or one whose code leaves code space. -/
theorem buildTreeSpecialAlphabets : Obligations.BuildTreeSpecialAlphabets := by
  unfold Obligations.BuildTreeSpecialAlphabets
  intro lens m
  refine ⟨fun hzero => ?unused, fun sym hsym hother => ⟨fun hone => ?degenerate, fun hlong => ?long⟩⟩
  case unused =>
    exact buildTree_of_unused (List.filter_eq_nil_iff.mpr fun l hl => by simp [hzero l hl]) m
  case degenerate =>
    have hused := usedLengths_of_single hother (by omega)
    rw [hone] at hused
    rw [buildTree_of_degenerate hused, idxOf_of_single hsym hother hone]
  case long =>
    exact buildTree_of_single_long (usedLengths_of_single hother (by omega)) hlong m

/-! ## DecodeSymbol -/

/-- ReadBit where no bit is left (20_memory.md rule R87). -/
theorem readBit_exhausted {s : State} (h : ¬ s.hasBits 1) : readBit s = .raise .inputExhausted s := by
  rw [readBit_eq]
  exact if_neg h

/-- The walk at a node where the input has ended (40_huffman.md rule R210). -/
theorem walkTree_node_exhausted (l r : Tree) {s : State} (h : ¬ s.hasBits 1) :
    walkTree (.node l r) s = .raise .inputExhausted s := by
  rw [walkTree, readBit_exhausted h, bind_raise]

/-- Settles O16: a degenerate tree reads one bit; the walk from an inner node goes where the bits lead, and ends there
at a leaf, an absent child or the input's end. -/
theorem decodeSymbolFollowsInput : Obligations.DecodeSymbolFollowsInput := by
  unfold Obligations.DecodeSymbolFollowsInput
  intro s
  refine ⟨rfl, fun sym h => ?bit, fun sym h => ?noBit, fun l r bs hbs =>
    ⟨fun sym hn hp => ?leaf, fun hn hp => ?absent, fun l' r' hend hp => ?inputEnd⟩⟩
  case bit => rw [decodeSymbol, readBit_ok h, bind_ok]
  case noBit => rw [decodeSymbol, readBit_exhausted h, bind_raise]
  case leaf => exact walkTree_path hp hbs (.inl hn)
  case absent =>
    rw [decodeSymbol, walkTree_subtree hp hbs (.inl hn), walkTree]
  case inputEnd =>
    have hnone : ¬ (s.atBit (s.pc + bs.length)).hasBits 1 := by
      rw [State.hasBits, atBit_pc, atBit_inLen]
      omega
    rw [decodeSymbol, walkTree_subtree hp hbs (.inl hend.le), walkTree_node_exhausted l' r' hnone]

/-! ## The example of RFC 1951 -/

/-- Settles O15: the lengths are complete, so that each symbol stands at the end of its canonical code. -/
theorem canonicalCodesOfExample : Obligations.CanonicalCodesOfExample := by
  unfold Obligations.CanonicalCodesOfExample
  refine ⟨_, rfl, ?_⟩
  have hcodes : HoldsCodes [3, 3, 3, 3, 3, 2, 4, 4] 8 _ := buildTree_holdsCodes (m := 15) (by decide) (by decide) rfl
  exact ⟨hcodes 0 3 (by decide) rfl (by decide), hcodes 1 3 (by decide) rfl (by decide),
    hcodes 2 3 (by decide) rfl (by decide), hcodes 3 3 (by decide) rfl (by decide),
    hcodes 4 3 (by decide) rfl (by decide), hcodes 5 2 (by decide) rfl (by decide),
    hcodes 6 4 (by decide) rfl (by decide), hcodes 7 4 (by decide) rfl (by decide)⟩

end Sys2Proof.Machine
end

section
/-! What a step of a running command does in each phase (41_block_dispatch.md rule R240, 46_host_interface.md rule
R483): the instruction it fetches, or the transition that reads no instruction. -/

namespace Sys2Proof.Machine

/-! ## Which action a phase takes -/

theorem engineAction_hdr {s : State} (h : s.phase = .hdr) : engineAction s = fetched .hdr (fetchHeader s) := by
  simp only [engineAction, h]

theorem engineAction_codeLength {s : State} (h : s.phase = .dynLens) (hlt : s.lensCount.toNat < s.lensTotal) :
    engineAction s = fetched .clsym (decodeSymbol s.clenTree s) := by
  simp only [engineAction, h, if_pos hlt]

theorem engineAction_trees {s : State} (h : s.phase = .dynLens) (hge : s.lensTotal ≤ s.lensCount.toNat) :
    engineAction s = (buildTrees s).action := by
  simp only [engineAction, h, if_neg (Nat.not_lt.mpr hge)]

theorem engineAction_litlen {s : State} (h : s.phase = .symbols) (hd : s.distNext = false) :
    engineAction s = fetched .litsym (decodeSymbol s.litTree s) := by
  simp only [engineAction, h, hd, Bool.false_eq_true, if_false]

theorem engineAction_distance {s : State} (h : s.phase = .symbols) (hd : s.distNext = true) :
    engineAction s = fetched .distsym (decodeSymbol s.distTree s) := by
  simp only [engineAction, h, hd, if_true]

theorem engineAction_blockEnd {s : State} (h : s.phase = .blockEnd) : engineAction s = .move (blockEnd s) := by
  simp only [engineAction, h]

theorem engineAction_row {s : State} (h : s.phase = .dfRow) (hlt : s.rowY.toNat < s.dfHeight.toNat) :
    engineAction s = fetched .row (fetchRow s) := by
  simp only [engineAction, h, if_pos hlt]

/-- While a command runs and the host has no move, the engine acts (46_host_interface.md rule R483). -/
theorem step_engine {s : State} (hb : s.status = .busy) (hh : s.host = []) : step s = (engineAction s).outcome := by
  have hs : s.afterPassiveMove = s := by rw [State.afterPassiveMove, hh]
  rw [step_busy hb (by rw [hh]; nofun), hs]

/-! ## Fetching an instruction -/

/-- A value that decodes to an instruction runs it. -/
theorem decoded_outcome {f : Format} {w : Nat} {i : Instr} (s : State) (h : decode f w = .ok i) :
    (decoded f w s).outcome = exec i s := by
  rw [decoded, h]
  rfl

/-- A fetched value that decodes to an instruction runs it after the fetch. -/
theorem fetched_outcome {f : Format} {r : Res Nat} {w : Nat} {s : State} {i : Instr} (hr : r = .ok w s)
    (h : decode f w = .ok i) : (fetched f r).outcome = exec i s := by
  rw [hr]
  exact decoded_outcome s h

theorem fetchRow_ok {s : State} (h : s.bytePos < s.inLen) :
    fetchRow s = .ok (Memory.read s.inMem s.bytePos).toNat
      { s with bytePos := s.bytePos + 1, ft := Memory.read s.inMem s.bytePos } := by
  rw [fetchRow_eq, if_neg (Nat.not_le.mpr h)]

/-- Settles O5: the phase selects the fetch, and a value that decodes runs its instruction. -/
theorem stepRunsDecodedInstruction : Obligations.StepRunsDecodedInstruction := by
  unfold Obligations.StepRunsDecodedInstruction
  refine ⟨fun s hb hr => ?running, fun s v rest i hb hh hd => ?command⟩
  case running =>
    rw [step_busy hb hr]
    refine ⟨fun hp hbits i hd => ?hdr, fun hp hlt sym u i hs hd => ?clsym, fun hp hn sym u i hs hd => ?litsym,
      fun hp hn sym u i hs hd => ?distsym, fun hp hlt hin i hd => ?row⟩
    case hdr => rw [engineAction_hdr hp, fetched_outcome (fetchHeader_ok hbits) hd]
    case clsym => rw [engineAction_codeLength hp hlt, fetched_outcome hs hd]
    case litsym => rw [engineAction_litlen hp hn, fetched_outcome hs hd]
    case distsym => rw [engineAction_distance hp hn, fetched_outcome hs hd]
    case row => rw [engineAction_row hp hlt, fetched_outcome (fetchRow_ok hin) hd]
  case command => rw [step_host hb hh nofun, hostAction, decoded_outcome _ hd]

/-! ## The trees of a dynamic block -/

/-- The literal/length code lengths in LENS: its first HLIT entries (42_dynamic_header.md rule R293). -/
def litLens (s : State) : List Nat := (s.lens.toList.map BitVec.toNat).take s.hlit.toNat

/-- The distance code lengths in LENS: the HDIST entries after those. -/
def distLens (s : State) : List Nat := ((s.lens.toList.map BitVec.toNat).drop s.hlit.toNat).take s.hdist.toNat

theorem buildTrees_ok {s : State} {lit dist : Tree} (h : s.lensTotal ≤ Config.nLens)
    (hlit : buildTree (litLens s) Config.maxLenLitDist = .ok lit)
    (hdist : buildTree (distLens s) Config.maxLenLitDist = .ok dist) :
    buildTrees s = .ok () { s with litTree := lit, distTree := dist, phase := .symbols, distNext := false } := by
  rw [litLens] at hlit
  rw [distLens] at hdist
  simp only [buildTrees, if_neg (Nat.not_lt.mpr h), hlit, hdist]

theorem buildTrees_litError {s : State} {e : Err} (h : s.lensTotal ≤ Config.nLens)
    (hlit : buildTree (litLens s) Config.maxLenLitDist = .error e) : buildTrees s = .raise .badCodeLengths s := by
  cases buildTree_error hlit
  rw [litLens] at hlit
  simp only [buildTrees, if_neg (Nat.not_lt.mpr h), hlit]

theorem buildTrees_distError {s : State} {lit : Tree} {e : Err} (h : s.lensTotal ≤ Config.nLens)
    (hlit : buildTree (litLens s) Config.maxLenLitDist = .ok lit)
    (hdist : buildTree (distLens s) Config.maxLenLitDist = .error e) :
    buildTrees s = .raise .badCodeLengths { s with litTree := lit } := by
  cases buildTree_error hdist
  rw [litLens] at hlit
  rw [distLens] at hdist
  simp only [buildTrees, if_neg (Nat.not_lt.mpr h), hlit, hdist]

/-- Settles O21: the step is the building of the trees, whose slices lie in LENS. -/
theorem treesAreBuiltAfterCodeLengths : Obligations.TreesAreBuiltAfterCodeLengths := by
  unfold Obligations.TreesAreBuiltAfterCodeLengths
  intro s hb hh hp hge hhlit hhdist ls lit dist
  have htotal : s.lensTotal ≤ Config.nLens := Nat.add_le_add hhlit hhdist
  rw [step_engine hb hh, engineAction_trees hp hge]
  refine ⟨fun l d hl hd => ?built, fun e hl => ?badLit, fun l e hl hd => ?badDist⟩
  case built => rw [buildTrees_ok htotal hl hd, Res.action, Action.outcome]
  case badLit => rw [buildTrees_litError htotal hl, Res.action, Action.outcome]
  case badDist => rw [buildTrees_distError htotal hl hd, Res.action, Action.outcome]

/-! ## Block end -/

/-- Settles O22, by the two branches of the block end. -/
theorem blockEndTestsFinalFlag : Obligations.BlockEndTestsFinalFlag := by
  unfold Obligations.BlockEndTestsFinalFlag
  intro s hb hh hp
  rw [step_engine hb hh, engineAction_blockEnd hp, Action.outcome, blockEnd]
  refine ⟨fun hfinal => ?last, fun hfinal => ?more⟩
  case last => rw [if_pos hfinal, complete]
  case more => rw [if_neg (by rw [hfinal]; decide)]

/-! ## The phase table -/

/-- After a row the next row or the end of the command (45_defilter.md rule R420). -/
theorem rowEnd_phase (s : State) : (rowEnd s).phase = s.phase ∨ (rowEnd s).phase = .done := by
  rcases rowEnd_cases s with h | h
  · exact .inl (by rw [h])
  · exact .inr (by rw [h, complete_phase])

/-- Settles O57: each case of an engine step takes its own pairs of the list. -/
theorem phaseFollowsTable : Obligations.PhaseFollowsTable := by
  unfold Obligations.PhaseFollowsTable
  intro s t hb hr h
  change _ ∨ _ ∈ phaseMoves ++ [(Phase.blockEnd, Phase.done), (.dfRow, .dfRow), (.dfRow, .done)]
  rw [← afterPassiveMove_phase s]
  rcases running_engineStep hb hr h with ⟨_, h⟩ | ⟨hp, h⟩
  · cases h with
    | error e u _ ht => exact .inl (by rw [ht, errorEntry_phase])
    | goes _ hmove _ => exact .inr (List.mem_append_left _ hmove)
    | ends hend ht => right; rw [hend, ht, complete_phase]; decide
  · cases h with
    | error e u _ ht => exact .inl (by rw [ht, errorEntry_phase])
    | row u hu _ ht =>
      right
      rcases rowEnd_phase u with hrow | hdone
      · rw [ht, hrow, hu.phase, hp]; decide
      · rw [ht, hdone, hp]; decide
    | ends ht => right; rw [hp, ht, complete_phase]; decide

end Sys2Proof.Machine
end

section
/-! The instructions BLK_STORED, BLK_STATIC and BLK_RESERVED (41_block_dispatch.md rule R245 to rule R255). -/

namespace Sys2Proof.Machine

/-! ## Static and reserved blocks -/

/-- Settles O19: both headers are one update of the state, BLK_RESERVED's its error entry. -/
theorem staticAndReservedHeaders : Obligations.StaticAndReservedHeaders := by
  unfold Obligations.StaticAndReservedHeaders
  exact fun _ _ => ⟨rfl, rfl⟩

/-! ## Stored blocks -/

/-- The state after the header of a stored block (41_block_dispatch.md rule R243, rule R245). -/
def storedHeader (final : BitVec 1) (s : State) : State := { setHeader final 0 s with phase := .stored }

theorem exec_blkStored (final : BitVec 1) (s : State) :
    exec (.blkStored final) s = (storedBlock (storedHeader final s)).finish := rfl

theorem storedHeader_inMem (final : BitVec 1) (s : State) : (storedHeader final s).inMem = s.inMem := rfl

theorem storedHeader_alignedByte (final : BitVec 1) (s : State) :
    (storedHeader final s).alignedByte = s.alignedByte := rfl

theorem storedHeader_atBit (final : BitVec 1) (s : State) (k : Nat) :
    (storedHeader final s).atBit k = storedHeader final (s.atBit k) := rfl

/-- Emitting neither reads nor writes what a block header sets. -/
theorem emitted_storedHeader (bs : List Byte) (final : BitVec 1) (s : State) :
    emitted bs (storedHeader final s) = storedHeader final (emitted bs s) := by
  have hwin := winAppendData_congr bs (s := s) (t := storedHeader final s) rfl rfl rfl
  rw [emitted_eq, emitted_eq, hwin]
  rfl

/-- Emitting neither reads nor writes STORED_REMAIN. -/
theorem emitted_storedRemain (bs : List Byte) (s : State) (n : BitVec 16) :
    emitted bs { s with storedRemain := n } = { emitted bs s with storedRemain := n } := by
  have hwin := winAppendData_congr bs (s := s) (t := { s with storedRemain := n }) rfl rfl rfl
  rw [emitted_eq, emitted_eq, hwin]

/-- The state after n stored bytes were moved (41_block_dispatch.md rule R247). -/
def storedBytesDone (n : Nat) (s : State) : State :=
  { emitted (Memory.readBytes s.inMem s.bytePos n) { s with bytePos := s.bytePos + n } with
    storedRemain := s.storedRemain - BitVec.ofNat 16 n }

theorem storedBytesDone_zero (s : State) : storedBytesDone 0 s = s := by
  simp [storedBytesDone, Memory.readBytes]

theorem storedBytesDone_succ (n : Nat) (s : State) :
    storedBytesDone n (storedByteDone s) = storedBytesDone (n + 1) s := by
  have hremain : s.storedRemain - 1 - BitVec.ofNat 16 n = s.storedRemain - BitVec.ofNat 16 (n + 1) := by
    rw [sub_sub, Nat.add_comm, BitVec.ofNat_add]
    rfl
  let rest := Memory.readBytes s.inMem (s.bytePos + 1) n
  let first := emitted [Memory.read s.inMem s.bytePos] { s with bytePos := s.bytePos + (n + 1) }
  have hfirst : ({ storedByteDone s with bytePos := s.bytePos + 1 + n } : State) =
      { first with storedRemain := s.storedRemain - 1 } := by
    rw [Nat.add_right_comm]
    rfl
  calc storedBytesDone n (storedByteDone s)
      = { emitted rest { storedByteDone s with bytePos := s.bytePos + 1 + n } with
          storedRemain := s.storedRemain - 1 - BitVec.ofNat 16 n } := rfl
    _ = { emitted rest first with storedRemain := s.storedRemain - BitVec.ofNat 16 (n + 1) } := by
        rw [hfirst, emitted_storedRemain, hremain]
    _ = storedBytesDone (n + 1) s := by rw [storedBytesDone, Memory.readBytes, emitted_cons]

theorem storedByteDone_hasRoom {n : Nat} {s : State} (h : s.hasRoom (n + 1)) : (storedByteDone s).hasRoom n := by
  intro c hc
  have := h c hc
  show s.outLen + 1 + n ≤ c
  omega

/-- The copy of n stored bytes that the input holds and OUT has room for (41_block_dispatch.md rule R247). -/
theorem copyStored_ok (n : Nat) {s : State} (hin : s.bytePos + n ≤ s.inLen) (hroom : s.hasRoom n) :
    copyStored n s = .ok () (storedBytesDone n s) := by
  induction n generalizing s with
  | zero => rw [copyStored, storedBytesDone_zero]
  | succ n ih =>
    have hnext : (storedByteDone s).bytePos + n ≤ (storedByteDone s).inLen := by
      show s.bytePos + 1 + n ≤ s.inLen
      omega
    rw [copyStored_succ (by omega), emit_ok (s := s.skipByte) _ (hasRoom_mono hroom (by omega)), bind_ok,
      ← storedBytesDone_succ, ← ih hnext (storedByteDone_hasRoom hroom)]
    rfl

theorem le16_lt {lo hi : Byte} {n : Nat} (h : lo.toNat + 256 * hi.toNat = n) : n < 65536 := by
  have := lo.isLt
  have := hi.isLt
  omega

/-- A stored block whose data the input holds and OUT has room for (41_block_dispatch.md rule R245). -/
theorem storedBlock_ok {s : State} {len : Nat} (hin : s.alignedByte + 4 + len ≤ s.inLen) (hroom : s.hasRoom len)
    (hlen : StoredLength len s) :
    storedBlock s = .ok () {
      emitted (Memory.readBytes s.inMem (s.alignedByte + 4) len) (s.atBit (8 * (s.alignedByte + 4 + len))) with
      storedRemain := 0, phase := .blockEnd } := by
  have hpos := storedDataStart_bytePos len s
  have hremain : (storedDataStart len s).storedRemain - BitVec.ofNat 16 len = 0 := BitVec.sub_self _
  have hend : ({ storedDataStart len s with bytePos := s.alignedByte + 4 + len } : State) =
      { s.atBit (8 * (s.alignedByte + 4 + len)) with storedRemain := BitVec.ofNat 16 len } := by
    simp [storedDataStart, State.atBit]
  rw [storedBlock_agreeing (by omega) hlen,
    copyStored_ok len (s := storedDataStart len s) (by rw [hpos]; exact hin) hroom, bind_ok, storedBytesDone, hpos,
    hremain, hend, emitted_storedRemain]
  rfl

/-- Settles O17: the block's data is moved after the header's registers are written, and leaves them. -/
theorem storedBlockCopies : Obligations.StoredBlockCopies := by
  unfold Obligations.StoredBlockCopies
  intro final s len k hin hroom hlo hcomplement
  rw [exec_blkStored, storedBlock_ok (s := storedHeader final s) hin hroom ⟨hlo, hcomplement⟩, finish_ok,
    storedHeader_inMem, storedHeader_alignedByte, storedHeader_atBit, emitted_storedHeader, storedHeader,
    setHeader]

/-- An NLEN that is not the complement of LEN (41_block_dispatch.md rule R246). -/
theorem storedBlock_mismatch {s : State} {len nlen : Nat} (hin : s.alignedByte + 4 ≤ s.inLen)
    (hlen : (Memory.read s.inMem s.alignedByte).toNat + 256 * (Memory.read s.inMem (s.alignedByte + 1)).toNat = len)
    (hnlen : (Memory.read s.inMem (s.alignedByte + 2)).toNat +
      256 * (Memory.read s.inMem (s.alignedByte + 3)).toNat = nlen)
    (hne : len + nlen ≠ 65535) :
    storedBlock s = .raise .storedLenMismatch (s.atBit (8 * (s.alignedByte + 4))) := by
  have hlt := le16_lt hlen
  have hnlt := le16_lt hnlen
  have hcomplement : BitVec.ofNat 16 nlen ≠ BitVec.ofNat 16 len ^^^ 0xFFFF := by
    rw [← ofNat_complement (by omega)]
    intro h
    have hnat := congrArg BitVec.toNat h
    rw [BitVec.toNat_ofNat, BitVec.toNat_ofNat] at hnat
    omega
  rw [storedBlock, readLe16_aligned (by omega), bind_ok, readLe16_ok (atBit_pc s _) hin, bind_ok, le16_eq_ofNat hlen,
    atBit_inMem, le16_eq_ofNat hnlen, if_pos hcomplement]
  rfl

/-- Settles O18: the header's registers are written before LEN is read. -/
theorem storedLengthMismatchRaises : Obligations.StoredLengthMismatchRaises := by
  unfold Obligations.StoredLengthMismatchRaises
  intro final s len nlen k hin hlen hnlen hne
  rw [exec_blkStored, storedBlock_mismatch (s := storedHeader final s) hin hlen hnlen hne, finish_raise]
  rfl

end Sys2Proof.Machine
end

section
/-! The header of a dynamic block and its code-length instructions (42_dynamic_header.md rule R280 to rule R292). -/

namespace Sys2Proof.Machine

/-! ## The code-length array -/

theorem fillLens_getElem (ls : Vector (BitVec 4) 320) (v : BitVec 4) (k r j : Nat) (h : j < 320) :
    (fillLens ls v k r)[j] = if k ≤ j ∧ j < k + r then v else ls[j] := by
  induction r generalizing ls k with
  | zero => rw [fillLens, if_neg (by omega)]
  | succ r ih =>
    rw [fillLens, ih, Vector.getElem_setIfInBounds]
    by_cases hfirst : k = j
    · rw [if_neg (by omega), if_pos hfirst, if_pos (by omega)]
    · rw [if_neg hfirst]
      exact if_congr (by omega) rfl rfl

/-- s with r more code lengths v (42_dynamic_header.md rule R284). -/
def lensAppended (r : Nat) (v : BitVec 4) (s : State) : State :=
  { s with lens := fillLens s.lens v s.lensCount.toNat r, lensCount := BitVec.ofNat 9 (s.lensCount.toNat + r) }

theorem appendLens_within {r : Nat} (v : BitVec 4) {s : State} (h : s.lensCount.toNat + r ≤ Config.nLens) :
    appendLens r v s = .ok () (lensAppended r v s) := by
  rw [appendLens, if_neg (Nat.not_lt.mpr h), lensAppended]

/-- Settles O23: CL_LEN appends one entry. -/
theorem codeLengthLiteralAppends : Obligations.CodeLengthLiteralAppends := by
  unfold Obligations.CodeLengthLiteralAppends
  intro v s hcount
  refine ⟨fillLens s.lens v s.lensCount.toNat 1, ?_, fun j h => ?_⟩
  · rw [exec, execClLen, appendLens_within v hcount, finish_ok, lensAppended]
  · rw [fillLens_getElem]
    exact if_congr (by omega) rfl rfl

/-! ## Runs of code lengths -/

/-- A run instruction: its count, base plus an n-bit field, then its entries (42_dynamic_header.md rule R286 to
rule R288). -/
def codeLengthRun (base n : Nat) (v : State → BitVec 4) (s : State) : Res Unit :=
  (readRepeat base n s).bind fun r s => lensRun r v s

theorem exec_clRep {s : State} (h : s.lensCount ≠ 0) :
    exec .clRep s = (codeLengthRun 3 2 previousLen s).finish := by
  rw [exec, execClRep, if_neg h, codeLengthRun]

theorem exec_zeroRun : ∀ p ∈ [(Instr.clZero3, 3, 3), (Instr.clZero11, 11, 7)], ∀ s,
    exec p.1 s = (codeLengthRun p.2.1 p.2.2 (fun _ => 0) s).finish := by
  simp only [List.forall_mem_cons]
  exact ⟨fun _ => rfl, fun _ => rfl, by simp⟩

theorem previousLen_eq (s : State) : previousLen s = s.lens.toList.getD (s.lensCount.toNat - 1) 0 := by
  rw [previousLen, List.getD_eq_getElem?_getD, Vector.getElem?_toList]

section Run

variable {base n : Nat} {v : State → BitVec 4} {s : State}

theorem codeLengthRun_of_hasBits (h : s.hasBits n) :
    codeLengthRun base n v s = lensRun (base + s.fieldAt s.pc n) v (s.atBit (s.pc + n)) := by
  rw [codeLengthRun, readRepeat, getBits_ok (.inr h), bind_ok, bind_ok]

/-- A run that ends within HLIT + HDIST (42_dynamic_header.md rule R284). -/
theorem codeLengthRun_within (h : s.hasBits n)
    (hfits : s.lensCount.toNat + (base + s.fieldAt s.pc n) ≤ s.lensTotal) (htotal : s.lensTotal ≤ 320) :
    codeLengthRun base n v s =
      .ok () (lensAppended (base + s.fieldAt s.pc n) (v (s.atBit (s.pc + n))) (s.atBit (s.pc + n))) := by
  rw [codeLengthRun_of_hasBits h, lensRun]
  exact (if_neg (Nat.not_lt.mpr hfits)).trans (appendLens_within _ (hfits.trans htotal))

/-- A run past HLIT + HDIST (42_dynamic_header.md rule R289). -/
theorem codeLengthRun_overflow (h : s.hasBits n)
    (hpast : s.lensTotal < s.lensCount.toNat + (base + s.fieldAt s.pc n)) :
    codeLengthRun base n v s = .raise .codeLengthsOverflow (s.atBit (s.pc + n)) := by
  rw [codeLengthRun_of_hasBits h, lensRun]
  exact if_pos hpast

end Run

/-- Settles O24: the copied entry is read after the extra bits, which leave LENS. -/
theorem repeatCopiesPreviousLength : Obligations.RepeatCopiesPreviousLength := by
  unfold Obligations.RepeatCopiesPreviousLength
  intro s c r hpos hbits hfits htotal
  have hcount : s.lensCount ≠ 0 := fun h => by simp [c, h] at hpos
  refine ⟨fillLens s.lens (s.lens.toList.getD (c - 1) 0) c r, ?_, fillLens_getElem _ _ c r⟩
  rw [exec_clRep hcount, codeLengthRun_within hbits hfits htotal, finish_ok, previousLen_eq]
  rfl

/-- Settles O25: a zero run reads no entry, so it needs none before it. -/
theorem zeroRunsAppendZeros : Obligations.ZeroRunsAppendZeros := by
  unfold Obligations.ZeroRunsAppendZeros
  intro p hp s c r hbits hfits htotal
  refine ⟨fillLens s.lens 0 c r, ?_, fillLens_getElem _ _ c r⟩
  rw [exec_zeroRun p hp, codeLengthRun_within hbits hfits htotal, finish_ok]
  rfl

/-- Settles O26: CL_REP tests LENS_COUNT first; every run tests the total between its extra bits and its entries. -/
theorem runsPastTheTotalRaise : Obligations.RunsPastTheTotalRaise := by
  unfold Obligations.RunsPastTheTotalRaise
  refine ⟨fun s h => by rw [exec, execClRep, if_pos h], List.forall_mem_cons.mpr ⟨?rep, ?zeros⟩⟩
  case rep =>
    intro s hcount hbits hpast
    rw [exec_clRep (hcount.resolve_right fun hne => hne rfl), codeLengthRun_overflow hbits hpast, finish_raise]
  case zeros =>
    intro p hp s _ hbits hpast
    rw [exec_zeroRun p hp, codeLengthRun_overflow hbits hpast, finish_raise]

/-! ## The code-length lengths of the header -/

/-- CLEN_LENS once the lengths of the listed symbols were read at stream bit k on, in the list's order; the other
symbols keep theirs (42_dynamic_header.md rule R282). -/
def State.clenLensRead (s : State) (k : Nat) (syms : List Nat) : Vector (BitVec 3) 19 :=
  Vector.ofFn fun j =>
    if j.val ∈ syms then BitVec.ofNat 3 (s.fieldAt (k + 3 * syms.idxOf j.val) 3) else s.clenLens[j]

theorem clenLensRead_nil (s : State) (k : Nat) : s.clenLensRead k [] = s.clenLens := by
  ext j hj
  simp [State.clenLensRead]

/-- s with the length at the cursor read as symbol sym's. -/
def clenLenRead (sym : Nat) (s : State) : State :=
  { s.atBit (s.pc + 3) with clenLens := s.clenLens.setIfInBounds sym (BitVec.ofNat 3 (s.fieldAt s.pc 3)) }

@[simp] theorem clenLenRead_pc (sym : Nat) (s : State) : (clenLenRead sym s).pc = s.pc + 3 :=
  atBit_pc s (s.pc + 3)

theorem clenLenRead_fieldAt (sym : Nat) (s : State) (k n : Nat) : (clenLenRead sym s).fieldAt k n = s.fieldAt k n :=
  fieldAt_congr (s := s) (t := clenLenRead sym s) rfl k n

theorem clenLensRead_cons {sym : Nat} {syms : List Nat} (h : sym ∉ syms) (s : State) :
    (clenLenRead sym s).clenLensRead (s.pc + 3) syms = s.clenLensRead s.pc (sym :: syms) := by
  ext1 j hj
  simp only [State.clenLensRead, Vector.getElem_ofFn, clenLenRead_fieldAt, List.mem_cons, Fin.getElem_fin]
  by_cases hmem : j ∈ syms
  · have hne : sym ≠ j := fun he => h (he ▸ hmem)
    rw [if_pos hmem, if_pos (.inr hmem), List.idxOf_cons_ne _ hne, Nat.mul_succ, Nat.add_right_comm, Nat.add_assoc]
  · by_cases heq : j = sym
    · subst heq
      simp [hmem, clenLenRead]
    · simp [hmem, heq, clenLenRead, Ne.symm heq]

theorem readClenLens_ok {syms : List Nat} {s : State} (hnodup : syms.Nodup)
    (h : s.pc + 3 * syms.length ≤ 8 * s.inLen ∨ syms = []) :
    readClenLens syms s =
      .ok () { s.atBit (s.pc + 3 * syms.length) with clenLens := s.clenLensRead s.pc syms } := by
  induction syms generalizing s with
  | nil => simp [readClenLens, clenLensRead_nil]
  | cons sym syms ih =>
    obtain ⟨hsym, hnodup⟩ := List.nodup_cons.mp hnodup
    have hbits : s.pc + 3 * (syms.length + 1) ≤ 8 * s.inLen := h.resolve_right (List.cons_ne_nil _ _)
    have hrest : (clenLenRead sym s).pc + 3 * syms.length ≤ 8 * (clenLenRead sym s).inLen := by
      rw [clenLenRead_pc]
      exact Nat.le_trans (by omega) hbits
    rw [readClenLens, getBits_ok (.inr (Nat.le_trans (by omega) hbits)), bind_ok]
    change readClenLens syms (clenLenRead sym s) = _
    rw [ih hnodup (.inl hrest), clenLenRead_pc, clenLensRead_cons hsym, List.length_cons, Nat.mul_succ,
      Nat.add_assoc, Nat.add_comm 3]
    rfl

/-- Reading the first n symbols of ORDER into cleared lengths. -/
theorem clenLensRead_take_clenOrder {s : State} (hclear : s.clenLens = Vector.replicate 19 0) (k n : Nat) :
    s.clenLensRead k (clenOrder.take n) = s.sentClenLens k n := by
  ext1 j hj
  simp only [State.clenLensRead, State.sentClenLens, Vector.getElem_ofFn, hclear]
  have hmem : j ∈ clenOrder := by
    have hall : ∀ i < 19, i ∈ clenOrder := by decide
    exact hall j hj
  have hiff := List.mem_take_iff_idxOf_lt (n := n) hmem
  by_cases hsent : j ∈ clenOrder.take n
  · rw [if_pos hsent, (List.take_prefix n clenOrder).idxOf_eq_of_mem hsent]
    exact (if_pos (hiff.mp hsent)).symm
  · rw [if_neg hsent]
    exact (Vector.getElem_replicate _).trans (if_neg (mt hiff.mpr hsent)).symm

/-! ## The dynamic header -/

theorem hclenRead_hclen (s : State) : (hclenRead s).hclen.toNat = s.fieldAt (s.pc + 10) 4 + 4 := by
  have := fieldAt_lt s (s.pc + 10) 4
  rw [hclenRead, BitVec.toNat_ofNat]
  omega

theorem sentClenLens_congr {s t : State} (h : t.inMem = s.inMem) (k n : Nat) :
    t.sentClenLens k n = s.sentClenLens k n := by
  simp only [State.sentClenLens, fieldAt_congr h]

/-- The state after the code-length lengths were read (42_dynamic_header.md rule R282). -/
def clenLensSent (s : State) : State :=
  let n := s.fieldAt (s.pc + 10) 4 + 4
  { (hclenRead s).atBit (s.pc + 14 + 3 * n) with clenLens := s.sentClenLens (s.pc + 14) n }

theorem readClenLens_header {s : State} (h : s.hasBits (14 + 3 * (s.fieldAt (s.pc + 10) 4 + 4))) :
    readClenLens (clenOrder.take (hclenRead s).hclen.toNat) (clenLensCleared s) = .ok () (clenLensSent s) := by
  have hfield := fieldAt_lt s (s.pc + 10) 4
  have hlength : (clenOrder.take (hclenRead s).hclen.toNat).length = s.fieldAt (s.pc + 10) 4 + 4 := by
    rw [List.length_take, hclenRead_hclen, show clenOrder.length = 19 from rfl]
    omega
  have hnodup : clenOrder.Nodup := by decide
  rw [readClenLens_ok (hnodup.sublist (List.take_sublist _ _)), hlength, clenLensRead_take_clenOrder rfl,
    hclenRead_hclen, clenLensCleared_pc, sentClenLens_congr (s := s) (t := clenLensCleared s) rfl]
  · rfl
  · rw [hlength, clenLensCleared_pc, clenLensCleared_inLen, Nat.add_assoc]
    exact .inl h

theorem dynamicHeader_of_hasBits {s : State} (h14 : s.hasBits 14)
    (h : s.hasBits (14 + 3 * (s.fieldAt (s.pc + 10) 4 + 4))) :
    dynamicHeader s = (buildClenTree (clenLensSent s)).bind fun _ s =>
      .ok () { s with phase := .dynLens, lensCount := 0 } := by
  rw [dynamicHeader, readCounts_ok h14, bind_ok]
  change (readClenLens _ (clenLensCleared s)).bind _ = _
  rw [readClenLens_header h, bind_ok]

theorem buildClenTree_ok {s : State} {t : Tree} (h : buildTree (s.clenLens.toList.map BitVec.toNat) 7 = .ok t) :
    buildClenTree s = .ok () { s with clenTree := t } := by
  rw [buildClenTree, h]

theorem buildClenTree_error {s : State} {e : Err} (h : buildTree (s.clenLens.toList.map BitVec.toNat) 7 = .error e) :
    buildClenTree s = .raise .badCodeLengths s := by
  cases buildTree_error h
  rw [buildClenTree, h]

/-- The state after the header of a dynamic block (41_block_dispatch.md rule R243, 42_dynamic_header.md rule R280). -/
def dynamicStart (final : BitVec 1) (s : State) : State := { setHeader final 2 s with phase := .dynHdr }

theorem exec_blkDynamic (final : BitVec 1) (s : State) :
    exec (.blkDynamic final) s = (dynamicHeader (dynamicStart final s)).finish := rfl

/-- The operands of a dynamic header are read alike before and after its own registers are written. -/
theorem clenLensSent_dynamicStart (final : BitVec 1) (s : State) :
    let n := s.fieldAt (s.pc + 10) 4 + 4
    clenLensSent (dynamicStart final s) = { s.atBit (s.pc + 14 + 3 * n) with
      bfinal := final, btype := 2, hlit := BitVec.ofNat 9 (s.fieldAt s.pc 5 + 257),
      hdist := BitVec.ofNat 6 (s.fieldAt (s.pc + 5) 5 + 1), hclen := BitVec.ofNat 5 n,
      clenLens := s.sentClenLens (s.pc + 14) n, phase := .dynHdr } := by
  have hfield := fieldAt_congr (s := s) (t := dynamicStart final s) rfl
  have hsent := sentClenLens_congr (s := s) (t := dynamicStart final s) rfl
  have hpc : (dynamicStart final s).pc = s.pc := rfl
  simp only [clenLensSent, hclenRead, hfield, hsent, hpc]
  simp only [dynamicStart, setHeader, State.atBit]

/-- BLK_DYNAMIC up to its code-length tree. -/
theorem exec_blkDynamic_of_hasBits (final : BitVec 1) {s : State} (h14 : s.hasBits 14)
    (h : s.hasBits (14 + 3 * (s.fieldAt (s.pc + 10) 4 + 4))) :
    exec (.blkDynamic final) s = ((buildClenTree (clenLensSent (dynamicStart final s))).bind fun _ s =>
      .ok () { s with phase := .dynLens, lensCount := 0 }).finish := by
  rw [← fieldAt_congr (s := s) (t := dynamicStart final s) rfl] at h
  rw [exec_blkDynamic, dynamicHeader_of_hasBits (s := dynamicStart final s) h14 h]

/-- Settles O20: the lengths stand in CLEN_LENS when BuildTree reads them, and the header's registers do not matter
for what is read. -/
theorem dynamicHeaderBuildsCodeLengthTree : Obligations.DynamicHeaderBuildsCodeLengthTree := by
  unfold Obligations.DynamicHeaderBuildsCodeLengthTree
  intro final s hclen ls t h14 h
  have hsent : clenLensSent (dynamicStart final s) = { t with phase := .dynHdr } := clenLensSent_dynamicStart final s
  rw [exec_blkDynamic_of_hasBits final h14 h, hsent]
  refine ⟨fun tree htree => ?built, fun e herror => ?malformed⟩
  case built => rw [buildClenTree_ok (s := { t with phase := .dynHdr }) htree, bind_ok, finish_ok]
  case malformed => rw [buildClenTree_error (s := { t with phase := .dynHdr }) herror, bind_raise, finish_raise]

end Sys2Proof.Machine
end

section
/-! The symbol loop (43_symbol_loop.md): the instructions of LITSYM and DISTSYM, and the two steps of a
back-reference as its one procedure. -/

namespace Sys2Proof.Machine

/-! ## Literals, the end of a block and the reserved encodings -/

/-- The slot at which a window write sets WIN_WRAPPED (44_window.md rule R402). -/
theorem wrappedAfter_eq (cur : BitVec 15) (wrapped : BitVec 1) :
    wrappedAfter cur wrapped = if cur = 32767 then 1 else wrapped := by
  have hlast : cur.toNat = Config.winSize - 1 ↔ cur = 32767 := BitVec.toNat_inj (y := 32767)
  exact if_congr hlast rfl rfl

/-- One emitted byte: OUT and the window slot at the cursor hold it (00_scope.md rule R13). -/
theorem emitted_singleton (b : Byte) (s : State) :
    emitted [b] s = { s with
      out := s.out ++ [b], outLen := s.outLen + 1, win := Memory.write s.win s.winCur.toNat b,
      winCur := s.winCur + 1, winWrapped := if s.winCur = 32767 then 1 else s.winWrapped } := by
  rw [← wrappedAfter_eq]
  rfl

/-- Settles O27: LIT is one Emit below the bound, EOB one update of PHASE. -/
theorem literalAndEndOfBlock : Obligations.LiteralAndEndOfBlock := by
  unfold Obligations.LiteralAndEndOfBlock
  refine ⟨fun b s hroom => ?literal, fun s => rfl⟩
  rw [exec, execLit, emit_below b hroom, finish_ok, emitted_singleton]

/-- Settles O35: each reserved encoding is one error entry. -/
theorem reservedEncodingsRaise : Obligations.ReservedEncodingsRaise := by
  unfold Obligations.ReservedEncodingsRaise
  exact fun _ => ⟨rfl, rfl, rfl, rfl, fun _ => rfl⟩

/-! ## Length instructions -/

theorem lbase_lengthRow : ∀ p ∈ lengthRows, lbase p.2.1 = p.2.2.2 := by decide

/-- The lengths of a row are 3 .. 258 (43_symbol_loop.md rule R325). -/
theorem length_bounds_lengthRow : ∀ p ∈ lengthRows, 3 ≤ p.2.2.2 ∧ p.2.2.2 + 2 ^ p.2.2.1 ≤ 259 := by decide

/-- MATCH_LEN where the extra bits are left (43_symbol_loop.md rule R324). -/
theorem readMatchLen_ok {sym : Nat} {s : State} (h : lext sym = 0 ∨ s.hasBits (lext sym)) :
    readMatchLen sym s = .ok () { s.atBit (s.pc + lext sym) with
      matchLen := BitVec.ofNat 9 (lbase sym + s.fieldAt s.pc (lext sym)) } := by
  rw [readMatchLen, getBits_ok h, bind_ok]

/-- The null check comes before any extra bit (43_symbol_loop.md rule R326). -/
theorem backRefLength_null (sym : Nat) {s : State} (h : s.distTree = .null) :
    backRefLength sym s = .raise .nullDistanceTree s := by
  rw [backRefLength, if_pos h]

/-- With a distance tree a length instruction reads MATCH_LEN and asks for its distance instruction. -/
theorem backRefLength_eq (sym : Nat) {s : State} (h : s.distTree ≠ .null) :
    backRefLength sym s = (readMatchLen sym s).bind fun _ s => .ok () { s with distNext := true } := by
  rw [backRefLength, if_neg h]

/-- Settles O29: every length instruction tests DIST_TREE first. -/
theorem nullDistanceTreeRaises : Obligations.NullDistanceTreeRaises := by
  unfold Obligations.NullDistanceTreeRaises
  intro p hp s hnull
  rw [exec_lengthRow p hp, backRefLength_null _ hnull, finish_raise]

/-- Settles O28: a row's base and its extra field fit MATCH_LEN. -/
theorem lengthInstructionsWriteMatchLen : Obligations.LengthInstructionsWriteMatchLen := by
  unfold Obligations.LengthInstructionsWriteMatchLen
  intro p hp s htree hbits
  have hext := lext_lengthRow p hp
  obtain ⟨hmin, hmax⟩ := length_bounds_lengthRow p hp
  have hfield := fieldAt_lt s s.pc p.2.2.1
  have hlen : (BitVec.ofNat 9 (p.2.2.2 + s.fieldAt s.pc p.2.2.1)).toNat = p.2.2.2 + s.fieldAt s.pc p.2.2.1 := by
    rw [BitVec.toNat_ofNat, Nat.mod_eq_of_lt (by omega)]
  refine ⟨BitVec.ofNat 9 (p.2.2.2 + s.fieldAt s.pc p.2.2.1), ?outcome, hlen, by omega, by omega⟩
  rw [exec_lengthRow p hp, backRefLength_eq _ htree, readMatchLen_ok (hext ▸ hbits), bind_ok, finish_ok, hext,
    lbase_lengthRow p hp]

/-! ## Distance instructions -/

theorem one_le_distRow : ∀ p ∈ distRows, 1 ≤ p.2.2.2 := by decide

/-- Settles O30: a row's base and its extra field fit MATCH_DIST, and the registers written before the copy are not
what it reads. -/
theorem distanceInstructionsCopy : Obligations.DistanceInstructionsCopy := by
  unfold Obligations.DistanceInstructionsCopy
  intro p hp s hwf hbits d n hvalid hroom
  have hext := dext_distRow p hp
  have hmin : 1 ≤ d := Nat.le_add_right_of_le (one_le_distRow p hp)
  have hmax : d ≤ 32768 := by
    have := distance_le_distRow p hp
    have := fieldAt_lt s s.pc p.2.2.1
    omega
  have hdist : (BitVec.ofNat 16 d).toNat = d := by rw [BitVec.toNat_ofNat, Nat.mod_eq_of_lt (by omega)]
  let t : State := { s.atBit (s.pc + p.2.2.1) with matchDist := BitVec.ofNat 16 d, distNext := false }
  have hcopy : writeToObject (BitVec.ofNat 16 d) n t = .ok () (emitted (copiedBytes d n t) t) := by
    rw [writeToObject_ok (s := t) hwf (by omega) (by omega) (by rw [hdist]; exact hvalid) hroom, hdist]
  refine ⟨hmin, hmax, ?outcome⟩
  rw [exec_distRow p hp, backRefDistance_eq (hext ▸ hbits), hext, dbase_distRow p hp]
  exact congrArg Res.finish hcopy

/-! ## A back-reference in two steps -/

/-- BackRef once its distance symbol is decoded (43_symbol_loop.md rule R323, rule R333, rule R334). -/
def backRefEnd (dsym : Nat) (s : State) : Res Unit :=
  if 30 ≤ dsym then .raise .distSymbolRange s
  else (readMatchDist dsym s).bind fun _ s => writeToObject s.matchDist s.matchLen.toNat s

theorem backRef_null (sym : Nat) {s : State} (h : s.distTree = .null) :
    backRef sym s = .raise .nullDistanceTree s := by
  rw [backRef, if_pos h]

theorem backRef_eq (sym : Nat) {s : State} (h : s.distTree ≠ .null) :
    backRef sym s = (readMatchLen sym s).bind fun _ s => (decodeSymbol s.distTree s).bind backRefEnd := by
  rw [backRef, if_neg h]
  rfl

theorem readMatchLen_cases (sym : Nat) (s : State) :
    (∃ k v, readMatchLen sym s = .ok () { s.atBit k with matchLen := v }) ∨
    (∃ k, readMatchLen sym s = .raise .inputExhausted (s.atBit k)) := by
  unfold readMatchLen
  rcases getBits_cases (lext sym) s with ⟨_, h⟩ | ⟨_, h⟩ <;> rw [h]
  · exact .inl ⟨_, _, rfl⟩
  · exact .inr ⟨_, rfl⟩

theorem decode_distRow : ∀ p ∈ distRows, decode .distsym p.2.1 = .ok p.1 := by
  intro p hp
  fin_cases hp <;> rfl

/-- Every distance symbol stands for an instruction that ends the back-reference (43_symbol_loop.md rule R329). -/
theorem exists_distanceInstr {dsym : Nat} (h : dsym < 32) :
    ∃ i, decode .distsym dsym = .ok i ∧ ∀ s, exec i s = (backRefEnd dsym { s with distNext := false }).finish := by
  by_cases hreserved : 30 ≤ dsym
  · obtain rfl | rfl : dsym = 30 ∨ dsym = 31 := by omega
    · exact ⟨.distRsv30, rfl, fun _ => rfl⟩
    · exact ⟨.distRsv31, rfl, fun _ => rfl⟩
  · obtain ⟨i, hi⟩ := exists_distRow (Nat.lt_of_not_le hreserved)
    refine ⟨i, decode_distRow _ hi, fun s => ?_⟩
    rw [exec_distRow _ hi, backRefEnd, if_neg hreserved]
    rfl

/-- The answer r with the model's own distNext set to v in its state. -/
def Res.setDistNext {α : Type} (v : Bool) : Res α → Res α
  | .ok a s => .ok a { s with distNext := v }
  | .raise e s => .raise e { s with distNext := v }
  | .stop x => .stop x

theorem readBit_distNext (v : Bool) (s : State) :
    readBit { s with distNext := v } = (readBit s).setDistNext v := by
  rw [readBit_eq, readBit_eq, apply_ite (Res.setDistNext v)]
  rfl

/-- A sequence does not read distNext where its parts do not. -/
theorem bind_setDistNext {α β : Type} {v : Bool} (r : Res α) {f : α → State → Res β}
    (hf : ∀ a s, f a { s with distNext := v } = (f a s).setDistNext v) :
    (r.setDistNext v).bind f = (r.bind f).setDistNext v := by
  cases r with
  | ok a s => exact hf a s
  | raise e s => rfl
  | stop x => rfl

theorem walkTree_distNext (t : Tree) (v : Bool) (s : State) :
    walkTree t { s with distNext := v } = (walkTree t s).setDistNext v := by
  induction t generalizing s with
  | null => rfl
  | leaf sym => rfl
  | node l r ihl ihr =>
    rw [walkTree, walkTree, readBit_distNext]
    refine bind_setDistNext _ fun b s => ?_
    cases b with
    | false => exact ihl s
    | true => exact ihr s

/-- DecodeSymbol does not read distNext. -/
theorem decodeSymbol_distNext (t : Tree) (v : Bool) (s : State) :
    decodeSymbol t { s with distNext := v } = (decodeSymbol t s).setDistNext v := by
  cases t with
  | null => rfl
  | leaf sym =>
    rw [decodeSymbol, decodeSymbol, readBit_distNext]
    exact bind_setDistNext _ fun _ _ => rfl
  | node l r => exact walkTree_distNext (.node l r) v s

theorem setDistNext_self {v : Bool} {s : State} (h : s.distNext = v) : { s with distNext := v } = s := by
  subst h
  rfl

/-- The step after a length instruction decodes the distance symbol and ends the back-reference. -/
theorem step_distance {s : State} (hb : s.status = .busy) (hp : s.phase = .symbols) (hh : s.host = [])
    (hn : s.distNext = false) (ht : s.distTree.symsBelow 32 = true) :
    clearDistNext (step { s with distNext := true }) =
      clearDistNext ((decodeSymbol s.distTree s).bind backRefEnd).finish := by
  rw [step_engine (s := { s with distNext := true }) hb hh,
    engineAction_distance (s := { s with distNext := true }) hp rfl, decodeSymbol_distNext]
  rcases decodeSymbol_cases s.distTree s with ⟨dsym, k, hok, _, _, hsyms⟩ | ⟨e, k, hraise, _⟩
  · obtain ⟨i, hdecode, hexec⟩ := exists_distanceInstr (hsyms 32 ht)
    have hcleared : ({ s.atBit k with distNext := false } : State) = s.atBit k := setDistNext_self hn
    rw [hok, Res.setDistNext, fetched_outcome rfl hdecode, hexec, hcleared, bind_ok]
  · rw [hraise]
    rfl

/-- Settles O36: the length instruction is the procedure up to its distance symbol, the step after it the rest. -/
theorem twoStepsAreOneBackReference : Obligations.TwoStepsAreOneBackReference := by
  unfold Obligations.TwoStepsAreOneBackReference
  intro p hp s hb hphase hh hn ht
  rw [exec_lengthRow p hp]
  by_cases hnull : s.distTree = .null
  · rw [backRefLength_null _ hnull, backRef_null _ hnull]
    rfl
  rw [backRefLength_eq _ hnull, backRef_eq _ hnull]
  rcases readMatchLen_cases p.2.1 s with ⟨k, v, hok⟩ | ⟨k, hraise⟩
  · let t : State := { s.atBit k with matchLen := v }
    have hrunning : ({ t with distNext := true } : State).status ≠ .error := fun h => nomatch hb.symm.trans h
    rw [hok, bind_ok, bind_ok, finish_ok]
    exact (congrArg clearDistNext (if_neg hrunning)).trans (step_distance (s := t) hb hphase hh hn ht)
  · rw [hraise]
    rfl

end Sys2Proof.Machine
end

section
/-! The window in a back-reference (44_window.md): the distance that reaches an unwritten slot, and the distance of the
whole window. -/

namespace Sys2Proof.Machine

/-! ## Distances past the bytes written -/

/-- The distance of a row fits MATCH_DIST (43_symbol_loop.md rule R328). -/
theorem distRow_matchDist_toNat {p : Instr × Nat × Nat × Nat} (hp : p ∈ distRows) (s : State) :
    (BitVec.ofNat 16 (p.2.2.2 + s.fieldAt s.pc p.2.2.1)).toNat = p.2.2.2 + s.fieldAt s.pc p.2.2.1 := by
  have hmax := distance_le_distRow p hp
  have hfield := fieldAt_lt s s.pc p.2.2.1
  rw [BitVec.toNat_ofNat, Nat.mod_eq_of_lt (by omega)]

/-- Settles O31: the copy tests MATCH_DIST, which holds the row's distance, before its first byte. -/
theorem distanceTooFarRaises : Obligations.DistanceTooFarRaises := by
  unfold Obligations.DistanceTooFarRaises
  intro p hp s hbits d hfar
  have hext := dext_distRow p hp
  let t : State := { s.atBit (s.pc + p.2.2.1) with matchDist := BitVec.ofNat 16 d, distNext := false }
  have hraise : writeToObject (BitVec.ofNat 16 d) s.matchLen.toNat t = .raise .distanceTooFar t :=
    writeToObject_tooFar (s := t) (by rw [distRow_matchDist_toNat hp s]; exact hfar)
  rw [exec_distRow p hp, backRefDistance_eq (hext ▸ hbits), hext, dbase_distRow p hp]
  exact congrArg Res.finish hraise

/-! ## Copies of the whole window -/

/-- An append of the bytes that stand where it writes leaves the window as it is. -/
theorem winAppendData_win_of_same {bs : List Byte} {s : State} (hwf : Memory.wf s.win) (hlen : bs.length ≤ 32768)
    (hsame : ∀ i, i < bs.length → bs.getD i 0 = Memory.read s.win ((s.winCur.toNat + i) % 32768)) :
    (winAppendData bs s).win = s.win := by
  refine memory_ext (winAppendData_wf bs hwf) hwf fun a => ?_
  by_cases ha : ∃ i, i < bs.length ∧ a = (s.winCur.toNat + i) % 32768
  · obtain ⟨i, hi, rfl⟩ := ha
    rw [winAppendData_read bs hwf i hi (by omega), hsame i hi]
  · exact winAppendData_read_other bs hwf a fun i hi hai => ha ⟨i, hi, hai⟩

/-- The n oldest bytes of a window that wrapped, oldest first: its cursor stands at the oldest one. -/
def oldestBytes (n : Nat) (s : State) : List Byte :=
  (List.range n).map fun k => Memory.read s.win ((s.winCur.toNat + k) % 32768)

@[simp] theorem oldestBytes_length (n : Nat) (s : State) : (oldestBytes n s).length = n := by
  rw [oldestBytes, List.length_map, List.length_range]

theorem oldestBytes_getD {n i : Nat} (s : State) (hi : i < n) :
    (oldestBytes n s).getD i 0 = Memory.read s.win ((s.winCur.toNat + i) % 32768) := by
  simp [oldestBytes, List.getD, hi]

/-- Distance 32768 starts at the cursor's own slot (44_window.md rule R409). -/
theorem copiedBytes_wholeWindow {n : Nat} (hn : n ≤ 32768) (s : State) :
    copiedBytes 32768 n s = oldestBytes n s := by
  refine List.map_congr_left fun k hk => ?_
  have hslot : s.winCur.toNat + 32768 - 32768 + k % 32768 = s.winCur.toNat + k := by
    have := List.mem_range.mp hk
    omega
  rw [hslot]

/-- Rewritten from the cursor on, the oldest bytes go to the slots they stand in. -/
theorem emitted_oldestBytes_win {n : Nat} {s : State} (hwf : Memory.wf s.win) (hn : n ≤ 32768) :
    (emitted (oldestBytes n s) s).win = s.win := by
  rw [emitted_win]
  refine winAppendData_win_of_same hwf (by rwa [oldestBytes_length]) fun i hi => ?_
  rw [oldestBytes_length] at hi
  exact oldestBytes_getD s hi

theorem dist29_mem_distRows : (Instr.dist29, 29, 13, 24577) ∈ distRows := by decide

/-- Settles O32: DIST29 with extra field 8191 is the distance row of 32768, a distance past every cursor; its copy
writes each byte to the slot the byte was read from. -/
theorem wholeWindowCopyKeepsWindow : Obligations.WholeWindowCopyKeepsWindow := by
  unfold Obligations.WholeWindowCopyKeepsWindow
  intro s hbits hfield
  let t : State := { s.atBit (s.pc + 13) with matchDist := 32768, distNext := false }
  refine ⟨fun hwf hwrapped hroom => ?copy, fun hunwrapped => ?tooFar⟩
  case copy =>
    have hn : s.matchLen.toNat ≤ 32768 := by
      have := s.matchLen.isLt
      omega
    obtain ⟨-, -, hexec⟩ :=
      distanceInstructionsCopy _ dist29_mem_distRows s hwf (.inr hbits) (.inl hwrapped) hroom
    simp only [hfield, Nat.reduceAdd, copiedBytes_wholeWindow hn] at hexec
    refine ⟨emitted (oldestBytes s.matchLen.toNat t) t, hexec, emitted_oldestBytes_win (s := t) hwf hn, ?matchDist,
      ?cursor, emitted_out _ t⟩
    case matchDist => rw [emitted_eq]
    case cursor =>
      rw [emitted_winCur, winAppendData_cur, oldestBytes_length]
      rfl
  case tooFar =>
    have hfar : ¬(s.winWrapped = 1 ∨ 24577 + s.fieldAt s.pc 13 ≤ s.winCur.toNat) := by
      rintro (hwrapped | hwritten)
      · exact hunwrapped hwrapped
      · have := s.winCur.isLt
        omega
    have hexec := distanceTooFarRaises _ dist29_mem_distRows s (.inr hbits) hfar
    simp only [hfield] at hexec
    exact hexec

end Sys2Proof.Machine
end

section
/-! The scanline defilterer (45_defilter.md, 46_host_interface.md rule R475): the predictors, a row's reconstruction and
the instruction that makes it, and the start and the end of a DEFILTER command. -/

namespace Sys2Proof.Machine

/-! ## The Paeth predictor -/

/-- Settles O40: in each branch of the predictor the answer's distance is the least of the three. -/
theorem paethChoosesNearest : Obligations.PaethChoosesNearest := by
  unfold Obligations.PaethChoosesNearest
  intro a b c p dist r
  have hr : r = if dist a ≤ dist b ∧ dist a ≤ dist c then a else if dist b ≤ dist c then b else c := rfl
  simp only [List.forall_mem_cons, List.not_mem_nil, false_imp_iff, implies_true, and_true]
  by_cases ha : dist a ≤ dist b ∧ dist a ≤ dist c
  · rw [hr, if_pos ha]
    exact ⟨⟨le_rfl, ha.1, ha.2⟩, fun _ _ => rfl, fun h => absurd ha h, fun h => absurd ha h⟩
  · by_cases hb : dist b ≤ dist c
    · rw [hr, if_neg ha, if_pos hb]
      exact ⟨⟨by omega, le_rfl, hb⟩, fun h1 h2 => absurd ⟨h1, h2⟩ ha, fun _ _ => rfl, fun _ h => absurd hb h⟩
    · rw [hr, if_neg ha, if_neg hb]
      exact ⟨⟨by omega, by omega, le_rfl⟩, fun h1 h2 => absurd ⟨h1, h2⟩ ha, fun _ h => absurd h hb, fun _ _ => rfl⟩

/-! ## A row as a list -/

theorem reconFrom_length (pred : Byte → Byte → Byte → Byte) (p : Nat) (up : Nat → Byte) (done filtered : List Byte) :
    (reconFrom pred p up done filtered).length = done.length + filtered.length := by
  induction filtered generalizing done with
  | nil => rfl
  | cons f fs ih =>
    rw [reconFrom, ih, List.length_append, List.length_singleton, List.length_cons]
    omega

theorem reconRow_length (pred : Byte → Byte → Byte → Byte) (p : Nat) (up : Nat → Byte) (filtered : List Byte) :
    (reconRow pred p up filtered).length = filtered.length := by
  rw [reconRow, reconFrom_length, List.length_nil, Nat.zero_add]

theorem readBytes_length (m : Memory) (a n : Nat) : (Memory.readBytes m a n).length = n := by
  induction n generalizing a with
  | zero => rfl
  | succ n ih => rw [Memory.readBytes, List.length_cons, ih]

/-- Entry i of the forward filter: the byte less its predictor (45_defilter.md rule R437). -/
theorem forwardRow_drop (pred : Byte → Byte → Byte → Byte) (p : Nat) (up : Nat → Byte) {x : List Byte} {i : Nat}
    (h : i < x.length) :
    (forwardRow pred p up x).drop i =
      (x.getD i 0 - pred (if p ≤ i then x.getD (i - p) 0 else 0) (up i) (if p ≤ i then up (i - p) else 0)) ::
        (forwardRow pred p up x).drop (i + 1) := by
  rw [List.drop_eq_getElem_cons (by simpa [forwardRow] using h)]
  simp [forwardRow]

/-- The left neighbour of the byte after `done` lies in `done`, where pixels have a size. -/
theorem getD_left_append {p : Nat} (hp : 0 < p) (done rest : List Byte) (h : p ≤ done.length) :
    (done ++ rest).getD (done.length - p) 0 = done.getD (done.length - p) 0 :=
  List.getD_append _ _ _ _ (by omega)

/-- Reconstruction inverts the forward filter from any point of a row on (45_defilter.md rule R438). -/
theorem reconFrom_forwardRow (pred : Byte → Byte → Byte → Byte) {p : Nat} (hp : 0 < p) (up : Nat → Byte)
    (done rest : List Byte) :
    reconFrom pred p up done ((forwardRow pred p up (done ++ rest)).drop done.length) = done ++ rest := by
  induction rest generalizing done with
  | nil => rw [List.append_nil, List.drop_of_length_le (by simp [forwardRow]), reconFrom]
  | cons b rest ih =>
    have hleft : (if p ≤ done.length then (done ++ b :: rest).getD (done.length - p) 0 else 0) =
        if p ≤ done.length then done.getD (done.length - p) 0 else 0 :=
      ite_congr rfl (getD_left_append hp done (b :: rest)) fun _ => rfl
    have hnext := ih (done ++ [b])
    rw [List.append_assoc, List.singleton_append, List.length_append, List.length_singleton] at hnext
    rw [forwardRow_drop pred p up (by simp), reconFrom, hleft]
    simpa using hnext

/-- A row that the forward filter made of x reconstructs to x (45_defilter.md rule R438). -/
theorem reconRow_forwardRow (pred : Byte → Byte → Byte → Byte) {p : Nat} (up : Nat → Byte) {x : List Byte}
    (hp : 0 < x.length → 0 < p) : reconRow pred p up (forwardRow pred p up x) = x := by
  rcases x.eq_nil_or_concat with rfl | ⟨_, _, rfl⟩
  · rfl
  · exact reconFrom_forwardRow pred (hp (by simp)) up [] _

/-! ## A row in the machine -/

/-- The state after the bytes `done` of a row that starts in s (45_defilter.md rule R420). -/
def rowBytesDone (done : List Byte) (s : State) : State :=
  { s with
    bytePos := s.bytePos + done.length, colI := if done.length = 0 then s.colI else done.length - 1,
    out := s.out ++ done, outLen := s.outLen + done.length, curRow := Memory.writeBytes s.curRow 0 done }

theorem rowBytesDone_nil (s : State) : rowBytesDone [] s = s := by
  simp [rowBytesDone, Memory.writeBytes]

theorem rowBytesDone_hasRoom {n : Nat} {done : List Byte} {s : State} (h : s.hasRoom (done.length + n)) :
    (rowBytesDone done s).hasRoom n := by
  intro c hc
  have := h c hc
  show s.outLen + done.length + n ≤ c
  omega

/-- Byte `done.length` of a row, in terms of the row as a list (45_defilter.md rule R425). -/
theorem rowByte_rowBytesDone (pred : Byte → Byte → Byte → Byte) (done : List Byte) {s : State}
    (hwf : Memory.wf s.curRow) (hp : 0 < s.dfPixelSize.toNat) :
    rowByte pred done.length (rowBytesDone done s) =
      Memory.read s.inMem (s.bytePos + done.length) +
        pred (if s.dfPixelSize.toNat ≤ done.length then done.getD (done.length - s.dfPixelSize.toNat) 0 else 0)
          (s.rowAbove done.length)
          (if s.dfPixelSize.toNat ≤ done.length then s.rowAbove (done.length - s.dfPixelSize.toNat) else 0) := by
  have hleft : neighbourA done.length (rowBytesDone done s) =
      if s.dfPixelSize.toNat ≤ done.length then done.getD (done.length - s.dfPixelSize.toNat) 0 else 0 := by
    refine ite_congr rfl (fun h : s.dfPixelSize.toNat ≤ done.length => ?_) fun _ => rfl
    show Memory.read (Memory.writeBytes s.curRow 0 done) (done.length - s.dfPixelSize.toNat) = _
    rw [read_writeBytes 0 done hwf, if_pos (by omega), Nat.sub_zero]
  have hupLeft : neighbourC done.length (rowBytesDone done s) =
      if s.dfPixelSize.toNat ≤ done.length then s.rowAbove (done.length - s.dfPixelSize.toNat) else 0 :=
    ite_and ..
  rw [rowByte, hleft, hupLeft]
  rfl

/-- One more byte of a row. -/
theorem rowByteDone_rowBytesDone (pred : Byte → Byte → Byte → Byte) (done : List Byte) (s : State) :
    rowByteDone pred done.length (rowBytesDone done s) =
      rowBytesDone (done ++ [rowByte pred done.length (rowBytesDone done s)]) s := by
  simp [rowByteDone, rowByteStored, State.skipByte, rowBytesDone, writeBytes_append, Nat.add_assoc]

/-- One round of the row's loop where the input has a byte and OUT has room for it. -/
theorem filterBytes_step (pred : Byte → Byte → Byte → Byte) (n i : Nat) {s : State} (hin : s.bytePos < s.inLen)
    (hroom : s.hasRoom 1) : filterBytes pred (n + 1) i s = filterBytes pred n (i + 1) (rowByteDone pred i s) := by
  rw [filterBytes_succ hin, outAppend_ok (s := rowByteStored pred i s) _ hroom]
  rfl

/-- The rest of a row that the input holds and OUT has room for (45_defilter.md rule R420). -/
theorem filterBytes_ok (pred : Byte → Byte → Byte → Byte) {n : Nat} (done : List Byte) {s : State}
    (hwf : Memory.wf s.curRow) (hp : 0 < n → 0 < s.dfPixelSize.toNat) (hin : s.bytePos + done.length + n ≤ s.inLen)
    (hroom : s.hasRoom (done.length + n)) :
    filterBytes pred n done.length (rowBytesDone done s) = .ok () (rowBytesDone
      (reconFrom pred s.dfPixelSize.toNat s.rowAbove done
        (Memory.readBytes s.inMem (s.bytePos + done.length) n)) s) := by
  induction n generalizing done with
  | zero => rfl
  | succ n ih =>
    have hpos := hp n.succ_pos
    have hbyte : s.bytePos + done.length < s.inLen := by omega
    have hroom1 : (rowBytesDone done s).hasRoom 1 := rowBytesDone_hasRoom (hasRoom_mono hroom (by omega))
    have hlen (b : Byte) : (done ++ [b]).length = done.length + 1 := List.length_append
    have hnext (b : Byte) := ih (done ++ [b]) (fun _ => hpos) (by rw [hlen]; omega)
      (by rw [hlen, Nat.add_right_comm]; exact hroom)
    simp only [hlen] at hnext
    rw [filterBytes_step pred n _ hbyte hroom1, rowByteDone_rowBytesDone, hnext, rowByte_rowBytesDone pred done hwf hpos]
    rfl

/-- A row instruction's work where the input holds the row and OUT has room for it (45_defilter.md rule R420). -/
theorem filterRow_ok (ft : BitVec 8) (pred : Byte → Byte → Byte → Byte) {s : State} (hwf : Memory.wf s.curRow)
    (hin : s.bytePos + s.rowBytes ≤ s.inLen) (hroom : s.hasRoom s.rowBytes) :
    filterRow ft pred s = .ok () (rowEnd (rowBytesDone
      (reconRow pred s.dfPixelSize.toNat s.rowAbove (Memory.readBytes s.inMem s.bytePos s.rowBytes))
      { s with ft := ft })) := by
  have hp : 0 < s.rowBytes → 0 < s.dfPixelSize.toNat := Nat.pos_of_mul_pos_left
  have hroom0 : s.hasRoom (0 + s.rowBytes) := by rwa [Nat.zero_add]
  have hrow := filterBytes_ok pred [] (s := { s with ft := ft }) hwf hp hin hroom0
  rw [rowBytesDone_nil, List.length_nil] at hrow
  rw [filterRow, hrow]
  rfl

@[simp] theorem rowEnd_out (s : State) : (rowEnd s).out = s.out := by
  rcases rowEnd_cases s with h | h <;> simp [h]

/-- The row just made is the next row's row above (45_defilter.md rule R435). -/
@[simp] theorem rowEnd_prevRow (s : State) : (rowEnd s).prevRow = s.curRow := by
  rcases rowEnd_cases s with h | h <;> simp [h]

/-- Settles O37: the row's loop, then the two ends of a row. -/
theorem filterInstructionsReconstructRows : Obligations.FilterInstructionsReconstructRows := by
  unfold Obligations.FilterInstructionsReconstructRows
  intro p hp s rb row t hwf hin hroom
  have hlen : row.length = rb := (reconRow_length ..).trans (readBytes_length ..)
  have hdone : rowBytesDone row { s with ft := p.2.1 } = { t with prevRow := s.prevRow } := by
    rw [rowBytesDone, hlen]
  rw [exec_filterRow p hp, filterRow_ok p.2.1 p.2.2 hwf hin hroom, finish_ok]
  exact congrArg Host.Outcome.next (congrArg rowEnd hdone)

/-- Settles O39: the row the instruction makes of the forward filter's bytes is x. -/
theorem filterInstructionsInvertForwardFilter : Obligations.FilterInstructionsInvertForwardFilter := by
  unfold Obligations.FilterInstructionsInvertForwardFilter
  intro p hp s x hwf hlen hin hroom hfiltered
  have hrb : s.rowBytes = x.length := hlen.symm
  have hpos : 0 < x.length → 0 < s.dfPixelSize.toNat := fun h => Nat.pos_of_mul_pos_left (hlen ▸ h)
  have hrow := filterRow_ok p.2.1 p.2.2 hwf (hrb ▸ hin) (hrb ▸ hroom)
  rw [hrb, hfiltered, reconRow_forwardRow p.2.2 s.rowAbove hpos] at hrow
  refine ⟨_, by rw [exec_filterRow p hp, hrow, finish_ok], ?out, fun i hi => ?prevRow⟩
  case out => rw [rowEnd_out, rowBytesDone]
  case prevRow =>
    rw [rowEnd_prevRow]
    exact (read_writeBytes 0 x hwf i).trans (if_pos (by omega))

/-! ## The start and the end of the command -/

theorem engineAction_rowsDone {s : State} (h : s.phase = .dfRow) (hge : s.dfHeight.toNat ≤ s.rowY.toNat) :
    engineAction s = .move (complete s) := by
  simp only [engineAction, h, if_neg (Nat.not_lt.mpr hge)]

/-- Settles O38: with no row left the engine's move is the command's completion. -/
theorem noRowsLeftCompletes : Obligations.NoRowsLeftCompletes := by
  unfold Obligations.NoRowsLeftCompletes
  intro s hb hh hp hge
  rw [step_engine hb hh, engineAction_rowsDone hp hge, Action.outcome, complete]

theorem exec_cmdDefilter {s : State} (h : s.status ≠ .busy) :
    exec .cmdDefilter s = (defilterChecks (startDefilter s)).finish := by
  rw [exec, execCmdDefilter, hostWriteCmd, if_neg h]

/-- The legal pixel sizes (45_defilter.md rule R421), as the check compares them. -/
theorem illegalPixelSize_iff : ∀ v : BitVec 3, (v.toNat ≠ 3 ∧ v.toNat ≠ 4) ↔ ¬(v = 3 ∨ v = 4) := by decide

theorem defilterChecks_illegal {s : State} (h : ¬(s.dfPixelSize = 3 ∨ s.dfPixelSize = 4)) :
    defilterChecks s = .raise .pixelSize s := by
  rw [defilterChecks, if_pos ((illegalPixelSize_iff _).mpr h)]

/-- A legal pixel size leaves the check of the input's length (45_defilter.md rule R422). -/
theorem defilterChecks_legal {s : State} (h : s.dfPixelSize = 3 ∨ s.dfPixelSize = 4) :
    defilterChecks s = if s.inLen < s.dfHeight.toNat * (1 + s.rowBytes) then .raise .rowDataShort s
      else .ok () { s with phase := .dfRow } := by
  rw [defilterChecks, if_neg fun hillegal => (illegalPixelSize_iff _).mp hillegal h]

/-- Settles O42: the initialisation writes none of what the checks read. -/
theorem defilterCommandStartsOrRaises : Obligations.DefilterCommandStartsOrRaises := by
  unfold Obligations.DefilterCommandStartsOrRaises
  intro s hs t legal need
  have hstart : startDefilter s = t := rfl
  have hneed : t.dfHeight.toNat * (1 + t.rowBytes) = need := rfl
  rw [exec_cmdDefilter hs, hstart]
  refine ⟨fun h => ?illegal, fun h (hshort : t.inLen < _) => ?short, fun h (hlong : _ ≤ t.inLen) => ?starts⟩
  case illegal => rw [defilterChecks_illegal (s := t) h, finish_raise]
  case short => rw [defilterChecks_legal (s := t) h, hneed, if_pos hshort, finish_raise]
  case starts => rw [defilterChecks_legal (s := t) h, hneed, if_neg (Nat.not_lt.mpr hlong), finish_ok]

end Sys2Proof.Machine
end

section
/-! The command interface (46_host_interface.md): the writes of CMD, the host's other moves, what stays between commands,
and the collaborator's checks. -/

namespace Sys2Proof.Machine

/-! ## Writes of CMD -/

theorem hostWriteCmd_idle (r : Res Unit) {s : State} (h : s.status ≠ .busy) : hostWriteCmd r s = r.finish := by
  rw [hostWriteCmd, if_neg h]

theorem hostWriteCmd_busy (r : Res Unit) {s : State} (h : s.status = .busy) :
    hostWriteCmd r s = .refused .cmdWhileBusy := by
  rw [hostWriteCmd, if_pos h]

/-- Settles O41: the instruction is the start of INFLATE, whose updates the statement lists. -/
theorem inflateCommandStarts : Obligations.InflateCommandStarts := by
  unfold Obligations.InflateCommandStarts
  intro s hs
  rw [exec, execCmdInflate, hostWriteCmd_idle _ hs, finish_ok, startInflate, initCommand]

/-- Settles O43: both writes are one update of CMD, and each command instruction tests STATUS first. -/
theorem otherCommandWrites : Obligations.OtherCommandWrites := by
  unfold Obligations.OtherCommandWrites
  refine fun s => ⟨fun hidle => ⟨?none, ?reserved⟩, fun hbusy => ?busy⟩
  case none => rw [exec, execCmdNone, hostWriteCmd_idle _ hidle, finish_ok, setCmd]
  case reserved => rw [exec, execCmdReserved, hostWriteCmd_idle _ hidle, finish_ok, setCmd]
  case busy =>
    simp only [List.forall_mem_cons]
    exact ⟨hostWriteCmd_busy _ hbusy, hostWriteCmd_busy _ hbusy, hostWriteCmd_busy _ hbusy,
      hostWriteCmd_busy _ hbusy, by simp⟩

/-! ## The host's other moves -/

/-- A passive move while a command runs: the engine takes its step and the move is gone (46_host_interface.md
rule R479). -/
theorem step_passive {s : State} {m : HostMove} {rest : List HostMove} (hb : s.status = .busy)
    (hh : s.host = m :: rest) (hm : m.isPassive = true) :
    step s = (engineAction { s with host := rest }).outcome := by
  have hreset : s.host.head? ≠ some .reset := by
    rw [hh]
    rintro ⟨⟩
    cases hm
  have htaken : s.afterPassiveMove = { s with host := rest } := by
    rw [State.afterPassiveMove, hh]
    exact if_pos hm
  rw [step_busy hb hreset, htaken]

/-- Settles O44: a reset acts before STATUS is tested, a passive move leaves the engine's step, and every other move
acts by its own update once no command runs. -/
theorem hostMovesAct : Obligations.HostMovesAct := by
  unfold Obligations.HostMovesAct
  refine ⟨fun s rest hh => ?reset, fun s hidle hh => step_idle hidle hh, fun s f v rest hb hh => ?ignored,
    fun s m rest hidle hh => ?moves⟩
  case reset => rw [step_reset hh, powerOn]
  case ignored =>
    have hwrite := step_passive hb hh rfl
    have hwait := step_passive (s := { s with host := .wait :: rest }) hb rfl rfl
    exact ⟨hwrite, hwrite.trans hwait.symm⟩
  case moves =>
    have hstep : m ≠ .reset → step s = (hostAction m { s with host := rest }).outcome := step_host hidle hh
    refine ⟨?_, ?_, ?_, ?_, ?_, ?_, fun hm hdone => ?loadOut, fun a bs hm hwf => ?writeIn⟩
    case loadOut =>
      subst hm
      refine ⟨Memory.writeBytes [] 0 s.out, (hstep nofun).trans (congrArg Action.outcome (if_pos hdone)), fun x hx => ?_⟩
      rw [read_writeBytes 0 s.out wf_nil, if_pos ⟨Nat.zero_le x, by omega⟩, Nat.sub_zero]
    case writeIn =>
      subst hm
      exact ⟨Memory.writeBytes s.inMem a bs, hstep nofun, read_writeBytes a bs hwf⟩
    all_goals
      intros
      subst m
      exact hstep nofun

/-- Settles O45: of the host's moves only a reset and the two starts write the results. -/
theorem resultsStayUntilNextCommand : Obligations.ResultsStayUntilNextCommand := by
  unfold Obligations.ResultsStayUntilNextCommand
  intro s t hidle h hreset hinflate hdefilter
  rcases idle_step_cases hidle h with ⟨_, ht⟩ | ⟨m, rest, hh, hm⟩
  · rw [ht]
    exact ⟨rfl, rfl, rfl, rfl, rfl, rfl⟩
  · rw [hh, List.head?_cons] at hreset hinflate hdefilter
    cases hm with
    | reset hm _ => exact absurd (congrArg some hm) hreset
    | inflate hm _ => exact absurd (congrArg some hm) hinflate
    | defilter hm _ => exact absurd (congrArg some hm) hdefilter
    | illegal hm _ _ => exact absurd (congrArg some hm) hdefilter
    | command v _ _ ht => rw [ht]; exact ⟨rfl, rfl, rfl, rfl, rfl, rfl⟩
    | parameters _ _ _ ht => rw [ht]; exact ⟨rfl, rfl, rfl, rfl, rfl, rfl⟩

/-! ## The collaborator's checks -/

/-- FDICT is bit 5 of the second zlib header byte. -/
theorem fdict_iff (flg : Byte) : flg.getLsbD 5 = true ↔ flg.toNat / 32 % 2 = 1 := by
  rw [BitVec.getLsbD, Nat.testBit_eq_decide_div_mod_eq, decide_eq_true_iff]

/-- The zlib header check, its two ZLIB_HEADER conditions taken together (46_host_interface.md rule R477). -/
theorem zlibHeader_eq (cmf flg : Byte) (rest : List Byte) :
    zlibHeader (cmf :: flg :: rest) =
      if cmf.toNat % 16 ≠ 8 then .error .compressionMethod
      else if 7 < cmf.toNat / 16 ∨ (256 * cmf.toNat + flg.toNat) % 31 ≠ 0 then .error .zlibHeader
      else if flg.toNat / 32 % 2 = 1 then .error .presetDictionary
      else .ok rest := by
  rw [zlibHeader, zlibHeaderCheck, Nat.mul_comm]
  by_cases hmethod : cmf.toNat % 16 ≠ 8
  · simp only [if_pos hmethod]
  by_cases hwindow : 7 < cmf.toNat / 16
  · simp only [if_neg hmethod, hwindow, true_or, if_true]
  by_cases hcheck : (256 * cmf.toNat + flg.toNat) % 31 ≠ 0
  · simp only [if_neg hmethod, if_neg hwindow, if_pos hcheck, if_pos (Or.inr hcheck)]
  simp only [if_neg hmethod, if_neg hwindow, if_neg hcheck, if_neg (not_or.mpr ⟨hwindow, hcheck⟩), fdict_iff]
  by_cases hdictionary : flg.toNat / 32 % 2 = 1
  · simp only [if_pos hdictionary]
  · simp only [if_neg hdictionary]

theorem zlibHeader_short {bs : List Byte} (h : bs.length < 2) : zlibHeader bs = .error .zlibHeader := by
  match bs, h with
  | [], _ => rfl
  | [_], _ => rfl
  | _ :: _ :: rest, h => exact absurd h (by simp)

/-- With the other fields legal the IHDR check is that of the colour type (46_host_interface.md rule R476). -/
theorem ihdrCheck_color (color : Byte) :
    ihdrCheck 0 0 0 8 color = if color = 2 then .ok 3 else if color = 6 then .ok 4 else .error .colorType := rfl

theorem ihdrCheck_illegal {compression filter interlace depth : Byte} (color : Byte)
    (h : ¬(compression = 0 ∧ filter = 0 ∧ interlace = 0 ∧ depth = 8)) :
    ∃ e, ihdrCheck compression filter interlace depth color = .error e := by
  rw [ihdrCheck]
  by_cases hcompression : compression ≠ 0
  · exact ⟨_, if_pos hcompression⟩
  rw [if_neg hcompression]
  by_cases hfilter : filter ≠ 0
  · exact ⟨_, if_pos hfilter⟩
  rw [if_neg hfilter]
  by_cases hinterlace : interlace ≠ 0
  · exact ⟨_, if_pos hinterlace⟩
  rw [if_neg hinterlace]
  exact ⟨_, if_pos fun hdepth => h ⟨not_not.mp hcompression, not_not.mp hfilter, not_not.mp hinterlace, hdepth⟩⟩

/-- The IHDR check accepts exactly the supported fields (46_host_interface.md rule R476). -/
theorem ihdrCheck_ok_iff (compression filter interlace depth color : Byte) (p : BitVec 3) :
    ihdrCheck compression filter interlace depth color = .ok p ↔
      compression = 0 ∧ filter = 0 ∧ interlace = 0 ∧ depth = 8 ∧ (color = 2 ∧ p = 3 ∨ color = 6 ∧ p = 4) := by
  by_cases h : compression = 0 ∧ filter = 0 ∧ interlace = 0 ∧ depth = 8
  · obtain ⟨rfl, rfl, rfl, rfl⟩ := h
    rw [ihdrCheck_color]
    by_cases hrgb : color = 2
    · subst hrgb
      simp [eq_comm]
    by_cases hrgba : color = 6
    · subst hrgba
      simp [eq_comm]
    · simp only [hrgb, hrgba, if_false, false_and, and_false, or_self, reduceCtorEq]
  · obtain ⟨e, he⟩ := ihdrCheck_illegal color h
    rw [he]
    exact ⟨nofun, fun ⟨hcompression, hfilter, hinterlace, hdepth, _⟩ =>
      absurd ⟨hcompression, hfilter, hinterlace, hdepth⟩ h⟩

/-- Settles O46: each check's branches are the statement's. -/
theorem boundaryChecks : Obligations.BoundaryChecks := by
  unfold Obligations.BoundaryChecks
  exact ⟨zlibHeader_eq, fun _ => zlibHeader_short, ihdrCheck_ok_iff⟩

end Sys2Proof.Machine
end

section
/-! What cannot stop a running command (60_exceptions.md rule R532): each part of the engine goes on or raises, and the
code-length loop stays within its bounds. -/

namespace Sys2Proof.Machine

/-! ## Parts that never stop -/

theorem getBits_noStop (n : Nat) (s : State) : (getBits n s).NoStop := by
  rcases getBits_cases n s with ⟨_, h⟩ | ⟨_, h⟩ <;> rw [h]
  · exact noStop_ok _ _
  · exact noStop_raise _ _

theorem decodeSymbol_noStop (t : Tree) (s : State) : (decodeSymbol t s).NoStop := by
  rcases decodeSymbol_cases t s with ⟨_, _, h, _⟩ | ⟨_, _, h, _⟩ <;> rw [h]
  · exact noStop_ok _ _
  · exact noStop_raise _ _

theorem fetchHeader_noStop (s : State) : (fetchHeader s).NoStop := by
  by_cases h : s.hasBits 3
  · rw [fetchHeader_ok h]
    exact noStop_ok _ _
  · obtain ⟨_, _, hraise, _⟩ := fetchHeader_exhausted h
    rw [hraise]
    exact noStop_raise _ _

theorem fetchRow_noStop (s : State) : (fetchRow s).NoStop :=
  noStop_bind (readByte_noStop s) fun _ _ => noStop_ok _ _

theorem readLe16_noStop (s : State) : (readLe16 s).NoStop :=
  noStop_bind (readByte_noStop s) fun _ _ => noStop_bind (readByte_noStop _) fun _ _ => noStop_ok _ _

theorem emit_noStop (b : Byte) (s : State) : (emit b s).NoStop :=
  noStop_bind (outAppend_noStop b s) fun _ _ => noStop_ok _ _

theorem copyBytes_noStop (d : BitVec 16) (n : Nat) (s : State) : (copyBytes d n s).NoStop := by
  induction n generalizing s with
  | zero => exact noStop_ok _ _
  | succ n ih => exact noStop_bind (emit_noStop _ _) fun _ _ => ih _

theorem writeToObject_noStop (d : BitVec 16) (n : Nat) (s : State) : (writeToObject d n s).NoStop := by
  unfold writeToObject
  split
  · exact copyBytes_noStop d n s
  · exact noStop_raise _ _

theorem copyStored_noStop (n : Nat) (s : State) : (copyStored n s).NoStop := by
  induction n generalizing s with
  | zero => exact noStop_ok _ _
  | succ n ih => exact noStop_bind (readByte_noStop s) fun _ _ => noStop_bind (emit_noStop _ _) fun _ _ => ih _

theorem storedBlock_noStop (s : State) : (storedBlock s).NoStop := by
  refine noStop_bind (readLe16_noStop _) fun len _ => noStop_bind (readLe16_noStop _) fun nlen _ => ?_
  split
  · exact noStop_raise _ _
  · exact noStop_bind (copyStored_noStop _ _) fun _ _ => noStop_ok _ _

theorem readCounts_noStop (s : State) : (readCounts s).NoStop :=
  noStop_bind (getBits_noStop 5 s) fun _ _ => noStop_bind (getBits_noStop 5 _) fun _ _ =>
    noStop_bind (getBits_noStop 4 _) fun _ _ => noStop_ok _ _

theorem readClenLens_noStop (syms : List Nat) (s : State) : (readClenLens syms s).NoStop := by
  induction syms generalizing s with
  | nil => exact noStop_ok _ _
  | cons sym syms ih => exact noStop_bind (getBits_noStop 3 s) fun _ _ => ih _

theorem buildClenTree_noStop (s : State) : (buildClenTree s).NoStop := by
  unfold buildClenTree
  split
  · exact noStop_ok _ _
  · exact noStop_raise _ _

theorem dynamicHeader_noStop (s : State) : (dynamicHeader s).NoStop :=
  noStop_bind (readCounts_noStop s) fun _ _ => noStop_bind (readClenLens_noStop _ _) fun _ _ =>
    noStop_bind (buildClenTree_noStop _) fun _ _ => noStop_ok _ _

theorem readMatchLen_noStop (sym : Nat) (s : State) : (readMatchLen sym s).NoStop :=
  noStop_bind (getBits_noStop _ s) fun _ _ => noStop_ok _ _

theorem readMatchDist_noStop (sym : Nat) (s : State) : (readMatchDist sym s).NoStop :=
  noStop_bind (getBits_noStop _ s) fun _ _ => noStop_ok _ _

theorem backRefLength_noStop (sym : Nat) (s : State) : (backRefLength sym s).NoStop := by
  unfold backRefLength
  split
  · exact noStop_raise _ _
  · exact noStop_bind (readMatchLen_noStop sym s) fun _ _ => noStop_ok _ _

theorem backRefEnd_noStop (dsym : Nat) (s : State) : (backRefEnd dsym s).NoStop := by
  unfold backRefEnd
  split
  · exact noStop_raise _ _
  · exact noStop_bind (readMatchDist_noStop dsym s) fun _ _ => writeToObject_noStop _ _ _

/-- Within HLIT + HDIST the entries of a run lie in LENS (10_state.md rule R31). -/
theorem lensRun_noStop (r : Nat) (v : State → BitVec 4) {s : State} (h : s.lensTotal ≤ 320) :
    (lensRun r v s).NoStop := by
  unfold lensRun
  split
  case isTrue => exact noStop_raise _ _
  case isFalse hfits =>
    rw [appendLens_within _ ((Nat.le_of_not_lt hfits).trans h)]
    exact noStop_ok _ _

/-! ## Going on within the bounds -/

/-- The code-length loop has read no more lengths than the block has (42_dynamic_header.md rule R284). -/
def LensWithinTotal (s : State) : Prop := s.phase = .dynLens → s.lensCount.toNat ≤ s.lensTotal

/-- The outcome is a next state, whose code-length loop is within its bounds. -/
def Proceeds (o : Host.Outcome State Fault Refusal) : Prop := ∃ t, o = .next t ∧ LensWithinTotal t

theorem proceeds_next {t : State} (h : t.phase ≠ .dynLens) : Proceeds (.next t) :=
  ⟨t, rfl, fun hp => absurd hp h⟩

theorem proceeds_error (e : Err) (s : State) : Proceeds (.next (errorEntry e s)) := proceeds_next nofun

theorem Res.NoStop.proceeds {r : Res Unit} (h : r.NoStop) (hok : ∀ u, r = .ok () u → LensWithinTotal u) :
    Proceeds r.finish := by
  cases r with
  | ok _ u => exact ⟨u, rfl, hok u rfl⟩
  | raise e u => exact proceeds_error e u
  | stop x => exact absurd rfl (h x)

theorem Res.NoStop.finish_next {r : Res Unit} (h : r.NoStop) : ∃ t, r.finish = .next t := by
  cases r with
  | ok _ u => exact ⟨u, rfl⟩
  | raise e u => exact ⟨_, rfl⟩
  | stop x => exact absurd rfl (h x)

theorem action_outcome (r : Res Unit) : r.action.outcome = r.finish := by
  cases r <;> rfl

/-- A fetch that never stops, each of whose values proceeds. -/
theorem fetched_proceeds {f : Format} {r : Res Nat} (h : r.NoStop)
    (hok : ∀ w u, r = .ok w u → Proceeds (decoded f w u).outcome) : Proceeds (fetched f r).outcome := by
  cases r with
  | ok w u => exact hok w u rfl
  | raise e u => exact proceeds_error e u
  | stop x => exact absurd rfl (h x)

/-! ## Block headers -/

theorem storedBlock_proceeds (s : State) : Proceeds (storedBlock s).finish := by
  refine (storedBlock_noStop s).proceeds fun u h hp => ?_
  rw [((storedBlock_runs s).2 u h).1] at hp
  cases hp

theorem dynamicHeader_proceeds (s : State) : Proceeds (dynamicHeader s).finish := by
  refine (dynamicHeader_noStop s).proceeds fun u h _ => ?_
  rw [((dynamicHeader_runs s).2 u h).2.1]
  exact Nat.zero_le _

/-- Each of the eight headers is an instruction that proceeds. -/
theorem decoded_hdr_proceeds {w : Nat} (h : w < 8) (s : State) : Proceeds (decoded .hdr w s).outcome := by
  obtain h | h | h | h : w / 2 = 0 ∨ w / 2 = 1 ∨ w / 2 = 2 ∨ w / 2 = 3 := by omega
  · rw [decoded_outcome (i := .blkStored (BitVec.ofNat 1 w)) s (by simp only [decode, decodeHdr, h])]
    exact storedBlock_proceeds _
  · rw [decoded_outcome (i := .blkStatic (BitVec.ofNat 1 w)) s (by simp only [decode, decodeHdr, h])]
    exact proceeds_next nofun
  · rw [decoded_outcome (i := .blkDynamic (BitVec.ofNat 1 w)) s (by simp only [decode, decodeHdr, h])]
    exact dynamicHeader_proceeds _
  · rw [decoded_outcome (i := .blkReserved (BitVec.ofNat 1 w)) s (by simp only [decode, decodeHdr, h])]
    exact proceeds_error _ _

/-! ## Code lengths -/

theorem lensRun_proceeds (r : Nat) (v : State → BitVec 4) {s : State} (h : s.lensTotal ≤ 320) :
    Proceeds (lensRun r v s).finish := by
  refine (lensRun_noStop r v h).proceeds fun u hu _ => ?_
  obtain ⟨_, htotal, hfits, hcount⟩ := lensRun_ok hu
  rw [htotal]
  exact hcount.trans hfits

theorem codeLengthRun_proceeds (base n : Nat) (v : State → BitVec 4) {s : State} (h : s.lensTotal ≤ 320) :
    Proceeds (codeLengthRun base n v s).finish := by
  rw [codeLengthRun, readRepeat]
  rcases getBits_cases n s with ⟨_, hbits⟩ | ⟨_, hbits⟩ <;> rw [hbits]
  · exact lensRun_proceeds _ v (s := s.atBit _) h
  · exact proceeds_error _ _

theorem clLen_proceeds (v : BitVec 4) {s : State} (hlt : s.lensCount.toNat < s.lensTotal) (h : s.lensTotal ≤ 320) :
    Proceeds (exec (.clLen v) s) := by
  have hrun : appendLens 1 v s = lensRun 1 (fun _ => v) s := (if_neg (Nat.not_lt.mpr hlt)).symm
  rw [exec, execClLen, hrun]
  exact lensRun_proceeds 1 _ h

/-- CL_REP tests LENS_COUNT before its run (42_dynamic_header.md rule R286). -/
theorem clRep_proceeds {s : State} (h : s.lensTotal ≤ 320) : Proceeds (exec .clRep s) := by
  by_cases hcount : s.lensCount = 0
  · rw [exec, execClRep, if_pos hcount]
    exact proceeds_error _ _
  · rw [exec_clRep hcount]
    exact codeLengthRun_proceeds _ _ _ h

/-- Each of the 19 code-length symbols is an instruction that proceeds while lengths are missing. -/
theorem decoded_clsym_proceeds {sym : Nat} (hsym : sym < 19) {s : State} (hlt : s.lensCount.toNat < s.lensTotal)
    (h : s.lensTotal ≤ 320) : Proceeds (decoded .clsym sym s).outcome := by
  by_cases hlength : sym < 16
  · rw [decoded_outcome (i := .clLen (BitVec.ofNat 4 sym)) s (by rw [decode, decodeClsym, if_pos hlength])]
    exact clLen_proceeds _ hlt h
  · obtain rfl | rfl | rfl : sym = 16 ∨ sym = 17 ∨ sym = 18 := by omega
    · exact clRep_proceeds h
    · exact codeLengthRun_proceeds 3 3 (fun _ => 0) h
    · exact codeLengthRun_proceeds 11 7 (fun _ => 0) h

/-- The slices of HLIT and of HDIST entries lie in LENS (10_state.md rule R31). -/
theorem buildTrees_proceeds {s : State} (h : s.lensTotal ≤ 320) : Proceeds (buildTrees s).finish := by
  cases hlit : buildTree (litLens s) Config.maxLenLitDist with
  | error e =>
    rw [buildTrees_litError h hlit]
    exact proceeds_error _ _
  | ok lit =>
    cases hdist : buildTree (distLens s) Config.maxLenLitDist with
    | error e =>
      rw [buildTrees_distError h hlit hdist]
      exact proceeds_error _ _
    | ok dist =>
      rw [buildTrees_ok h hlit hdist]
      exact proceeds_next nofun

/-! ## Symbols -/

/-- A literal/length or distance instruction stays out of the code-length loop. -/
theorem Inflates.proceeds {f : Format} {s t : State} (hf : f = .litsym ∨ f = .distsym) (hp : s.phase = .symbols)
    (h : Inflates f s (.next t)) : Proceeds (.next t) := by
  obtain ⟨r, hr, _, hleaves⟩ := h
  cases r with
  | ok _ u =>
    cases hr
    have := hleaves t rfl
    refine proceeds_next ?_
    rcases hf with rfl | rfl
    · rcases this with h | h <;> rw [h]
      · rw [hp]; decide
      · decide
    · rw [this, hp]; decide
  | raise e u => cases hr; exact proceeds_error e u
  | stop x => cases hr

theorem decode_lengthRow : ∀ p ∈ lengthRows, decode .litsym p.2.1 = .ok p.1 := by
  intro p hp
  fin_cases hp <;> rfl

/-- Every literal/length symbol stands for an instruction that never stops. -/
theorem exists_litlenInstr {sym : Nat} (h : sym < 288) :
    ∃ i, decode .litsym sym = .ok i ∧ ∀ s, ∃ t, exec i s = .next t := by
  by_cases hliteral : sym < 256
  · refine ⟨.lit (BitVec.ofNat 8 sym), by rw [decode, decodeLitsym, if_pos hliteral], fun s => ?_⟩
    exact (emit_noStop _ s).finish_next
  by_cases hlength : 257 ≤ sym ∧ sym < 286
  · obtain ⟨k, rfl⟩ := Nat.exists_eq_add_of_le hlength.1
    obtain ⟨i, hi⟩ := exists_lengthRow (k := k) (by omega)
    refine ⟨i, decode_lengthRow _ hi, fun s => ?_⟩
    rw [exec_lengthRow _ hi]
    exact (backRefLength_noStop _ s).finish_next
  obtain rfl | rfl | rfl : sym = 256 ∨ sym = 286 ∨ sym = 287 := by omega
  · exact ⟨.eob, rfl, fun _ => ⟨_, rfl⟩⟩
  · exact ⟨.litRsv286, rfl, fun _ => ⟨_, rfl⟩⟩
  · exact ⟨.litRsv287, rfl, fun _ => ⟨_, rfl⟩⟩

theorem decoded_litsym_proceeds {sym : Nat} (h : sym < 288) {s : State} (hp : s.phase = .symbols) :
    Proceeds (decoded .litsym sym s).outcome := by
  obtain ⟨i, hi, hnext⟩ := exists_litlenInstr h
  obtain ⟨t, ht⟩ := hnext s
  have hf := decode_format hi
  rw [decoded_outcome s hi]
  have hinflates := exec_inflates i s (by rw [hf]; decide) (by rw [hf]; decide)
  rw [ht] at hinflates ⊢
  exact hinflates.proceeds (.inl hf) hp

theorem decoded_distsym_proceeds {sym : Nat} (h : sym < 32) {s : State} (hp : s.phase = .symbols) :
    Proceeds (decoded .distsym sym s).outcome := by
  obtain ⟨i, hi, hexec⟩ := exists_distanceInstr h
  obtain ⟨t, ht⟩ := (backRefEnd_noStop sym { s with distNext := false }).finish_next
  have hf := decode_format hi
  rw [decoded_outcome s hi]
  have hinflates := exec_inflates i s (by rw [hf]; decide) (by rw [hf]; decide)
  rw [hexec, ht] at hinflates ⊢
  exact hinflates.proceeds (.inr hf) hp

/-- A decoded symbol is one of the tree's alphabet, in a state that differs in the cursor only. -/
theorem decodeSymbol_ok {t : Tree} {n sym : Nat} {s u : State} (ht : t.symsBelow n = true)
    (h : decodeSymbol t s = .ok sym u) : sym < n ∧ ∃ k, u = s.atBit k := by
  rcases decodeSymbol_cases t s with ⟨_, k, hok, _, _, hsyms⟩ | ⟨_, _, hraise, _⟩
  · rw [hok] at h
    cases h
    exact ⟨hsyms n ht, k, rfl⟩
  · rw [hraise] at h
    cases h

/-! ## Rows -/

theorem RowEnds.proceeds {s : State} {o : Host.Outcome State Fault Refusal} (hp : s.phase = .dfRow)
    (h : RowEnds s o) : Proceeds o := by
  rcases h with ⟨e, u, rfl, _⟩ | ⟨u, rfl, hu⟩
  · exact proceeds_error e u
  · refine proceeds_next ?_
    rcases rowEnd_phase u with hrow | hdone
    · rw [hrow, hu.phase, hp]; decide
    · rw [hdone]; decide

theorem decoded_row_proceeds {w : Nat} (h : w < 256) {s : State} (hp : s.phase = .dfRow) :
    Proceeds (decoded .row w s).outcome := by
  obtain ⟨i, hi⟩ : ∃ i, decodeRow w = .ok i := by
    by_cases h5 : 5 ≤ w
    · exact ⟨_, (decodeRow_reserved h5).trans (if_pos h)⟩
    · have : w < 5 := by omega
      interval_cases w <;> exact ⟨_, rfl⟩
  rw [decoded_outcome (f := .row) s hi]
  exact (exec_row_ends i s (decode_format (f := .row) hi)).proceeds hp

/-! ## The engine -/

theorem engineAction_stored {s : State} (h : s.phase = .stored) : engineAction s = (storedBlock s).action := by
  simp only [engineAction, h]

theorem engineAction_dynHdr {s : State} (h : s.phase = .dynHdr) : engineAction s = (dynamicHeader s).action := by
  simp only [engineAction, h]

/-- Every action of a running command's engine proceeds (60_exceptions.md rule R532). -/
theorem engineAction_proceeds {s : State} (hs : NothingStops s) (hb : s.status = .busy) :
    Proceeds (engineAction s).outcome := by
  obtain ⟨hphase, hhlit, hhdist, hlit, hdist, hclen, _⟩ := hs
  have htotal : s.lensTotal ≤ 320 := Nat.add_le_add hhlit hhdist
  obtain ⟨hidle, hdone, herror⟩ := hphase hb
  cases hp : s.phase with
  | idle => exact absurd hp hidle
  | done => exact absurd hp hdone
  | error => exact absurd hp herror
  | hdr =>
    rw [engineAction_hdr hp]
    refine fetched_proceeds (fetchHeader_noStop s) fun w u h => decoded_hdr_proceeds ?_ u
    by_cases hbits : s.hasBits 3
    · rw [fetchHeader_ok hbits] at h
      cases h
      exact fieldAt_lt s s.pc 3
    · obtain ⟨_, _, hraise, _⟩ := fetchHeader_exhausted hbits
      rw [hraise] at h
      cases h
  | stored =>
    rw [engineAction_stored hp, action_outcome]
    exact storedBlock_proceeds s
  | dynHdr =>
    rw [engineAction_dynHdr hp, action_outcome]
    exact dynamicHeader_proceeds s
  | dynLens =>
    by_cases hlt : s.lensCount.toNat < s.lensTotal
    · rw [engineAction_codeLength hp hlt]
      refine fetched_proceeds (decodeSymbol_noStop _ s) fun sym u h => ?_
      obtain ⟨hsym, k, rfl⟩ := decodeSymbol_ok hclen h
      exact decoded_clsym_proceeds hsym (s := s.atBit k) hlt htotal
    · rw [engineAction_trees hp (Nat.le_of_not_lt hlt), action_outcome]
      exact buildTrees_proceeds htotal
  | symbols =>
    cases hn : s.distNext with
    | false =>
      rw [engineAction_litlen hp hn]
      refine fetched_proceeds (decodeSymbol_noStop _ s) fun sym u h => ?_
      obtain ⟨hsym, k, rfl⟩ := decodeSymbol_ok hlit h
      exact decoded_litsym_proceeds hsym (s := s.atBit k) hp
    | true =>
      rw [engineAction_distance hp hn]
      refine fetched_proceeds (decodeSymbol_noStop _ s) fun sym u h => ?_
      obtain ⟨hsym, k, rfl⟩ := decodeSymbol_ok hdist h
      exact decoded_distsym_proceeds hsym (s := s.atBit k) hp
  | blockEnd =>
    rw [engineAction_blockEnd hp, Action.outcome, blockEnd]
    split <;> exact proceeds_next nofun
  | dfRow =>
    by_cases hlt : s.rowY.toNat < s.dfHeight.toNat
    · rw [engineAction_row hp hlt]
      refine fetched_proceeds (fetchRow_noStop s) fun w u h => ?_
      rw [fetchRow_eq] at h
      split at h <;> cases h
      exact decoded_row_proceeds (BitVec.isLt _) hp
    · rw [engineAction_rowsDone hp (Nat.le_of_not_lt hlt)]
      exact proceeds_next nofun

/-! ## A step that leaves the command running -/

/-- All an engine step does that leaves its command running: it keeps the engine's frame, enters a running phase, and
reads input or leaves one of the two phases that end without reading. -/
structure StaysRunning (s t : State) : Prop where
  keeps : Keeps s t
  phase : t.phase ≠ .idle ∧ t.phase ≠ .done ∧ t.phase ≠ .error
  advances : s.pc < t.pc ∨ (s.phase = .dynLens ∧ t.phase = .symbols) ∨ (s.phase = .blockEnd ∧ t.phase = .hdr)

theorem phaseMoves_running {p q : Phase} (h : (p, q) ∈ phaseMoves) : q ≠ .idle ∧ q ≠ .done ∧ q ≠ .error := by
  have hall : ∀ m ∈ phaseMoves, m.2 ≠ .idle ∧ m.2 ≠ .done ∧ m.2 ≠ .error := by decide
  exact hall _ h

theorem EngineStep.staysRunning {s t : State} (h : EngineStep s t) (hb : t.status = .busy) : StaysRunning s t := by
  rcases h with ⟨_, h⟩ | ⟨hp, h⟩
  · cases h with
    | error e u _ ht => subst ht; cases hb
    | goes h hmove hpc => exact ⟨h.keeps, phaseMoves_running hmove, hpc⟩
    | ends _ ht => subst ht; cases hb
  · cases h with
    | error e u _ ht => subst ht; cases hb
    | row u h hpc ht =>
      subst ht
      rcases rowEnd_cases u with hrow | hdone
      · have hphase : (rowEnd u).phase = .dfRow := by rw [hrow]; exact h.phase.trans hp
        refine ⟨hrow ▸ h.keeps.trans (keeps_rows u _), by rw [hphase]; decide, .inl ?_⟩
        rw [rowEnd_pc]
        exact hpc
      · rw [hdone] at hb
        cases hb
    | ends ht => subst ht; cases hb

/-- An engine step that does not leave its command running ends it in DONE or ERROR. -/
theorem EngineStep.ended {s t : State} (h : EngineStep s t) (hb : s.status = .busy) (ht : t.status ≠ .busy) :
    t.status = .done ∨ t.status = .error := by
  cases h.frame with
  | goes hk => exact absurd (hk.status.trans hb) ht
  | completes u _ he => exact .inl (he ▸ complete_status u)
  | error e u _ he => exact .inr (he ▸ errorEntry_status e u)

theorem EngineStep.treesTame {s t : State} (h : EngineStep s t) (hs : TreesTame s) : TreesTame t := by
  cases h.frame with
  | goes hk => exact hk.trees hs
  | completes u hk ht => exact ht ▸ hk.trees hs
  | error e u hk ht => exact ht ▸ hk.trees hs

theorem nothingStops_afterPassiveMove {s : State} (h : NothingStops s) : NothingStops s.afterPassiveMove := by
  rw [afterPassiveMove_eq]
  exact h

/-- A running command that nothing stops takes a step, after which nothing stops it (60_exceptions.md rule R532). -/
theorem running_progress {s : State} (hs : NothingStops s) (hb : s.status = .busy)
    (hr : s.host.head? ≠ some .reset) : ∃ t, step s = .next t ∧ NothingStops t := by
  obtain ⟨t, ht, hlens⟩ := engineAction_proceeds (nothingStops_afterPassiveMove hs)
    ((afterPassiveMove_status s).trans hb)
  rw [← step_busy hb hr] at ht
  have hengine := running_engineStep hb hr ht
  obtain ⟨_, hhlit, hhdist, hlit, hdist, hclen, _⟩ := nothingStops_afterPassiveMove hs
  obtain ⟨hhlit, hhdist, hlit, hdist, hclen⟩ := hengine.treesTame ⟨hhlit, hhdist, hlit, hdist, hclen⟩
  exact ⟨t, ht, fun hbusy => (hengine.staysRunning hbusy).phase, hhlit, hhdist, hlit, hdist, hclen, fun _ => hlens⟩

end Sys2Proof.Machine
end

section
/-! The end of every command (46_host_interface.md rule R484): the measure that each step of a running command lowers,
and the number of steps it allows. -/

namespace Sys2Proof.Machine

/-! ## The measure -/

/-- A bit of input read weighs more than the phase's share of the measure. -/
theorem remaining_lt_of_pc_lt {s t : State} (hpc : s.pc < t.pc) (hin : t.pc ≤ 8 * t.inLen)
    (hlen : t.inLen = s.inLen) : remaining t < remaining s := by
  rw [hlen] at hin
  rw [remaining, remaining, hlen]
  split <;> split <;> omega

/-- Without a read the phase's share of the measure goes. -/
theorem remaining_lt_of_phase {s t : State} (hpc : s.pc ≤ t.pc) (hlen : t.inLen = s.inLen)
    (hs : s.phase = .blockEnd ∨ s.phase = .dynLens) (ht : ¬(t.phase = .blockEnd ∨ t.phase = .dynLens)) :
    remaining t < remaining s := by
  rw [remaining, remaining, hlen, if_pos hs, if_neg ht]
  omega

theorem StaysRunning.remaining_lt {s t : State} (h : StaysRunning s t) (hin : t.pc ≤ 8 * t.inLen) :
    remaining t < remaining s := by
  rcases h.advances with hpc | ⟨hs, ht⟩ | ⟨hs, ht⟩
  · exact remaining_lt_of_pc_lt hpc hin h.keeps.inLen
  · exact remaining_lt_of_phase h.keeps.pc h.keeps.inLen (.inr hs) (by rw [ht]; decide)
  · exact remaining_lt_of_phase h.keeps.pc h.keeps.inLen (.inl hs) (by rw [ht]; decide)

@[simp] theorem afterPassiveMove_remaining (s : State) : remaining s.afterPassiveMove = remaining s := by
  rw [afterPassiveMove_eq]; rfl

/-- Settles O55: a step that leaves the command running reads input, or leaves one of the two phases that end without
reading. -/
theorem runningStepsLowerRemaining : Obligations.RunningStepsLowerRemaining := by
  unfold Obligations.RunningStepsLowerRemaining
  intro s t hcursor hb hr h hbusy
  obtain ⟨hin, _⟩ := stepKeepsCursorWithinInput s t hcursor h hbusy
  rw [← afterPassiveMove_remaining s]
  exact ((running_engineStep hb hr h).staysRunning hbusy).remaining_lt hin

/-! ## The end of a command -/

/-- The first step of a run. -/
theorem run_succ {M : Host.Core} {s t : M.State} (k : Nat) (h : M.step s = .next t) : M.run (k + 1) s = M.run k t := by
  rw [Host.Core.run, h]

/-- Settles O56, by induction on the measure: a step ends the command or lowers it. -/
theorem everyCommandEnds : Obligations.EveryCommandEnds := by
  unfold Obligations.EveryCommandEnds
  intro s
  induction hm : remaining s using Nat.strong_induction_on generalizing s with
  | _ m ih =>
    intro hs hcursor hb hh
    have hr : s.host.head? ≠ some .reset := by rw [hh]; nofun
    obtain ⟨t, ht, hnext⟩ := running_progress hs hb hr
    have hengine := running_engineStep hb hr ht
    by_cases hbusy : t.status = .busy
    case neg => exact ⟨1, t, by omega, run_succ (M := core) 0 ht, hengine.ended ((afterPassiveMove_status s).trans hb) hbusy⟩
    have hlower := runningStepsLowerRemaining s t hcursor hb hr ht hbusy
    have hhost : t.host = [] := by
      rw [(hengine.staysRunning hbusy).keeps.host, State.afterPassiveMove, hh]
      exact hh
    obtain ⟨n, u, hn, hrun, hend⟩ :=
      ih (remaining t) (hm ▸ hlower) t rfl hnext (stepKeepsCursorWithinInput s t hcursor ht) hbusy hhost
    exact ⟨n + 1, u, by omega, (run_succ (M := core) n ht).trans hrun, hend⟩

end Sys2Proof.Machine
end

section
/-! Errors and progress (60_exceptions.md): the error entry, the errors of a fetch, and the step that every well-formed
state takes. -/

namespace Sys2Proof.Machine

/-! ## The error entry -/

/-- Settles O11: the entry is one update of the state, and the codes are those of the error table. -/
theorem errorEntryLatches : Obligations.ErrorEntryLatches := by
  unfold Obligations.ErrorEntryLatches
  refine ⟨fun e s => ⟨e.errClass, e.code, ?entry, rfl, rfl⟩, ?formatErrors, ?pixelSize, ?outputOverflow⟩
  case entry => rw [errorEntry]
  case formatErrors => simp only [List.map_cons, List.map_nil, Err.errClass, Err.code]
  case pixelSize => rw [Err.errClass, Err.code]
  case outputOverflow => rw [Err.errClass, Err.code]

/-! ## Errors of a fetch -/

/-- An error of a fetch is taken at once (60_exceptions.md rule R520). -/
theorem fetched_raise {f : Format} {r : Res Nat} {e : Err} {u : State} (h : r = .raise e u) :
    (fetched f r).outcome = .next (errorEntry e u) := by
  rw [h]
  rfl

theorem fetchRow_exhausted {s : State} (h : s.inLen ≤ s.bytePos) : fetchRow s = .raise .inputExhausted s := by
  rw [fetchRow_eq, if_pos h]

/-- A NULL tree has no code (40_huffman.md rule R213). -/
theorem decodeSymbol_null {t : Tree} (h : t = .null) (s : State) : decodeSymbol t s = .raise .emptyTree s := by
  rw [h, decodeSymbol]

/-- Settles O6: the phase selects the fetch, and what the fetch raises enters ERROR. -/
theorem fetchErrorsAbort : Obligations.FetchErrorsAbort := by
  unfold Obligations.FetchErrorsAbort
  intro s hb hr
  rw [step_busy hb hr]
  refine ⟨fun hp hbits => ?hdr, fun hp hlt => ?clsym, fun hp hn => ?litsym, fun hp hn e u hs => ?distsym,
    fun hp hlt hin => ?row⟩
  case hdr =>
    obtain ⟨k, v, hraise, _⟩ := fetchHeader_exhausted hbits
    exact ⟨k, v, by rw [engineAction_hdr hp, fetched_raise hraise]⟩
  case clsym =>
    rw [engineAction_codeLength hp hlt]
    exact ⟨fun _ _ => fetched_raise, fun hnull => fetched_raise (decodeSymbol_null hnull _)⟩
  case litsym =>
    rw [engineAction_litlen hp hn]
    exact ⟨fun _ _ => fetched_raise, fun hnull => fetched_raise (decodeSymbol_null hnull _)⟩
  case distsym => rw [engineAction_distance hp hn, fetched_raise hs]
  case row => rw [engineAction_row hp hlt, fetched_raise (fetchRow_exhausted hin)]

/-! ## The host's moves, no command running -/

theorem defilterChecks_noStop (s : State) : (defilterChecks s).NoStop := by
  unfold defilterChecks
  split
  · exact noStop_raise _ _
  · split
    · exact noStop_raise _ _
    · exact noStop_ok _ _

theorem hostWriteCmd_next {r : Res Unit} {s : State} (h : s.status ≠ .busy) (hr : r.NoStop) :
    ∃ t, hostWriteCmd r s = .next t := by
  rw [hostWriteCmd_idle r h]
  exact hr.finish_next

/-- Each of the four CMD values is an instruction that answers a next state. -/
theorem writeCmd_next (v : BitVec 2) {s : State} (h : s.status ≠ .busy) :
    ∃ t, (decoded .cmd v.toNat s).outcome = .next t := by
  have hv : v = 0 ∨ v = 1 ∨ v = 2 ∨ v = 3 := by revert v; decide
  obtain rfl | rfl | rfl | rfl := hv
  · exact hostWriteCmd_next h (noStop_ok () (setCmd 0 s))
  · exact hostWriteCmd_next h (noStop_ok () (startInflate s))
  · exact hostWriteCmd_next h (defilterChecks_noStop (startDefilter s))
  · exact hostWriteCmd_next h (noStop_ok () (setCmd 3 s))

/-- Every move of the host acts, but for reading the OUT of a command that is not done (20_memory.md rule R100). -/
theorem hostAction_next_or_refused (m : HostMove) {s : State} (h : s.status ≠ .busy) :
    (∃ t, (hostAction m s).outcome = .next t) ∨
      ((hostAction m s).outcome = .refused .outNotReadable ∧ m = .loadOut ∧ s.status ≠ .done) := by
  cases m
  case writeCmd v => exact .inl (writeCmd_next v h)
  case loadOut =>
    by_cases hdone : s.status = .done
    · exact .inl ⟨_, congrArg Action.outcome (if_pos hdone)⟩
    · exact .inr ⟨congrArg Action.outcome (if_neg hdone), rfl, hdone⟩
  all_goals exact .inl ⟨_, rfl⟩

/-! ## What the host's moves keep -/

/-- The parts of NothingStops: what it asks of a running command, and the registers' ranges. -/
theorem nothingStops_iff (s : State) :
    NothingStops s ↔
      (s.status = .busy → (s.phase ≠ .idle ∧ s.phase ≠ .done ∧ s.phase ≠ .error) ∧ LensWithinTotal s) ∧
        TreesTame s := by
  constructor
  · rintro ⟨hphase, hhlit, hhdist, hlit, hdist, hclen, hlens⟩
    exact ⟨fun hb => ⟨hphase hb, hlens hb⟩, hhlit, hhdist, hlit, hdist, hclen⟩
  · rintro ⟨hrunning, hhlit, hhdist, hlit, hdist, hclen⟩
    exact ⟨fun hb => (hrunning hb).1, hhlit, hhdist, hlit, hdist, hclen, fun hb => (hrunning hb).2⟩

/-- A power-on reset is the reset state but for two fields that NothingStops does not read. -/
theorem nothingStops_powerOn (rest : List HostMove) (s : State) : NothingStops (powerOn rest s) := nothingStops_reset

/-- Command initialisation empties the trees and keeps HLIT and HDIST (10_state.md rule R52). -/
theorem initCommand_treesTame {s : State} (h : TreesTame s) : TreesTame (initCommand s) := by
  obtain ⟨hhlit, hhdist, _⟩ := h
  exact ⟨hhlit, hhdist, rfl, rfl, rfl⟩

theorem HostStep.treesTame {m : HostMove} {s t : State} (h : HostStep m s t) (hs : TreesTame s) : TreesTame t := by
  cases h with
  | reset _ ht => exact ht ▸ ((nothingStops_iff _).mp (nothingStops_powerOn _ _)).2
  | command v _ _ ht => exact ht ▸ hs
  | inflate _ ht => exact ht ▸ initCommand_treesTame (s := setCmd 1 s) hs
  | defilter _ ht => exact ht ▸ initCommand_treesTame (s := setCmd 2 s) hs
  | illegal _ e ht => exact ht ▸ initCommand_treesTame (s := setCmd 2 s) hs
  | parameters _ _ _ ht => rw [ht]; exact hs

/-- A host move that leaves a command running has started it, in its first phase (46_host_interface.md rule R471). -/
theorem HostStep.phase_of_busy {m : HostMove} {s t : State} (h : HostStep m s t) (hidle : s.status ≠ .busy)
    (ht : t.status = .busy) : t.phase = .hdr ∨ t.phase = .dfRow := by
  cases h with
  | reset _ he => subst he; cases ht
  | command v _ _ he => subst he; exact absurd ht hidle
  | inflate _ he => subst he; exact .inl rfl
  | defilter _ he => subst he; exact .inr rfl
  | illegal _ e he => subst he; cases ht
  | parameters _ _ _ he => rw [he] at ht; exact absurd ht hidle

theorem HostStep.nothingStops {m : HostMove} {s t : State} (h : HostStep m s t) (hidle : s.status ≠ .busy)
    (hs : NothingStops s) : NothingStops t := by
  refine (nothingStops_iff t).mpr ⟨fun hb => ?_, h.treesTame ((nothingStops_iff s).mp hs).2⟩
  rw [LensWithinTotal]
  obtain hp | hp := h.phase_of_busy hidle hb <;> rw [hp] <;> exact ⟨by decide, nofun⟩

theorem hostAction_progress (m : HostMove) {s : State} (hs : NothingStops s) (hidle : s.status ≠ .busy) :
    (∃ t, (hostAction m s).outcome = .next t ∧ NothingStops t) ∨
      ((hostAction m s).outcome = .refused .outNotReadable ∧ m = .loadOut ∧ s.status ≠ .done) :=
  (hostAction_next_or_refused m hidle).imp_left fun ⟨t, ht⟩ =>
    ⟨t, ht, (hostAction_step hidle ht).nothingStops hidle hs⟩

/-- Without a command a step acts on the host's next move, or refuses the one that reads OUT too early. -/
theorem idle_progress {s : State} (hs : NothingStops s) (hidle : s.status ≠ .busy)
    (hr : s.host.head? ≠ some .reset) :
    (∃ t, step s = .next t ∧ NothingStops t) ∨
      (step s = .refused .outNotReadable ∧ s.host.head? = some .loadOut ∧ s.status ≠ .done) := by
  cases hh : s.host with
  | nil => exact .inl ⟨s, step_idle hidle hh, hs⟩
  | cons m rest =>
    rw [hh, List.head?_cons] at hr
    rw [step_host hidle hh fun hm => hr (congrArg some hm), List.head?_cons, Option.some_inj]
    exact hostAction_progress m (s := { s with host := rest }) hs hidle

/-- Settles O54: a reset acts at once, a running command takes its step, and otherwise the host's next move acts or is
the one that is refused. -/
theorem stepNeverStops : Obligations.StepNeverStops := by
  unfold Obligations.StepNeverStops
  intro s hs
  by_cases hr : s.host.head? = some .reset
  · obtain ⟨rest, hh⟩ := List.head?_eq_some_iff.mp hr
    exact .inl ⟨_, step_reset hh, nothingStops_powerOn rest s⟩
  by_cases hb : s.status = .busy
  · exact .inl (running_progress hs hb hr)
  · exact (idle_progress hs hb hr).imp_right fun ⟨hrefused, hload, hdone⟩ => ⟨hrefused, hload, hb, hdone⟩

end Sys2Proof.Machine
end
